-- ==== Sys2Proof/Word.lean ====
section
/-! DEFINITION. The word types of the block: every value it handles is an unsigned bit vector of a fixed width
(00_scope.md R8, R10). -/

namespace Sys2Proof

/-- A wire byte, a command byte, a payload byte or the checksum: 8 bits (R8). -/
abbrev Byte := BitVec 8

/-- A device address, a tag nibble or a value nibble: 4 bits (R8, R10). -/
abbrev Nibble := BitVec 4

/-- A command-port word: 12 bits (R70). -/
abbrev CmdWord := BitVec 12

end Sys2Proof
end

