-- ==== Sys2Proof/Syntax.lean ====
section
/-! DEFINITION. The instructions: one constructor per row of spec/opcode_table.json, in the table's order and its
three formats. A command word keeps its whole 8-bit argument, ignored bits included, so that R73 (ignored bits do
not matter) is a statement about the machine and not a habit of the decoder. A wire byte keeps its value nibble,
also where the tag is unassigned, since such a byte is returned verbatim (R33, R64). -/

namespace Sys2Proof

/-- The opcode table's rows. -/
inductive Instr where
  /-- NOP, R181: the argument is ignored. -/
  | nop (arg : Byte)
  /-- ENC_START, R105: `arg[3:0]` is the address, `arg[7:4]` ignored. -/
  | encStart (arg : Byte)
  /-- ENC_CMD, R106: the argument is the command byte. -/
  | encCmd (arg : Byte)
  /-- ENC_DATA, R107: the argument is a payload byte. -/
  | encData (arg : Byte)
  /-- ENC_END, R108: the argument is ignored. -/
  | encEnd (arg : Byte)
  /-- ENC_ABORT, R109: the argument is ignored. -/
  | encAbort (arg : Byte)
  /-- RESERVED_6, R184: a reserved operation code, the argument is ignored. -/
  | reserved6 (arg : Byte)
  /-- RESERVED_7, R184: a reserved operation code, the argument is ignored. -/
  | reserved7 (arg : Byte)
  /-- RX_PUSH, R151: the argument is the received wire byte. -/
  | rxPush (arg : Byte)
  /-- PARSE, R160: the argument is ignored. -/
  | parse (arg : Byte)
  /-- RX_FLUSH, R161: the argument is ignored. -/
  | rxFlush (arg : Byte)
  /-- RESERVED_B, R184: a reserved operation code, the argument is ignored. -/
  | reservedB (arg : Byte)
  /-- RESERVED_C, R184: a reserved operation code, the argument is ignored. -/
  | reservedC (arg : Byte)
  /-- RESERVED_D, R184: a reserved operation code, the argument is ignored. -/
  | reservedD (arg : Byte)
  /-- STAT_READ, R182: the argument is ignored. -/
  | statRead (arg : Byte)
  /-- STAT_CLR, R183: `arg[2:0]` selects the sticky bits to clear, `arg[7:3]` ignored. -/
  | statClr (arg : Byte)
  /-- WIRE_START, R68 and R61: a wire byte with tag nibble 0x8. -/
  | wireStart (address : Nibble)
  /-- WIRE_CMD_HI, R69 and R61: a wire byte with tag nibble 0x4. -/
  | wireCmdHi (value : Nibble)
  /-- WIRE_CMD_LO, R69 and R61: a wire byte with tag nibble 0x0. -/
  | wireCmdLo (value : Nibble)
  /-- WIRE_DATA_HI, R69 and R61: a wire byte with tag nibble 0x5. -/
  | wireDataHi (value : Nibble)
  /-- WIRE_DATA_LO, R69 and R61: a wire byte with tag nibble 0x1. -/
  | wireDataLo (value : Nibble)
  /-- WIRE_CK_HI, R69 and R61: a wire byte with tag nibble 0x6. -/
  | wireCkHi (value : Nibble)
  /-- WIRE_CK_LO_END, R69 and R61: a wire byte with tag nibble 0x2. -/
  | wireCkLoEnd (value : Nibble)
  /-- WIRE_UNASSIGNED_3, R64 and R61: a wire byte with tag nibble 0x3. -/
  | wireUnassigned3 (value : Nibble)
  /-- WIRE_UNASSIGNED_7, R64 and R61: a wire byte with tag nibble 0x7. -/
  | wireUnassigned7 (value : Nibble)
  /-- WIRE_UNASSIGNED_9, R64 and R61: a wire byte with tag nibble 0x9. -/
  | wireUnassigned9 (value : Nibble)
  /-- WIRE_UNASSIGNED_A, R64 and R61: a wire byte with tag nibble 0xa. -/
  | wireUnassignedA (value : Nibble)
  /-- WIRE_UNASSIGNED_B, R64 and R61: a wire byte with tag nibble 0xb. -/
  | wireUnassignedB (value : Nibble)
  /-- WIRE_UNASSIGNED_C, R64 and R61: a wire byte with tag nibble 0xc. -/
  | wireUnassignedC (value : Nibble)
  /-- WIRE_UNASSIGNED_D, R64 and R61: a wire byte with tag nibble 0xd. -/
  | wireUnassignedD (value : Nibble)
  /-- WIRE_UNASSIGNED_E, R64 and R61: a wire byte with tag nibble 0xe. -/
  | wireUnassignedE (value : Nibble)
  /-- WIRE_UNASSIGNED_F, R64 and R61: a wire byte with tag nibble 0xf. -/
  | wireUnassignedF (value : Nibble)
  /-- PROTO_Hello, R203: command code 0x00 (R201). -/
  | protoHello
  /-- PROTO_SetBaudrate, R204: command code 0x01 (R201). -/
  | protoSetBaudrate
  /-- PROTO_SetLeds, R205: command code 0x10 (R201). -/
  | protoSetLeds
  /-- PROTO_SetSmartLeds, R205: command code 0x11 (R201). -/
  | protoSetSmartLeds
  /-- PROTO_SetText, R205: command code 0x12 (R201). -/
  | protoSetText
  /-- PROTO_SetRelay, R205: command code 0x13 (R201). -/
  | protoSetRelay
  /-- PROTO_SetSpecificSmartLeds_1, R206: command code 0x14 (R201). -/
  | protoSetSpecificSmartLeds1
  /-- PROTO_SetSpecificSmartLeds_2, R206: command code 0x15 (R201). -/
  | protoSetSpecificSmartLeds2
  /-- PROTO_SetSpecificSmartLeds_3, R206: command code 0x16 (R201). -/
  | protoSetSpecificSmartLeds3
  /-- PROTO_GetKeys, R207: command code 0x20 (R201). -/
  | protoGetKeys
  /-- PROTO_GetSliders, R208: command code 0x21 (R201). -/
  | protoGetSliders
  /-- PROTO_GetEncoders, R209: command code 0x22 (R201). -/
  | protoGetEncoders
  /-- PROTO_GetSensors, R210: command code 0x23 (R201). -/
  | protoGetSensors
  /-- PROTO_GetStikyKeys, R211: command code 0x24 (R201). -/
  | protoGetStikyKeys
  /-- PROTO_GetState, R212: command code 0x2F (R201). -/
  | protoGetState
  /-- PROTO_SuccessTicket, R202: command code 0x80 (R201). -/
  | protoSuccessTicket
  /-- PROTO_UnknownTicket, R202: command code 0x81 (R201). -/
  | protoUnknownTicket
deriving DecidableEq, Repr

/-- The row's name in spec/opcode_table.json. -/
def Instr.mnemonic : Instr → String
  | .nop _ => "NOP"
  | .encStart _ => "ENC_START"
  | .encCmd _ => "ENC_CMD"
  | .encData _ => "ENC_DATA"
  | .encEnd _ => "ENC_END"
  | .encAbort _ => "ENC_ABORT"
  | .reserved6 _ => "RESERVED_6"
  | .reserved7 _ => "RESERVED_7"
  | .rxPush _ => "RX_PUSH"
  | .parse _ => "PARSE"
  | .rxFlush _ => "RX_FLUSH"
  | .reservedB _ => "RESERVED_B"
  | .reservedC _ => "RESERVED_C"
  | .reservedD _ => "RESERVED_D"
  | .statRead _ => "STAT_READ"
  | .statClr _ => "STAT_CLR"
  | .wireStart _ => "WIRE_START"
  | .wireCmdHi _ => "WIRE_CMD_HI"
  | .wireCmdLo _ => "WIRE_CMD_LO"
  | .wireDataHi _ => "WIRE_DATA_HI"
  | .wireDataLo _ => "WIRE_DATA_LO"
  | .wireCkHi _ => "WIRE_CK_HI"
  | .wireCkLoEnd _ => "WIRE_CK_LO_END"
  | .wireUnassigned3 _ => "WIRE_UNASSIGNED_3"
  | .wireUnassigned7 _ => "WIRE_UNASSIGNED_7"
  | .wireUnassigned9 _ => "WIRE_UNASSIGNED_9"
  | .wireUnassignedA _ => "WIRE_UNASSIGNED_A"
  | .wireUnassignedB _ => "WIRE_UNASSIGNED_B"
  | .wireUnassignedC _ => "WIRE_UNASSIGNED_C"
  | .wireUnassignedD _ => "WIRE_UNASSIGNED_D"
  | .wireUnassignedE _ => "WIRE_UNASSIGNED_E"
  | .wireUnassignedF _ => "WIRE_UNASSIGNED_F"
  | .protoHello => "PROTO_Hello"
  | .protoSetBaudrate => "PROTO_SetBaudrate"
  | .protoSetLeds => "PROTO_SetLeds"
  | .protoSetSmartLeds => "PROTO_SetSmartLeds"
  | .protoSetText => "PROTO_SetText"
  | .protoSetRelay => "PROTO_SetRelay"
  | .protoSetSpecificSmartLeds1 => "PROTO_SetSpecificSmartLeds_1"
  | .protoSetSpecificSmartLeds2 => "PROTO_SetSpecificSmartLeds_2"
  | .protoSetSpecificSmartLeds3 => "PROTO_SetSpecificSmartLeds_3"
  | .protoGetKeys => "PROTO_GetKeys"
  | .protoGetSliders => "PROTO_GetSliders"
  | .protoGetEncoders => "PROTO_GetEncoders"
  | .protoGetSensors => "PROTO_GetSensors"
  | .protoGetStikyKeys => "PROTO_GetStikyKeys"
  | .protoGetState => "PROTO_GetState"
  | .protoSuccessTicket => "PROTO_SuccessTicket"
  | .protoUnknownTicket => "PROTO_UnknownTicket"

end Sys2Proof
end

