-- ==== Sys2Proof/WellFormed.lean ====
section
/-! DEFINITION. Well-formed instructions: ignored bits 0, the form R73 gives an assembled word. R73 says also that ignored
bits never make an operation illegal, so the block runs every instruction; this check says only that the ignored bits are 0. No step
and no decoding depends on it. -/

namespace Sys2Proof

/-- The bits of the argument that R71 calls ignored are 0, the form R73 gives an assembled word. The model's assembler
writes a line without an operand so, and keeps the bits of a written ENC_START or STAT_CLR operand (log entry 27). The
other formats have no ignored bit. -/
def Instr.wellFormed : Instr → Bool
  | .nop arg => arg == 0x00#8
  | .encStart arg => arg &&& 0xF0#8 == 0x00#8
  | .encCmd _ => true
  | .encData _ => true
  | .encEnd arg => arg == 0x00#8
  | .encAbort arg => arg == 0x00#8
  | .reserved6 arg => arg == 0x00#8
  | .reserved7 arg => arg == 0x00#8
  | .rxPush _ => true
  | .parse arg => arg == 0x00#8
  | .rxFlush arg => arg == 0x00#8
  | .reservedB arg => arg == 0x00#8
  | .reservedC arg => arg == 0x00#8
  | .reservedD arg => arg == 0x00#8
  | .statRead arg => arg == 0x00#8
  | .statClr arg => arg &&& 0xF8#8 == 0x00#8
  | .wireStart _ => true
  | .wireCmdHi _ => true
  | .wireCmdLo _ => true
  | .wireDataHi _ => true
  | .wireDataLo _ => true
  | .wireCkHi _ => true
  | .wireCkLoEnd _ => true
  | .wireUnassigned3 _ => true
  | .wireUnassigned7 _ => true
  | .wireUnassigned9 _ => true
  | .wireUnassignedA _ => true
  | .wireUnassignedB _ => true
  | .wireUnassignedC _ => true
  | .wireUnassignedD _ => true
  | .wireUnassignedE _ => true
  | .wireUnassignedF _ => true
  | .protoHello => true
  | .protoSetBaudrate => true
  | .protoSetLeds => true
  | .protoSetSmartLeds => true
  | .protoSetText => true
  | .protoSetRelay => true
  | .protoSetSpecificSmartLeds1 => true
  | .protoSetSpecificSmartLeds2 => true
  | .protoSetSpecificSmartLeds3 => true
  | .protoGetKeys => true
  | .protoGetSliders => true
  | .protoGetEncoders => true
  | .protoGetSensors => true
  | .protoGetStikyKeys => true
  | .protoGetState => true
  | .protoSuccessTicket => true
  | .protoUnknownTicket => true

end Sys2Proof
end

