-- ==== Sys2Proof/Decode.lean ====
section
/-! DEFINITION. Decoding and encoding (30_encoding.md). A word of the table is a number in one of three formats; each
format has its own decoder, and `decode` is total on every number, rejecting by name. The encoder stands after it. -/

namespace Sys2Proof

/-! ### Bit fields of a byte and named literals -/

/-- `hi4(b) = b[7:4]`, the tag nibble of a wire byte (R10, R60). -/
def hi4 (b : Byte) : Nibble := b.extractLsb' 4 4

/-- `lo4(b) = b[3:0]`, the value nibble of a wire byte (R10, R60). -/
def lo4 (b : Byte) : Nibble := b.extractLsb' 0 4

/-- The byte with tag nibble `tag` and value nibble `value` (R60). -/
def byteOf (tag value : Nibble) : Byte := tag.setWidth 8 <<< 4 ||| value.setWidth 8

/-- The start tag 0x80 (R68). -/
def startTag : Byte := 0x80#8

/-- The end tag pattern 0x20 (R156). -/
def endTag : Byte := 0x20#8

/-- The mask of the tag nibble, 0xF0 (R153, R156). -/
def tagMask : Byte := 0xF0#8

/-- The high-half bit 0x40 of a tagged byte (R62, R69). -/
def highHalf : Byte := 0x40#8

/-- The start predicate, R153: `b & 0xF0 = 0x80`. -/
def isStart (b : Byte) : Bool := b &&& tagMask == startTag

/-- The end predicate, R156: `b & 0xF0 = 0x20`. -/
def isEndTag (b : Byte) : Bool := b &&& tagMask == endTag

/-! ### The command word (R70) -/

/-- `cw[11:8]`, the operation code. -/
def opField (cw : CmdWord) : Nibble := cw.extractLsb' 8 4

/-- `cw[7:0]`, the argument. -/
def argField (cw : CmdWord) : Byte := cw.extractLsb' 0 8

/-- `cw = op << 8 | arg`, R70. -/
def cmdWord (op : Nibble) (arg : Byte) : CmdWord := op.setWidth 12 <<< 8 ||| arg.setWidth 12

/-! ### Decoders -/

/-- The operation map of R71, by the four bits of the operation code. Every code has a row. -/
def instrOfOp (op : Nibble) (arg : Byte) : Instr :=
  match op.getLsbD 3, op.getLsbD 2, op.getLsbD 1, op.getLsbD 0 with
  | false, false, false, false => .nop arg
  | false, false, false, true => .encStart arg
  | false, false, true, false => .encCmd arg
  | false, false, true, true => .encData arg
  | false, true, false, false => .encEnd arg
  | false, true, false, true => .encAbort arg
  | false, true, true, false => .reserved6 arg
  | false, true, true, true => .reserved7 arg
  | true, false, false, false => .rxPush arg
  | true, false, false, true => .parse arg
  | true, false, true, false => .rxFlush arg
  | true, false, true, true => .reservedB arg
  | true, true, false, false => .reservedC arg
  | true, true, false, true => .reservedD arg
  | true, true, true, false => .statRead arg
  | true, true, true, true => .statClr arg

/-- A command word: `op = cw[11:8]`, `arg = cw[7:0]` (R70). Every command word is an operation (R31). -/
def decodeCmd (cw : CmdWord) : Instr := instrOfOp (opField cw) (argField cw)

/-- The wire byte classes of R61, by the four bits of the tag nibble. Every nibble has a row. -/
def instrOfTag (tag value : Nibble) : Instr :=
  match tag.getLsbD 3, tag.getLsbD 2, tag.getLsbD 1, tag.getLsbD 0 with
  | false, false, false, false => .wireCmdLo value
  | false, false, false, true => .wireDataLo value
  | false, false, true, false => .wireCkLoEnd value
  | false, false, true, true => .wireUnassigned3 value
  | false, true, false, false => .wireCmdHi value
  | false, true, false, true => .wireDataHi value
  | false, true, true, false => .wireCkHi value
  | false, true, true, true => .wireUnassigned7 value
  | true, false, false, false => .wireStart value
  | true, false, false, true => .wireUnassigned9 value
  | true, false, true, false => .wireUnassignedA value
  | true, false, true, true => .wireUnassignedB value
  | true, true, false, false => .wireUnassignedC value
  | true, true, false, true => .wireUnassignedD value
  | true, true, true, false => .wireUnassignedE value
  | true, true, true, true => .wireUnassignedF value

/-- A wire byte: tag nibble `b[7:4]`, value nibble `b[3:0]` (R60). -/
def decodeWire (b : Byte) : Instr := instrOfTag (hi4 b) (lo4 b)

/-- The protocol's command codes of R201. A code that is not in R201 is no row of the table: a reply with it is a raw
reply (R213). -/
def decodeProto (code : Byte) : Option Instr :=
  match code.toNat with
  | 0x00 => some .protoHello
  | 0x01 => some .protoSetBaudrate
  | 0x10 => some .protoSetLeds
  | 0x11 => some .protoSetSmartLeds
  | 0x12 => some .protoSetText
  | 0x13 => some .protoSetRelay
  | 0x14 => some .protoSetSpecificSmartLeds1
  | 0x15 => some .protoSetSpecificSmartLeds2
  | 0x16 => some .protoSetSpecificSmartLeds3
  | 0x20 => some .protoGetKeys
  | 0x21 => some .protoGetSliders
  | 0x22 => some .protoGetEncoders
  | 0x23 => some .protoGetSensors
  | 0x24 => some .protoGetStikyKeys
  | 0x2F => some .protoGetState
  | 0x80 => some .protoSuccessTicket
  | 0x81 => some .protoUnknownTicket
  | _ => none

/-- The formats of the opcode table. -/
inductive Format where
  | cw12
  | wire8
  | proto8
deriving DecidableEq, Repr

/-- The width of a word of the format, in bits (R60, R70, R80). -/
def Format.width : Format → Nat
  | .cw12 => 12
  | .wire8 => 8
  | .proto8 => 8

/-- Why a number is no word of the table. -/
inductive DecodeError where
  /-- The number has a bit above the format's width: there is no such word (R70, R60). -/
  | tooWide (format : Format) (w : Nat)
  /-- The command code is not in R201: not a protocol instruction (R213). -/
  | codeNotListed (code : Byte)
deriving DecidableEq, Repr

/-- The decoder: total on every number, rejecting by name. -/
def decode (format : Format) (w : Nat) : Except DecodeError Instr :=
  if w < 2 ^ format.width then
    match format with
    | .cw12 => .ok (decodeCmd (BitVec.ofNat 12 w))
    | .wire8 => .ok (decodeWire (BitVec.ofNat 8 w))
    | .proto8 =>
      match decodeProto (BitVec.ofNat 8 w) with
      | some i => .ok i
      | none => .error (.codeNotListed (BitVec.ofNat 8 w))
  else .error (.tooWide format w)

/-! ### Encoder -/

/-- The format and the word of an instruction, from R71 (operation codes), R61 (tag nibbles) and R201 (codes). -/
def encode : Instr → Format × Nat
  | .nop arg => (.cw12, (cmdWord 0x0#4 arg).toNat)
  | .encStart arg => (.cw12, (cmdWord 0x1#4 arg).toNat)
  | .encCmd arg => (.cw12, (cmdWord 0x2#4 arg).toNat)
  | .encData arg => (.cw12, (cmdWord 0x3#4 arg).toNat)
  | .encEnd arg => (.cw12, (cmdWord 0x4#4 arg).toNat)
  | .encAbort arg => (.cw12, (cmdWord 0x5#4 arg).toNat)
  | .reserved6 arg => (.cw12, (cmdWord 0x6#4 arg).toNat)
  | .reserved7 arg => (.cw12, (cmdWord 0x7#4 arg).toNat)
  | .rxPush arg => (.cw12, (cmdWord 0x8#4 arg).toNat)
  | .parse arg => (.cw12, (cmdWord 0x9#4 arg).toNat)
  | .rxFlush arg => (.cw12, (cmdWord 0xA#4 arg).toNat)
  | .reservedB arg => (.cw12, (cmdWord 0xB#4 arg).toNat)
  | .reservedC arg => (.cw12, (cmdWord 0xC#4 arg).toNat)
  | .reservedD arg => (.cw12, (cmdWord 0xD#4 arg).toNat)
  | .statRead arg => (.cw12, (cmdWord 0xE#4 arg).toNat)
  | .statClr arg => (.cw12, (cmdWord 0xF#4 arg).toNat)
  | .wireStart value => (.wire8, (byteOf 0x8#4 value).toNat)
  | .wireCmdHi value => (.wire8, (byteOf 0x4#4 value).toNat)
  | .wireCmdLo value => (.wire8, (byteOf 0x0#4 value).toNat)
  | .wireDataHi value => (.wire8, (byteOf 0x5#4 value).toNat)
  | .wireDataLo value => (.wire8, (byteOf 0x1#4 value).toNat)
  | .wireCkHi value => (.wire8, (byteOf 0x6#4 value).toNat)
  | .wireCkLoEnd value => (.wire8, (byteOf 0x2#4 value).toNat)
  | .wireUnassigned3 value => (.wire8, (byteOf 0x3#4 value).toNat)
  | .wireUnassigned7 value => (.wire8, (byteOf 0x7#4 value).toNat)
  | .wireUnassigned9 value => (.wire8, (byteOf 0x9#4 value).toNat)
  | .wireUnassignedA value => (.wire8, (byteOf 0xA#4 value).toNat)
  | .wireUnassignedB value => (.wire8, (byteOf 0xB#4 value).toNat)
  | .wireUnassignedC value => (.wire8, (byteOf 0xC#4 value).toNat)
  | .wireUnassignedD value => (.wire8, (byteOf 0xD#4 value).toNat)
  | .wireUnassignedE value => (.wire8, (byteOf 0xE#4 value).toNat)
  | .wireUnassignedF value => (.wire8, (byteOf 0xF#4 value).toNat)
  | .protoHello => (.proto8, 0x00)
  | .protoSetBaudrate => (.proto8, 0x01)
  | .protoSetLeds => (.proto8, 0x10)
  | .protoSetSmartLeds => (.proto8, 0x11)
  | .protoSetText => (.proto8, 0x12)
  | .protoSetRelay => (.proto8, 0x13)
  | .protoSetSpecificSmartLeds1 => (.proto8, 0x14)
  | .protoSetSpecificSmartLeds2 => (.proto8, 0x15)
  | .protoSetSpecificSmartLeds3 => (.proto8, 0x16)
  | .protoGetKeys => (.proto8, 0x20)
  | .protoGetSliders => (.proto8, 0x21)
  | .protoGetEncoders => (.proto8, 0x22)
  | .protoGetSensors => (.proto8, 0x23)
  | .protoGetStikyKeys => (.proto8, 0x24)
  | .protoGetState => (.proto8, 0x2F)
  | .protoSuccessTicket => (.proto8, 0x80)
  | .protoUnknownTicket => (.proto8, 0x81)

/-! ### The opcode table's words, for the host -/

/-- What the decoder reads from a table word of `nbits` bits. A word of 12 bits stands in two whole bytes, the four
bits above it 0 (log entry 13). A row of 8 bits is a wire byte or a command code, and the table gives both formats
the same width, so their words overlap: the row that fixes all 8 bits (a code of R201) is read before the row that
fixes the tag nibble only, and every other byte is a wire byte (log entry 14). -/
def decodeTableWord (nbits w : Nat) : Option Instr :=
  if nbits = 12 ∨ nbits = 16 then (decode .cw12 w).toOption
  else if nbits = 8 then
    match decode .proto8 w with
    | .ok i => some i
    | .error _ => (decode .wire8 w).toOption
  else none

end Sys2Proof
end

