-- ==== Sys2Proof/Machine/Types.lean ====
section
/-! DEFINITION. The plain data of the machine: encoder phases (R23), responses and parse outcomes (R74, R75), and
the host's connection, messages, events and inputs (R260 to R279). -/

namespace Sys2Proof.Machine

/-- The encoder phase, R23. The encoding 0b11 is unreachable and left out of the type, as R23 allows. -/
inductive EncPhase where
  | idle
  | needCmd
  | body
deriving DecidableEq, Repr

/-- The response codes of R74. -/
inductive RespCode where
  | ok
  | seq
  | full
  | illegal
deriving DecidableEq, Repr

/-- The parse outcomes of R75. -/
inductive ParseOutcome where
  | needMoreData
  | success (address : Nibble) (command : Byte) (payload : List Byte)
  | skipped (bytes : List Byte)
  | sizeError (bytes : List Byte)
  | tagError (bytes : List Byte)
  | checksumError (bytes : List Byte)
deriving DecidableEq, Repr

/-- The response of one operation, R74: `outcome` is present in the response of PARSE only. -/
structure Response where
  code : RespCode
  data : Byte
  outcome : Option ParseOutcome
deriving DecidableEq, Repr

/-- The host's connection states, R261. -/
inductive ConnState where
  | closed
  | opening
  | opened
deriving DecidableEq, Repr

/-- What the line answers to an open, R261: success, descriptor null or unknown (`LineUnavailable`), or claimed by
another process (`LineBusy`). -/
inductive OpenResult where
  | granted
  | unavailable
  | claimed
deriving DecidableEq, Repr

/-- What the spec states of the line's rate: 9600 since the line was opened (R261, R284), or a SetBaudrate request
with this table index has been written since (R204, R262). The moment the rate follows the request is not stated,
so the model records the request only (log entry 10). -/
inductive LineRate where
  | atOpen
  | requested (index : BitVec 3)
deriving DecidableEq, Repr

/-- What the line does for one request: its answer should the host have to open it (R265), and how many bytes it
writes (R266; `none` when it writes all of them). -/
structure LineReport where
  opens : OpenResult
  written : Option Nat
deriving DecidableEq, Repr

/-- The frame the host has in hand: its command field is the PROTO8 code that is dispatched next. A `request` is to
be encoded and written (R264 to R267); a `reply` is the `Success` outcome that ended an exchange (R269, R215). -/
inductive HostMsg where
  | request (address : Nibble) (command : Byte) (payload : List Byte) (line : LineReport)
  | reply (address : Nibble) (command : Byte) (payload : List Byte)
deriving DecidableEq, Repr

/-- The PendingRequest of R264, with the milliseconds since its dispatch (R273). -/
structure Pending where
  address : Nibble
  command : Byte
  payload : List Byte
  elapsedMs : Nat
deriving DecidableEq, Repr

/-- The host's error kinds, R276. -/
inductive ErrorKind where
  | lineUnavailable
  | lineBusy
  | writeShortfall
  | frameSizeError
  | frameTagError
  | frameSkipped
  | checksumError
  | requestTimeout
  | unknownCommandTicket
  | invalidParameter
  | busy
  | cancelled
deriving DecidableEq, Repr

/-- The events R277 lists whose moments no rule states (93_implementation_defined.md row 10; log entry 8). -/
inductive Notice where
  | started
  | stopped
  | hello
  | baudrateAck
deriving DecidableEq, Repr

/-- The moments at which one of the `Notice` events may occur (log entry 8). -/
inductive NoticePoint where
  | lineOpened
  | lineClosed
  | ticket (code : Byte)
deriving DecidableEq, Repr

/-- The host's event stream, R277. `error` carries the error kinds that have no event of their own; `cancelled` is
the terminal outcome of R275. -/
inductive Event where
  | notice (n : Notice)
  | error (kind : ErrorKind)
  | parseError (kind : ErrorKind) (rawBytes : List Byte)
  | replySilent (address : Nibble) (command : Byte)
  | ticketSuccess
  | ticketUnknown
  | rawReply (address : Nibble) (command : Byte) (payload : List Byte)
  | timeout (address : Nibble) (command : Byte) (payload : List Byte)
  | cancelled
  | keys (down : List Bool)
  | sliders (levels : List Byte)
  | encoders (counters : List (BitVec 16))
  | sensors (levels : List Byte)
  | stikyKeys (down : List Bool)
  | state (keys : List Bool) (sliders : List Byte) (encoders : List (BitVec 16)) (sensors : List Byte)
      (stiky : List Bool)
deriving DecidableEq, Repr

/-- What one step may take from outside: reset (R280), a command word (R70), a received wire byte (R260), and the
calls and line events of the host's interface (R261, R263, R264, R268; R204 and R206 for the two domain calls whose
request the spec lays out). Addresses, baud indexes and channel values are numbers as the caller gives them, so
that R216's rejection and R206's clamping have something to act on. -/
inductive Input where
  | reset
  | word (cw : CmdWord)
  | wire (b : Byte)
  | openCall
  | openAnswer (answer : OpenResult)
  | close
  | execute (address : Nat) (command : Byte) (payload : List Byte) (line : LineReport)
  | setBaudrate (index : Nat) (line : LineReport)
  | setSmartLed (address : Nat) (variant : Fin 3) (group : Byte) (r g b : Nat) (line : LineReport)
  | poll (bytes : List Byte) (ms : Nat)
deriving DecidableEq, Repr

end Sys2Proof.Machine
end

