-- ==== Sys2Proof/Config.lean ====
section
/-! DEFINITION. What a build or an implementation fixes (00_scope.md R6, R7, R29) and the free values: what the
spec leaves open is a constant without a body, so no proof can know it. -/

namespace Sys2Proof

/-- `CKSUM_POLICY`, R6. -/
inductive CksumPolicy where
  | permissive
  | enforce
deriving DecidableEq, Repr

/-- `RX_CAP`, R7. -/
inductive RxCap where
  | unbounded
  | bytes (n : Nat)
deriving DecidableEq, Repr

/-- The two build parameters of the block (R29). They stand in the state, written by nothing (log entry 1). -/
structure Config where
  cksumPolicy : CksumPolicy
  rxCap : RxCap
deriving DecidableEq, Repr

/-- R7: a finite `RX_CAP` is at least 5. -/
def Config.valid (c : Config) : Bool :=
  match c.rxCap with
  | .unbounded => true
  | .bytes n => decide (5 ≤ n)

/-- `SMARTLED_CHANNEL_ORDER`, D27: which byte of a channel comes first. -/
inductive ChannelOrder where
  | highFirst
  | lowFirst
deriving DecidableEq, Repr, Inhabited

/-- The host parameter `BAUD_ADDR` (R204, D28), OPEN: free (log entry 11). -/
opaque Config.baudAddr : Nibble

/-- The host parameter `SMARTLED_CHANNEL_ORDER` (R206, D27), OPEN: free (log entry 11). -/
opaque Config.channelOrder : ChannelOrder

/-- Which of Started, Stopped, Hello and BaudrateAck the host emits at a moment where one may occur: R277 lists
them and no rule says when (R203; 93_implementation_defined.md row 10). Free, fresh at each draw (log entry 8). -/
opaque Config.notices (draw : Nat) (point : Machine.NoticePoint) : List Machine.Notice

/-- What the host surfaces for a reply whose command field is a request-only code of R201: R201 gives such a code no
reply decode of its own and R213 does not make it a raw reply. Free, fresh at each draw (log entry 7). -/
opaque Config.requestCodeReply (draw : Nat) (code : Byte) (address : Nibble) (payload : List Byte) :
    List Machine.Event

end Sys2Proof
end

