-- ==== Sys2Proof/Machine/State.lean ====
section
/-! DEFINITION. The state of the machine: the block's record of R20, its configuration (R29), its outputs (R30, kept
so that a state shows them), what waits at its inputs, and the host that drives it (R261 to R278). -/

namespace Sys2Proof.Machine

/-- The faults. None: the block never traps or halts (R240) and every command word has a result (R31), so no step
raises one; a fault that stopped it would be a gap. -/
inductive Fault where
deriving DecidableEq, Repr

/-- The refusals. -/
inductive Refusal where
  /-- Raised by exec's arm of an instruction without a meaning; none is left, so nothing raises it. Safe: the
  machine stops where the hardware goes on. -/
  | notModelled (mnemonic : String)
deriving DecidableEq, Repr

/-- The host's record: the TransportWorker and CommandDispatcher beside the block (R5 leaves them out of the block's
state; R260 to R278 say what they do). -/
structure HostState where
  /-- The connection state, R261. -/
  conn : ConnState
  /-- The line's rate as far as the spec states it, R204, R261, R284. -/
  lineRate : LineRate
  /-- The bytes written to the serial line, oldest first, R260, R266 (log entry 29). -/
  lineOut : List Byte
  /-- The pending request, R264. -/
  pending : Option Pending
  /-- The frame in hand, whose command field is dispatched next, R264, R269. -/
  msg : Option HostMsg
  /-- The event stream, oldest first, R277. -/
  events : List Event
  /-- The model's own counter of free values drawn (log entry 9). -/
  draws : Nat
deriving DecidableEq, Repr

/-- The state. -/
structure State where
  /-- The build parameters, written by nothing (R29; log entry 1). -/
  cfg : Config
  /-- `enc_phase`, R23. -/
  encPhase : EncPhase
  /-- `enc_acc`, R24. -/
  encAcc : Byte
  /-- `rx_buf`, oldest byte first, R25. -/
  rxBuf : List Byte
  /-- `st_rx_ovf`, R26. -/
  stRxOvf : Bool
  /-- `st_enc_seq`, R26. -/
  stEncSeq : Bool
  /-- `st_op_ill`, R26. -/
  stOpIll : Bool
  /-- The TX stream, every byte emitted so far, R42 (an output, log entry 2). -/
  tx : List Byte
  /-- The response of the last operation, R74 (an output, log entry 2). -/
  resp : Option Response
  /-- What waits at the inputs, the next first, R22, R50 (log entry 3). -/
  inputs : List Input
  /-- The host. -/
  host : HostState
deriving DecidableEq, Repr

/-- The host before anything happened: line closed, rate 9600 (R284), nothing written, pending or emitted (log
entry 4). -/
def HostState.initial : HostState where
  conn := .closed
  lineRate := .atOpen
  lineOut := []
  pending := none
  msg := none
  events := []
  draws := 0

/-- The machine right after reset: R32 for the block, `CKSUM_POLICY = ENFORCE` (R6) and `RX_CAP = UNBOUNDED` (R7;
log entry 1), no output yet and nothing at the inputs. -/
def State.reset : State where
  cfg := { cksumPolicy := .enforce, rxCap := .unbounded }
  encPhase := .idle
  encAcc := 0x00#8
  rxBuf := []
  stRxOvf := false
  stEncSeq := false
  stOpIll := false
  tx := []
  resp := none
  inputs := []
  host := HostState.initial

end Sys2Proof.Machine
end

