-- ==== Sys2Proof/Machine/Ops.lean ====
section
/-! DEFINITION. The named operations over the state (R12's primitives): every write of a field goes through one of
them. The block has no memory (R40) and takes no exception (R245), so there is no memory operation and no exception
entry; the shared answer to an operation out of sequence is `rejectSeq` (R112). -/

namespace Sys2Proof.Machine

/-- `emit`: append bytes to the TX stream (R12, R42). -/
def emit (bytes : List Byte) (s : State) : State := { s with tx := s.tx ++ bytes }

/-- `respond(code, data)` of an operation other than PARSE (R12, R74). -/
def respond (code : RespCode) (data : Byte) (s : State) : State :=
  { s with resp := some { code := code, data := data, outcome := none } }

/-- The 2-bit code of a response (R74). -/
def codeBits : RespCode → BitVec 2
  | .ok => 0#2
  | .seq => 1#2
  | .full => 2#2
  | .illegal => 3#2

/-- The 3-bit kind code of a parse outcome, as the response's `data` (R74, R75). -/
def kindCode : ParseOutcome → Byte
  | .needMoreData => 0#8
  | .success _ _ _ => 1#8
  | .skipped _ => 2#8
  | .sizeError _ => 3#8
  | .tagError _ => 4#8
  | .checksumError _ => 5#8

/-- `outcome(o); respond(OK, kind(o))` of PARSE (R160). -/
def respondOutcome (o : ParseOutcome) (s : State) : State :=
  { s with resp := some { code := .ok, data := kindCode o, outcome := some o } }

/-- Write `enc_phase` (R23). -/
def setPhase (p : EncPhase) (s : State) : State := { s with encPhase := p }

/-- Write `enc_acc` (R24). -/
def setAcc (a : Byte) (s : State) : State := { s with encAcc := a }

/-- Write `rx_buf` (R25). -/
def setRx (buf : List Byte) (s : State) : State := { s with rxBuf := buf }

/-- Write the sticky bits (R26). -/
def setSticky (rxOvf encSeq opIll : Bool) (s : State) : State :=
  { s with stRxOvf := rxOvf, stEncSeq := encSeq, stOpIll := opIll }

/-- Write what waits at the inputs. -/
def setInputs (inputs : List Input) (s : State) : State := { s with inputs := inputs }

/-- Write the host's record. -/
def setHost (h : HostState) (s : State) : State := { s with host := h }

/-- `reject_seq()`, R112: nothing is emitted, phase and accumulator stay, `st_enc_seq` is set, the answer is
`(SEQ, 0x00)`. -/
def rejectSeq (s : State) : State :=
  respond .seq 0x00#8 (setSticky s.stRxOvf true s.stOpIll s)

/-- The reset input, R280: every field of R20 to its value of R32, no byte emitted, no response, configuration
unchanged. The host is not the block and keeps its record. -/
def blockReset (s : State) : State :=
  { s with
    encPhase := .idle
    encAcc := 0x00#8
    rxBuf := []
    stRxOvf := false
    stEncSeq := false
    stOpIll := false
    resp := none }

/-- The host emits events (R277). -/
def emitEvents (events : List Event) (s : State) : State :=
  setHost { s.host with events := s.host.events ++ events } s

/-- A moment at which Started, Stopped, Hello or BaudrateAck may occur: which of them do is free (log entry 8). -/
def drawNotices (point : NoticePoint) (s : State) : State :=
  setHost
    { s.host with
      events := s.host.events ++ (Config.notices s.host.draws point).map Event.notice
      draws := s.host.draws + 1 } s

end Sys2Proof.Machine
end

