-- ==== Sys2Proof/Machine/Flags.lean ====
section
/-! DEFINITION. The status bits: setting and clearing the sticky bits (R26) and the STATUS view (R27). There are no
condition codes. -/

namespace Sys2Proof.Machine

/-- Set `st_rx_ovf` (R151). -/
def markOverflow (s : State) : State := setSticky true s.stEncSeq s.stOpIll s

/-- Set `st_op_ill` (R184). -/
def markIllegal (s : State) : State := setSticky s.stRxOvf s.stEncSeq true s

/-- Clear the sticky bits selected by `m` (R183). -/
def clearSticky (m : BitVec 3) (s : State) : State :=
  setSticky (s.stRxOvf && !m.getLsbD 0) (s.stEncSeq && !m.getLsbD 1) (s.stOpIll && !m.getLsbD 2) s

/-- One bit as a byte. -/
def bitByte (b : Bool) : Byte := if b then 1#8 else 0#8

/-- The 2-bit encoding of a phase, R23. -/
def phaseCode : EncPhase → BitVec 2
  | .idle => 0b00#2
  | .needCmd => 0b01#2
  | .body => 0b10#2

/-- `CKSUM_EN`, hardwired per build (R27). -/
def cksumEn (s : State) : Bool := s.cfg.cksumPolicy == .enforce

/-- `RX_PEND`, live (R27). -/
def rxPend (s : State) : Bool := decide (0 < s.rxBuf.length)

/-- The STATUS register, R27. -/
def statusByte (s : State) : Byte :=
  bitByte s.stRxOvf
    ||| bitByte s.stEncSeq <<< 1
    ||| bitByte s.stOpIll <<< 2
    ||| (phaseCode s.encPhase).setWidth 8 <<< 3
    ||| bitByte (cksumEn s) <<< 5
    ||| bitByte (rxPend s) <<< 6

end Sys2Proof.Machine
end

