-- ==== Sys2Proof/Machine/Operands.lean ====
section
/-! DEFINITION. The operand forms (R71, R79): the 8-bit argument of a command word and the fields an operation takes
of it. No operand is signed, scaled or shifted, and no register is named (R21). -/

namespace Sys2Proof.Machine

/-- ENC_START's operand `a = arg[3:0]`; `arg[7:4]` is ignored (R105). -/
def addressOperand (arg : Byte) : Nibble := lo4 arg

/-- The whole argument as a command byte, payload byte or received byte (R106, R107, R151). -/
def byteOperand (arg : Byte) : Byte := arg

/-- STAT_CLR's operand `m = arg[2:0]`; `arg[7:3]` is ignored (R183). -/
def stickyOperand (arg : Byte) : BitVec 3 := arg.extractLsb' 0 3

/-- The start byte of an address, `0x80 | (address & 0xF)` (R68). -/
def startByte (address : Nibble) : Byte := startTag ||| address.setWidth 8

/-- The silent addresses, R44. -/
def isSilent (address : Nibble) : Bool := address == 0#4 || address == 15#4

/-- `silent(a)`, R111: the `data` of ENC_START's OK response. -/
def silentData (address : Nibble) : Byte := if isSilent address then 0x01#8 else 0x00#8

end Sys2Proof.Machine
end

