-- ==== Sys2Proof/Machine/Control.lean ====
section
/-! DEFINITION. The control operations NOP, STAT_READ, STAT_CLR and the reserved codes (43_control.md). The reserved
codes are executed by R184, not refused. -/

namespace Sys2Proof.Machine

/-- A reserved operation code, R184. -/
def illegalOp (s : State) : State := respond .illegal 0x00#8 (markIllegal s)

/-- NOP, R181; the argument is ignored. -/
def execNop (_arg : Byte) (s : State) : Host.Outcome State Fault Refusal := .next (respond .ok 0x00#8 s)

/-- STAT_READ, R182; the argument is ignored. -/
def execStatRead (_arg : Byte) (s : State) : Host.Outcome State Fault Refusal :=
  .next (respond .ok (statusByte s) s)

/-- STAT_CLR, R183. -/
def execStatClr (arg : Byte) (s : State) : Host.Outcome State Fault Refusal :=
  .next (respond .ok 0x00#8 (clearSticky (stickyOperand arg) s))

/-- Reserved code 0x6, R184. -/
def execReserved6 (_arg : Byte) (s : State) : Host.Outcome State Fault Refusal := .next (illegalOp s)

/-- Reserved code 0x7, R184. -/
def execReserved7 (_arg : Byte) (s : State) : Host.Outcome State Fault Refusal := .next (illegalOp s)

/-- Reserved code 0xB, R184. -/
def execReservedB (_arg : Byte) (s : State) : Host.Outcome State Fault Refusal := .next (illegalOp s)

/-- Reserved code 0xC, R184. -/
def execReservedC (_arg : Byte) (s : State) : Host.Outcome State Fault Refusal := .next (illegalOp s)

/-- Reserved code 0xD, R184. -/
def execReservedD (_arg : Byte) (s : State) : Host.Outcome State Fault Refusal := .next (illegalOp s)

end Sys2Proof.Machine
end

