-- ==== Sys2Proof/Machine/Codec.lean ====
section
/-! DEFINITION. The codec's functions: the tagged pair, the checksum, the whole-frame encoder (40_encoder.md) and the
frame decoder (41_decoder.md). -/

namespace Sys2Proof.Machine

/-- The types of a tagged pair, R63. -/
inductive TagType where
  | cmd
  | data
  | ck
deriving DecidableEq, Repr

/-- `T_CMD`, `T_DATA`, `T_CK`, already shifted into bits 5:4 (R63). -/
def tagCode : TagType → Byte
  | .cmd => 0x00#8
  | .data => 0x10#8
  | .ck => 0x20#8

/-- `Tag(v, t)`, R101: high byte first. -/
def tagPair (v : Byte) (t : TagType) : List Byte :=
  [ highHalf ||| tagCode t ||| ((v >>> 4) &&& 0x0F#8),
    0x00#8 ||| tagCode t ||| (v &&& 0x0F#8) ]

/-- `Sum8`, R102: the sum modulo 256. -/
def sum8 : List Byte → Byte
  | [] => 0x00#8
  | b :: rest => b + sum8 rest

/-- A frame before its checksum pair: start byte, command pair, payload pairs (R65, R103). -/
def frameBody (a : Nibble) (c : Byte) (p : List Byte) : List Byte :=
  startByte a :: (tagPair c .cmd ++ p.flatMap (fun d => tagPair d .data))

/-- `Encode(a, c, p)`, R103. -/
def encodeFrame (a : Nibble) (c : Byte) (p : List Byte) : List Byte :=
  frameBody a c p ++ tagPair (sum8 (frameBody a c p)) .ck

/-- `Untag(h, l, t)`, R133: both whole tag nibbles are compared; `none` is FAIL. -/
def untag (h l : Byte) (t : TagType) : Option Byte :=
  if hi4 h != 0x4#4 ||| hi4 (tagCode t) then none
  else if hi4 l != 0x0#4 ||| hi4 (tagCode t) then none
  else some (byteOf (lo4 h) (lo4 l))

/-- The payload loop of R136 over the pairs in order; `none` is FAIL, and so is a half pair (which R131's size check
rules out). -/
def untagPayload : List Byte → Option (List Byte)
  | [] => some []
  | [_] => none
  | h :: l :: rest =>
    match untag h l .data with
    | none => none
    | some d =>
      match untagPayload rest with
      | none => none
      | some ds => some (d :: ds)

/-- The minimum frame length, R131. -/
abbrev minFrame : Nat := 5

/-- `Decode(f)`, R130: size (R131), address (R132), command (R134), checksum field (R135), payload (R136), checksum
value under ENFORCE (R137, R138), success (R139), in that order. -/
def decodeFrame (policy : CksumPolicy) (f : List Byte) : ParseOutcome :=
  let len := f.length
  if len < minFrame ∨ len % 2 = 0 then .sizeError f
  else
    let addr := lo4 (f.getD 0 0#8)
    match untag (f.getD 1 0#8) (f.getD 2 0#8) .cmd with
    | none => .tagError f
    | some cmd =>
      match untag (f.getD (len - 2) 0#8) (f.getD (len - 1) 0#8) .ck with
      | none => .tagError f
      | some ck =>
        match untagPayload ((f.drop 3).take (len - 5)) with
        | none => .tagError f
        | some pay =>
          let exp := sum8 (f.take (len - 2))
          if policy = .enforce ∧ exp ≠ ck then .checksumError f
          else .success addr cmd pay

end Sys2Proof.Machine
end

