-- ==== Sys2Proof/Machine/Encoder.lean ====
section
/-! DEFINITION. The encoder's operations ENC_START, ENC_CMD, ENC_DATA, ENC_END and ENC_ABORT (40_encoder.md). -/

namespace Sys2Proof.Machine

/-- Emit the tagged pair of `v` and add its two bytes to the accumulator (R106, R107). -/
def emitSummed (v : Byte) (t : TagType) (s : State) : State :=
  setAcc (s.encAcc + sum8 (tagPair v t)) (emit (tagPair v t) s)

/-- ENC_START, R105. -/
def encStartOp (arg : Byte) (s : State) : State :=
  if s.encPhase = .idle then
    let a := addressOperand arg
    let b := startByte a
    respond .ok (silentData a) (setPhase .needCmd (setAcc b (emit [b] s)))
  else rejectSeq s

/-- ENC_CMD, R106. -/
def encCmdOp (arg : Byte) (s : State) : State :=
  if s.encPhase = .needCmd then
    respond .ok 0x00#8 (setPhase .body (emitSummed (byteOperand arg) .cmd s))
  else rejectSeq s

/-- ENC_DATA, R107: the phase stays BODY. -/
def encDataOp (arg : Byte) (s : State) : State :=
  if s.encPhase = .body then
    respond .ok 0x00#8 (emitSummed (byteOperand arg) .data s)
  else rejectSeq s

/-- ENC_END, R108: the pair of the accumulator goes out and the accumulator stays. -/
def encEndOp (s : State) : State :=
  if s.encPhase = .body then
    respond .ok 0x00#8 (setPhase .idle (emit (tagPair s.encAcc .ck) s))
  else rejectSeq s

/-- ENC_ABORT, R109: accepted in every phase. -/
def encAbortOp (s : State) : State := respond .ok 0x00#8 (setPhase .idle s)

/-- ENC_START. -/
def execEncStart (arg : Byte) (s : State) : Host.Outcome State Fault Refusal := .next (encStartOp arg s)

/-- ENC_CMD. -/
def execEncCmd (arg : Byte) (s : State) : Host.Outcome State Fault Refusal := .next (encCmdOp arg s)

/-- ENC_DATA. -/
def execEncData (arg : Byte) (s : State) : Host.Outcome State Fault Refusal := .next (encDataOp arg s)

/-- ENC_END; the argument is ignored (R73). -/
def execEncEnd (_arg : Byte) (s : State) : Host.Outcome State Fault Refusal := .next (encEndOp s)

/-- ENC_ABORT; the argument is ignored (R73). -/
def execEncAbort (_arg : Byte) (s : State) : Host.Outcome State Fault Refusal := .next (encAbortOp s)

end Sys2Proof.Machine
end

