-- ==== Sys2Proof/Machine/Synchronizer.lean ====
section
/-! DEFINITION. The synchronizer: RX_PUSH, PARSE, RX_FLUSH (42_synchronizer.md), the host's drain over PARSE (R165)
and the equivalent streaming form (R163, not normative, stated against the machine). -/

namespace Sys2Proof.Machine

/-- Whether `rx_buf` is at its bound (R151). -/
def rxFull (s : State) : Bool :=
  match s.cfg.rxCap with
  | .unbounded => false
  | .bytes n => decide (s.rxBuf.length = n)

/-- RX_PUSH, R151. -/
def rxPushOp (b : Byte) (s : State) : State :=
  if rxFull s then respond .full 0x00#8 (markOverflow s)
  else respond .ok 0x00#8 (setRx (s.rxBuf ++ [b]) s)

/-- One parser call on a buffer, R160: the outcome and the buffer after it. Start scan (R153, R154), garbage (R155),
end scan (R156, R157), candidate (R158). -/
def parseBuffer (policy : CksumPolicy) (buf : List Byte) : ParseOutcome × List Byte :=
  match buf.findIdx? isStart with
  | none => (.needMoreData, buf)
  | some (k + 1) => (.skipped (buf.take (k + 1)), buf.drop (k + 1))
  | some 0 =>
    match buf.findIdx? isEndTag with
    | none => (.needMoreData, buf)
    | some e => (decodeFrame policy (buf.take (e + 1)), buf.drop (e + 1))

/-- The outcome PARSE gives in a state. -/
def parseOutcome (s : State) : ParseOutcome := (parseBuffer s.cfg.cksumPolicy s.rxBuf).1

/-- PARSE, R160. -/
def parseOp (s : State) : State :=
  respondOutcome (parseOutcome s) (setRx (parseBuffer s.cfg.cksumPolicy s.rxBuf).2 s)

/-- RX_FLUSH, R161: `st_rx_ovf` is not cleared. -/
def rxFlushOp (s : State) : State := respond .ok 0x00#8 (setRx [] s)

/-- RX_PUSH. -/
def execRxPush (arg : Byte) (s : State) : Host.Outcome State Fault Refusal := .next (rxPushOp (byteOperand arg) s)

/-- PARSE; the argument is ignored (R73). As a command word it ends no exchange of the host: R268 to R272 speak of the
PARSE operations of the poll loop, so an outcome taken by a word is in the response and the exchange stays pending (DESIGN
CHOICE, log entry 28). -/
def execParse (_arg : Byte) (s : State) : Host.Outcome State Fault Refusal := .next (parseOp s)

/-- RX_FLUSH; the argument is ignored (R73). -/
def execRxFlush (_arg : Byte) (s : State) : Host.Outcome State Fault Refusal := .next (rxFlushOp s)

/-! ### The drain (R165) -/

/-- One RX_PUSH per byte, in order (RX_PUSHN, R77). -/
def pushAll (bytes : List Byte) (s : State) : State := bytes.foldl (fun t b => rxPushOp b t) s

/-- At most `fuel` PARSE operations, stopping at `NeedMoreData`: the other outcomes in order, and the state. -/
def drainLoop : Nat → State → List ParseOutcome × State
  | 0, s => ([], s)
  | fuel + 1, s =>
    match parseOutcome s with
    | .needMoreData => ([], parseOp s)
    | o => (o :: (drainLoop fuel (parseOp s)).1, (drainLoop fuel (parseOp s)).2)

/-- A drain: at most `m + 1` PARSE operations for a buffer of `m` bytes (R165). -/
def drain (s : State) : List ParseOutcome × State := drainLoop (s.rxBuf.length + 1) s

/-- Push a stream chunk by chunk with a drain after each chunk (R164): the outcomes in order, and the state. -/
def feed : List (List Byte) → State → List ParseOutcome × State
  | [], s => ([], s)
  | chunk :: rest, s =>
    ((drain (pushAll chunk s)).1 ++ (feed rest (drain (pushAll chunk s)).2).1,
      (feed rest (drain (pushAll chunk s)).2).2)

/-! ### The streaming form (R163) -/

/-- HUNT with the garbage so far, or FRAME with the candidate so far. -/
inductive StreamState where
  | hunt (garbage : List Byte)
  | frame (candidate : List Byte)
deriving DecidableEq, Repr

/-- The bytes a streaming state holds. -/
def heldBytes : StreamState → List Byte
  | .hunt g => g
  | .frame c => c

/-- One pushed byte in the streaming form, R163: its outputs and the next streaming state. -/
def streamByte (policy : CksumPolicy) (st : StreamState) (b : Byte) : List ParseOutcome × StreamState :=
  match st with
  | .hunt g =>
    if isStart b then (if g = [] then [] else [.skipped g], .frame [b])
    else ([], .hunt (g ++ [b]))
  | .frame c =>
    if isEndTag b then ([decodeFrame policy (c ++ [b])], .hunt [])
    else ([], .frame (c ++ [b]))

/-- A byte stream in the streaming form. -/
def streamBytes (policy : CksumPolicy) : StreamState → List Byte → List ParseOutcome × StreamState
  | st, [] => ([], st)
  | st, b :: rest =>
    ((streamByte policy st b).1 ++ (streamBytes policy (streamByte policy st b).2 rest).1,
      (streamBytes policy (streamByte policy st b).2 rest).2)

end Sys2Proof.Machine
end

