-- ==== Sys2Proof/Machine/Worker.lean ====
section
/-! DEFINITION. The host's TransportWorker in the block's terms (60_exceptions.md R260 to R278): opening and closing
the line, one exchange from encode to terminal outcome, the poll loop. It drives the block through the block's own
operations. -/

namespace Sys2Proof.Machine

/-- The request timeout, 350 ms from dispatch (R273). -/
abbrev requestTimeoutMs : Nat := 350

/-- The baud table (R204, R262). -/
def baudTable : List Nat := [9600, 14400, 19200, 28800, 38400, 57600, 76800, 115200]

/-- SetBaudrate's command code (R201). -/
def setBaudrateCode : Byte := 0x01#8

/-- The line's rate in baud as far as the spec states it (R261, R262). -/
def statedRate : LineRate → Nat
  | .atOpen => 9600
  | .requested k => baudTable.getD k.toNat 9600

/-- The error kind an event reports, R276 (`TicketUnknown` is `UnknownCommandTicket`, R202). -/
def eventErrorKind : Event → Option ErrorKind
  | .error k => some k
  | .parseError k _ => some k
  | .timeout _ _ _ => some .requestTimeout
  | .ticketUnknown => some .unknownCommandTicket
  | .cancelled => some .cancelled
  | _ => none

/-! ### The connection (R261, R263, R265, R275) -/

/-- A successful open: `Open`, 9600 baud (R261). -/
def lineOpened (s : State) : State :=
  drawNotices .lineOpened (setHost { s.host with conn := .opened, lineRate := .atOpen } s)

/-- A failed open: back to `Closed`, reported (R261, R276). -/
def lineFailed (kind : ErrorKind) (s : State) : State :=
  emitEvents [.error kind] (setHost { s.host with conn := .closed } s)

/-- The line's answer to an open (R261). -/
def answerOpen (r : OpenResult) (s : State) : State :=
  match r with
  | .granted => lineOpened s
  | .unavailable => lineFailed .lineUnavailable s
  | .claimed => lineFailed .lineBusy s

/-- The explicit open call: `Closed` to `Opening` (R261; log entry 16). -/
def openCallOp (s : State) : State :=
  match s.host.conn with
  | .closed => setHost { s.host with conn := .opening } s
  | .opening => s
  | .opened => s

/-- The answer to an explicit open call: it is heard in `Opening` only (R261; log entry 16). -/
def openAnswerOp (r : OpenResult) (s : State) : State :=
  match s.host.conn with
  | .closed => s
  | .opening => answerOpen r s
  | .opened => s

/-- R265: open the line if it is not open. -/
def lazyOpen (r : OpenResult) (s : State) : State :=
  match s.host.conn with
  | .closed => answerOpen r s
  | .opening => answerOpen r s
  | .opened => s

/-- The pending exchange ends with `Cancelled` (R275). -/
def cancelPending (s : State) : State :=
  match s.host.pending with
  | none => s
  | some _ => emitEvents [.cancelled] (setHost { s.host with pending := none } s)

/-- Close, R263 and R275: the pending exchange is cancelled, ENC_ABORT and RX_FLUSH go to the block, the line is
released. Safe when already closed: nothing happens (log entry 15). -/
def closeOp (s : State) : State :=
  match s.host.conn with
  | .closed => s
  | .opening =>
    drawNotices .lineClosed (setHost { s.host with conn := .closed } (rxFlushOp (encAbortOp s)))
  | .opened =>
    let t := rxFlushOp (encAbortOp (cancelPending s))
    drawNotices .lineClosed (setHost { t.host with conn := .closed } t)

/-! ### A request (R264 to R267) -/

/-- The frame leaves the host's hand. -/
def dropMsg (s : State) : State := setHost { s.host with msg := none } s

/-- ENC_FRAME, R77, through the block's own operations. -/
def encodeRequest (a : Nibble) (c : Byte) (p : List Byte) (s : State) : State :=
  encEndOp (p.foldl (fun t d => encDataOp d t) (encCmdOp c (encStartOp (a.setWidth 8) s)))

/-- A SetBaudrate request was written whole: the line's rate is the requested one as far as the spec states it
(R204, R262; log entry 10). -/
def noteBaudrate (c : Byte) (p : List Byte) (s : State) : State :=
  match p with
  | [k] =>
    if c = setBaudrateCode ∧ k.toNat < baudTable.length then
      setHost { s.host with lineRate := .requested (k.setWidth 3) } s
    else s
  | _ => s

/-- Exchange steps 2 and 3 on an open line: encode, write every TX byte (R266), then a silent address completes at
once (R267), and any other request is pending (R264). -/
def writeRequest (c : Byte) (a : Nibble) (p : List Byte) (written : Option Nat) (s : State) : State :=
  let e := encodeRequest a c p s
  let frame := e.tx.drop s.tx.length
  let n := written.getD frame.length
  let w := setHost { e.host with lineOut := e.host.lineOut ++ frame.take n } e
  if n < frame.length then emitEvents [.error .writeShortfall] w
  else
    let u := noteBaudrate c p w
    if isSilent a then emitEvents [.replySilent a c] u
    else
      setHost
        { u.host with pending := some { address := a, command := c, payload := p, elapsedMs := 0 } } u

/-- One Execute with command code `c` (R264 to R267): `Busy` while a request is pending, then the lazy open, then
encode and write. -/
def hostRequest (c : Byte) (a : Nibble) (p : List Byte) (line : LineReport) (s : State) : State :=
  match s.host.pending with
  | some _ => emitEvents [.error .busy] (dropMsg s)
  | none =>
    let o := lazyOpen line.opens (dropMsg s)
    if o.host.conn = .opened then writeRequest c a p line.written o else o

/-! ### The poll loop (R268 to R273) -/

/-- How a poll goes on after one PARSE. -/
inductive PollStep where
  | again
  | dry
  | over
deriving DecidableEq, Repr

/-- A terminal parse error: reported, and the exchange is over (R270, R272). -/
def endWithParseError (kind : ErrorKind) (bytes : List Byte) (s : State) : State :=
  emitEvents [.parseError kind bytes] (setHost { s.host with pending := none } s)

/-- What the worker does with one outcome: `NeedMoreData` ends the drain (R268), `Skipped` is reported and polling
continues (R271), `Success` ends the exchange and becomes the reply in hand (R269), a frame error is reported and
ends it (R270, R272). -/
def onOutcome (o : ParseOutcome) (s : State) : State × PollStep :=
  match o with
  | .needMoreData => (s, .dry)
  | .skipped bytes => (emitEvents [.parseError .frameSkipped bytes] s, .again)
  | .success a c p => (setHost { s.host with pending := none, msg := some (.reply a c p) } s, .over)
  | .sizeError bytes => (endWithParseError .frameSizeError bytes s, .over)
  | .tagError bytes => (endWithParseError .frameTagError bytes s, .over)
  | .checksumError bytes => (endWithParseError .checksumError bytes s, .over)

/-- PARSE until `NeedMoreData` or a terminal outcome (R268); the flag says the exchange is over. -/
def pollDrain : Nat → State → State × Bool
  | 0, s => (s, false)
  | fuel + 1, s =>
    match onOutcome (parseOutcome s) (parseOp s) with
    | (t, .again) => pollDrain fuel t
    | (t, .dry) => (t, false)
    | (t, .over) => (t, true)

/-- The elapsed time is rechecked each iteration (R268); at 350 ms the exchange times out (R273). -/
def checkTimeout (q : Pending) (ms : Nat) (s : State) : State :=
  if requestTimeoutMs ≤ q.elapsedMs + ms then
    emitEvents [.timeout q.address q.command q.payload] (setHost { s.host with pending := none } s)
  else setHost { s.host with pending := some { q with elapsedMs := q.elapsedMs + ms } } s

/-- The host's reaction to `FULL` (R260, R288): when a byte was dropped, `rx_buf` is still full and PARSE frees nothing,
the host issues RX_FLUSH. It knows of the dropped byte from `st_rx_ovf` (log entry 20). -/
def reactToFull (s : State) : State :=
  if s.stRxOvf = true ∧ rxFull s = true ∧ parseOutcome s = .needMoreData then rxFlushOp s else s

/-- One iteration of the poll loop after a wait of `ms` (R268): one RX_PUSH per received byte, the drain, the reaction
to `FULL`, the timeout. With no exchange pending the bytes are pushed and nothing is parsed (log entry 12). -/
def pollOp (bytes : List Byte) (ms : Nat) (s : State) : State :=
  let t := pushAll bytes s
  match s.host.pending with
  | none => reactToFull t
  | some q =>
    match pollDrain (t.rxBuf.length + 1) t with
    | (u, true) => u
    | (u, false) => checkTimeout q ms (reactToFull u)

end Sys2Proof.Machine
end

