-- ==== Sys2Proof/Machine/Protocol.lean ====
section
/-! DEFINITION. The protocol command layer (44_host_protocol.md): the reply decodes, the domain calls whose request
the spec lays out, and the meaning of each command code. A code is dispatched on the frame the host has in hand: as
a request it is encoded and written, as a reply it is decoded into an event (log entry 6). -/

namespace Sys2Proof.Machine

/-! ### Reply decodes (R207 to R214) -/

/-- A reply's payload extended with 0x00 bytes to `n` bytes, the bytes beyond `n` ignored (R214). -/
def padTo (n : Nat) (r : List Byte) : List Byte := (r ++ List.replicate n 0x00#8).take n

/-- `Keys(r)`, R207: 18 booleans, bits least significant first. -/
def keys (r : List Byte) : List Bool :=
  (List.range 18).map (fun i => ((padTo 3 r).getD (i / 8) 0#8).getLsbD (i % 8))

/-- `Sliders(r)`, R208: 8 levels. -/
def sliders (r : List Byte) : List Byte := padTo 8 r

/-- `Encoders(r)`, R209: 4 little-endian unsigned 16-bit counters. -/
def encoders (r : List Byte) : List (BitVec 16) :=
  (List.range 4).map (fun k =>
    (((padTo 8 r).getD (2 * k + 1) 0#8).setWidth 16 <<< 8) ||| ((padTo 8 r).getD (2 * k) 0#8).setWidth 16)

/-- `Sensors(r)`, R210: 2 levels. -/
def sensors (r : List Byte) : List Byte := padTo 2 r

/-- `StikyKeys(r)`, R211. -/
def stikyKeys (r : List Byte) : List Bool := keys r

/-- The half-open byte range `lo .. hi` of a 24-byte composite (R212). -/
def slice (lo hi : Nat) (r : List Byte) : List Byte := ((padTo 24 r).drop lo).take (hi - lo)

/-- `State(r)`, R212. -/
def stateEvent (r : List Byte) : Event :=
  .state (keys (slice 0 3 r)) (sliders (slice 3 11 r)) (encoders (slice 11 19 r)) (sensors (slice 19 21 r))
    (stikyKeys (slice 21 24 r))

/-! ### The domain calls (R204, R206, R216) -/

/-- R216: rejected before any I/O. -/
def rejectParameter (s : State) : State := emitEvents [.error .invalidParameter] s

/-- The request the host has in hand. -/
def takeRequest (a : Nibble) (c : Byte) (p : List Byte) (line : LineReport) (s : State) : State :=
  setHost { s.host with msg := some (.request a c p line) } s

/-- The codes the host sends: the rows of R201 whose direction is a request (R200, R202). -/
def isRequestCode (c : Byte) : Bool :=
  [0x00, 0x01, 0x10, 0x11, 0x12, 0x13, 0x14, 0x15, 0x16, 0x20, 0x21, 0x22, 0x23, 0x24, 0x2F].contains c.toNat

/-- Execute(address, command, payload): the host checks the address (R216) and the command (R200: the table constrains
what the host sends; that a bad command is `InvalidParameter` is log entry 30). -/
def executeCall (address : Nat) (c : Byte) (p : List Byte) (line : LineReport) (s : State) : State :=
  if address < 16 ∧ isRequestCode c = true then takeRequest (BitVec.ofNat 4 address) c p line s else rejectParameter s

/-- setBaudrate(index), R204: payload `[index]` to `BAUD_ADDR`; an index outside the table is rejected. -/
def setBaudrateCall (index : Nat) (line : LineReport) (s : State) : State :=
  if index < baudTable.length then
    takeRequest Config.baudAddr setBaudrateCode [BitVec.ofNat 8 index] line s
  else rejectParameter s

/-- The byte that holds `v[11:8]` of a channel, clamped to 0..0xFFF (R206). -/
def channelHigh (v : Nat) : Byte := BitVec.ofNat 8 (min v 0xFFF / 256)

/-- The byte that holds `v[7:0]` of a channel, clamped to 0..0xFFF (R206). -/
def channelLow (v : Nat) : Byte := BitVec.ofNat 8 (min v 0xFFF % 256)

/-- The two bytes of a channel in the order `SMARTLED_CHANNEL_ORDER` (R206, D27). -/
def channelBytes (order : ChannelOrder) (v : Nat) : List Byte :=
  match order with
  | .highFirst => [channelHigh v, channelLow v]
  | .lowFirst => [channelLow v, channelHigh v]

/-- The 7-byte payload `[group, R, R, G, G, B, B]`, R206. -/
def smartLedPayload (order : ChannelOrder) (group : Byte) (r g b : Nat) : List Byte :=
  group :: (channelBytes order r ++ channelBytes order g ++ channelBytes order b)

/-- setSmartLed(address, group, r, g, b), R206. Which of the codes 0x14 to 0x16 it uses is the caller's (D27). -/
def setSmartLedCall (address : Nat) (variant : Fin 3) (group : Byte) (r g b : Nat) (line : LineReport)
    (s : State) : State :=
  executeCall address (BitVec.ofNat 8 (0x14 + variant.val))
    (smartLedPayload Config.channelOrder group r g b) line s

/-! ### Dispatch of a command code -/

/-- Dispatch code `c` on the frame in hand: a request is sent (R264 to R267), a reply is decoded by `onReply`
(R215). With no frame in hand there is nothing to dispatch (log entry 6). -/
def dispatchCode (c : Byte) (onReply : Nibble → List Byte → State → State) (s : State) : State :=
  match s.host.msg with
  | none => s
  | some (.request a _ p line) => hostRequest c a p line s
  | some (.reply a _ p) => onReply a p (dropMsg s)

/-- Dispatch a code that is a reply code only (R201, R202): a reply is decoded, a request is rejected by the host's
check of its commands (R200; log entry 30). -/
def dispatchReplyCode (onReply : State → State) (s : State) : State :=
  match s.host.msg with
  | none => s
  | some (.request _ _ _ _) => rejectParameter (dropMsg s)
  | some (.reply _ _ _) => onReply (dropMsg s)

/-- A ticket reply surfaces whatever the request was (R202); whether Hello or BaudrateAck occurs with it is free
(R203, R204; log entry 8). -/
def ticketReply (c : Byte) (e : Event) (s : State) : State := drawNotices (.ticket c) (emitEvents [e] s)

/-- A reply that carries a request-only code: what is surfaced is free (log entry 7). -/
def requestCodeReply (c : Byte) (a : Nibble) (p : List Byte) (s : State) : State :=
  setHost
    { s.host with
      events := s.host.events ++ Config.requestCodeReply s.host.draws c a p
      draws := s.host.draws + 1 } s

/-- A frame whose code is not in R201: a reply is a raw reply (R213), a request is rejected by the host's check of its
commands (R200; log entry 30). -/
def dispatchUnlisted (s : State) : State :=
  match s.host.msg with
  | none => s
  | some (.request _ _ _ _) => rejectParameter (dropMsg s)
  | some (.reply a c p) => emitEvents [.rawReply a c p] (dropMsg s)

/-- PROTO_Hello, code 0x00, R203. -/
def execProtoHello (s : State) : Host.Outcome State Fault Refusal :=
  .next (dispatchCode 0x00#8 (requestCodeReply 0x00#8) s)

/-- PROTO_SetBaudrate, code 0x01, R204. An index outside the baud table is rejected before any I/O (R216). -/
def execProtoSetBaudrate (s : State) : Host.Outcome State Fault Refusal :=
  match s.host.msg with
  | some (.request a _ [k] line) =>
    if k.toNat < baudTable.length then .next (hostRequest 0x01#8 a [k] line s)
    else .next (rejectParameter (dropMsg s))
  | _ => .next (dispatchCode 0x01#8 (requestCodeReply 0x01#8) s)

/-- PROTO_SetLeds, code 0x10, R205. -/
def execProtoSetLeds (s : State) : Host.Outcome State Fault Refusal :=
  .next (dispatchCode 0x10#8 (requestCodeReply 0x10#8) s)

/-- PROTO_SetSmartLeds, code 0x11, R205. -/
def execProtoSetSmartLeds (s : State) : Host.Outcome State Fault Refusal :=
  .next (dispatchCode 0x11#8 (requestCodeReply 0x11#8) s)

/-- PROTO_SetText, code 0x12, R205. -/
def execProtoSetText (s : State) : Host.Outcome State Fault Refusal :=
  .next (dispatchCode 0x12#8 (requestCodeReply 0x12#8) s)

/-- PROTO_SetRelay, code 0x13, R205. -/
def execProtoSetRelay (s : State) : Host.Outcome State Fault Refusal :=
  .next (dispatchCode 0x13#8 (requestCodeReply 0x13#8) s)

/-- PROTO_SetSpecificSmartLeds_1, code 0x14, R206. -/
def execProtoSetSpecificSmartLeds1 (s : State) : Host.Outcome State Fault Refusal :=
  .next (dispatchCode 0x14#8 (requestCodeReply 0x14#8) s)

/-- PROTO_SetSpecificSmartLeds_2, code 0x15, R206. -/
def execProtoSetSpecificSmartLeds2 (s : State) : Host.Outcome State Fault Refusal :=
  .next (dispatchCode 0x15#8 (requestCodeReply 0x15#8) s)

/-- PROTO_SetSpecificSmartLeds_3, code 0x16, R206. -/
def execProtoSetSpecificSmartLeds3 (s : State) : Host.Outcome State Fault Refusal :=
  .next (dispatchCode 0x16#8 (requestCodeReply 0x16#8) s)

/-- PROTO_GetKeys, code 0x20, R207. -/
def execProtoGetKeys (s : State) : Host.Outcome State Fault Refusal :=
  .next (dispatchCode 0x20#8 (fun _ p => emitEvents [.keys (keys p)]) s)

/-- PROTO_GetSliders, code 0x21, R208. -/
def execProtoGetSliders (s : State) : Host.Outcome State Fault Refusal :=
  .next (dispatchCode 0x21#8 (fun _ p => emitEvents [.sliders (sliders p)]) s)

/-- PROTO_GetEncoders, code 0x22, R209. -/
def execProtoGetEncoders (s : State) : Host.Outcome State Fault Refusal :=
  .next (dispatchCode 0x22#8 (fun _ p => emitEvents [.encoders (encoders p)]) s)

/-- PROTO_GetSensors, code 0x23, R210. -/
def execProtoGetSensors (s : State) : Host.Outcome State Fault Refusal :=
  .next (dispatchCode 0x23#8 (fun _ p => emitEvents [.sensors (sensors p)]) s)

/-- PROTO_GetStikyKeys, code 0x24, R211. -/
def execProtoGetStikyKeys (s : State) : Host.Outcome State Fault Refusal :=
  .next (dispatchCode 0x24#8 (fun _ p => emitEvents [.stikyKeys (stikyKeys p)]) s)

/-- PROTO_GetState, code 0x2F, R212. -/
def execProtoGetState (s : State) : Host.Outcome State Fault Refusal :=
  .next (dispatchCode 0x2F#8 (fun _ p => emitEvents [stateEvent p]) s)

/-- PROTO_SuccessTicket, code 0x80, R202. -/
def execProtoSuccessTicket (s : State) : Host.Outcome State Fault Refusal :=
  .next (dispatchReplyCode (ticketReply 0x80#8 .ticketSuccess) s)

/-- PROTO_UnknownTicket, code 0x81, R202. -/
def execProtoUnknownTicket (s : State) : Host.Outcome State Fault Refusal :=
  .next (dispatchReplyCode (ticketReply 0x81#8 .ticketUnknown) s)

end Sys2Proof.Machine
end

