-- ==== Sys2Proof/Machine/Wire.lean ====
section
/-! DEFINITION. The wire bytes (30_encoding.md sections 1 and 2). A wire byte that arrives on the serial line is
handed to the block by the host with one RX_PUSH, whatever its class (R151, R260; log entry 5); what its class does
is seen by the scans of PARSE (R153, R156) and by the tag checks of the decoder (R133). -/

namespace Sys2Proof.Machine

/-- A received wire byte reaches `rx_buf` (R260: one RX_PUSH per received byte). -/
def receiveByte (b : Byte) (s : State) : State := rxPushOp b s

/-- WIRE_START, R68, R61: tag nibble 0x8. -/
def execWireStart (address : Nibble) (s : State) : Host.Outcome State Fault Refusal :=
  .next (receiveByte (byteOf 0x8#4 address) s)

/-- WIRE_CMD_HI, R69, R61: tag nibble 0x4. -/
def execWireCmdHi (value : Nibble) (s : State) : Host.Outcome State Fault Refusal :=
  .next (receiveByte (byteOf 0x4#4 value) s)

/-- WIRE_CMD_LO, R69, R61: tag nibble 0x0. -/
def execWireCmdLo (value : Nibble) (s : State) : Host.Outcome State Fault Refusal :=
  .next (receiveByte (byteOf 0x0#4 value) s)

/-- WIRE_DATA_HI, R69, R61: tag nibble 0x5. -/
def execWireDataHi (value : Nibble) (s : State) : Host.Outcome State Fault Refusal :=
  .next (receiveByte (byteOf 0x5#4 value) s)

/-- WIRE_DATA_LO, R69, R61: tag nibble 0x1. -/
def execWireDataLo (value : Nibble) (s : State) : Host.Outcome State Fault Refusal :=
  .next (receiveByte (byteOf 0x1#4 value) s)

/-- WIRE_CK_HI, R69, R61: tag nibble 0x6. -/
def execWireCkHi (value : Nibble) (s : State) : Host.Outcome State Fault Refusal :=
  .next (receiveByte (byteOf 0x6#4 value) s)

/-- WIRE_CK_LO_END, R69, R61: tag nibble 0x2. -/
def execWireCkLoEnd (value : Nibble) (s : State) : Host.Outcome State Fault Refusal :=
  .next (receiveByte (byteOf 0x2#4 value) s)

/-- WIRE_UNASSIGNED_3, R64, R61: tag nibble 0x3. -/
def execWireUnassigned3 (value : Nibble) (s : State) : Host.Outcome State Fault Refusal :=
  .next (receiveByte (byteOf 0x3#4 value) s)

/-- WIRE_UNASSIGNED_7, R64, R61: tag nibble 0x7. -/
def execWireUnassigned7 (value : Nibble) (s : State) : Host.Outcome State Fault Refusal :=
  .next (receiveByte (byteOf 0x7#4 value) s)

/-- WIRE_UNASSIGNED_9, R64, R61: tag nibble 0x9. -/
def execWireUnassigned9 (value : Nibble) (s : State) : Host.Outcome State Fault Refusal :=
  .next (receiveByte (byteOf 0x9#4 value) s)

/-- WIRE_UNASSIGNED_A, R64, R61: tag nibble 0xA. -/
def execWireUnassignedA (value : Nibble) (s : State) : Host.Outcome State Fault Refusal :=
  .next (receiveByte (byteOf 0xA#4 value) s)

/-- WIRE_UNASSIGNED_B, R64, R61: tag nibble 0xB. -/
def execWireUnassignedB (value : Nibble) (s : State) : Host.Outcome State Fault Refusal :=
  .next (receiveByte (byteOf 0xB#4 value) s)

/-- WIRE_UNASSIGNED_C, R64, R61: tag nibble 0xC. -/
def execWireUnassignedC (value : Nibble) (s : State) : Host.Outcome State Fault Refusal :=
  .next (receiveByte (byteOf 0xC#4 value) s)

/-- WIRE_UNASSIGNED_D, R64, R61: tag nibble 0xD. -/
def execWireUnassignedD (value : Nibble) (s : State) : Host.Outcome State Fault Refusal :=
  .next (receiveByte (byteOf 0xD#4 value) s)

/-- WIRE_UNASSIGNED_E, R64, R61: tag nibble 0xE. -/
def execWireUnassignedE (value : Nibble) (s : State) : Host.Outcome State Fault Refusal :=
  .next (receiveByte (byteOf 0xE#4 value) s)

/-- WIRE_UNASSIGNED_F, R64, R61: tag nibble 0xF. -/
def execWireUnassignedF (value : Nibble) (s : State) : Host.Outcome State Fault Refusal :=
  .next (receiveByte (byteOf 0xF#4 value) s)

end Sys2Proof.Machine
end

