-- ==== Sys2Proof/Machine/Dispatch.lean ====
section
/-! DEFINITION. One arm per instruction, each a direct call of its meaning. -/

namespace Sys2Proof.Machine

def exec (i : Instr) (s : State) : Host.Outcome State Fault Refusal :=
  match i with
  | .nop arg => Sys2Proof.Machine.execNop arg s
  | .encStart arg => Sys2Proof.Machine.execEncStart arg s
  | .encCmd arg => Sys2Proof.Machine.execEncCmd arg s
  | .encData arg => Sys2Proof.Machine.execEncData arg s
  | .encEnd arg => Sys2Proof.Machine.execEncEnd arg s
  | .encAbort arg => Sys2Proof.Machine.execEncAbort arg s
  | .reserved6 arg => Sys2Proof.Machine.execReserved6 arg s
  | .reserved7 arg => Sys2Proof.Machine.execReserved7 arg s
  | .rxPush arg => Sys2Proof.Machine.execRxPush arg s
  | .parse arg => Sys2Proof.Machine.execParse arg s
  | .rxFlush arg => Sys2Proof.Machine.execRxFlush arg s
  | .reservedB arg => Sys2Proof.Machine.execReservedB arg s
  | .reservedC arg => Sys2Proof.Machine.execReservedC arg s
  | .reservedD arg => Sys2Proof.Machine.execReservedD arg s
  | .statRead arg => Sys2Proof.Machine.execStatRead arg s
  | .statClr arg => Sys2Proof.Machine.execStatClr arg s
  | .wireStart address => Sys2Proof.Machine.execWireStart address s
  | .wireCmdHi value => Sys2Proof.Machine.execWireCmdHi value s
  | .wireCmdLo value => Sys2Proof.Machine.execWireCmdLo value s
  | .wireDataHi value => Sys2Proof.Machine.execWireDataHi value s
  | .wireDataLo value => Sys2Proof.Machine.execWireDataLo value s
  | .wireCkHi value => Sys2Proof.Machine.execWireCkHi value s
  | .wireCkLoEnd value => Sys2Proof.Machine.execWireCkLoEnd value s
  | .wireUnassigned3 value => Sys2Proof.Machine.execWireUnassigned3 value s
  | .wireUnassigned7 value => Sys2Proof.Machine.execWireUnassigned7 value s
  | .wireUnassigned9 value => Sys2Proof.Machine.execWireUnassigned9 value s
  | .wireUnassignedA value => Sys2Proof.Machine.execWireUnassignedA value s
  | .wireUnassignedB value => Sys2Proof.Machine.execWireUnassignedB value s
  | .wireUnassignedC value => Sys2Proof.Machine.execWireUnassignedC value s
  | .wireUnassignedD value => Sys2Proof.Machine.execWireUnassignedD value s
  | .wireUnassignedE value => Sys2Proof.Machine.execWireUnassignedE value s
  | .wireUnassignedF value => Sys2Proof.Machine.execWireUnassignedF value s
  | .protoHello => Sys2Proof.Machine.execProtoHello s
  | .protoSetBaudrate => Sys2Proof.Machine.execProtoSetBaudrate s
  | .protoSetLeds => Sys2Proof.Machine.execProtoSetLeds s
  | .protoSetSmartLeds => Sys2Proof.Machine.execProtoSetSmartLeds s
  | .protoSetText => Sys2Proof.Machine.execProtoSetText s
  | .protoSetRelay => Sys2Proof.Machine.execProtoSetRelay s
  | .protoSetSpecificSmartLeds1 => Sys2Proof.Machine.execProtoSetSpecificSmartLeds1 s
  | .protoSetSpecificSmartLeds2 => Sys2Proof.Machine.execProtoSetSpecificSmartLeds2 s
  | .protoSetSpecificSmartLeds3 => Sys2Proof.Machine.execProtoSetSpecificSmartLeds3 s
  | .protoGetKeys => Sys2Proof.Machine.execProtoGetKeys s
  | .protoGetSliders => Sys2Proof.Machine.execProtoGetSliders s
  | .protoGetEncoders => Sys2Proof.Machine.execProtoGetEncoders s
  | .protoGetSensors => Sys2Proof.Machine.execProtoGetSensors s
  | .protoGetStikyKeys => Sys2Proof.Machine.execProtoGetStikyKeys s
  | .protoGetState => Sys2Proof.Machine.execProtoGetState s
  | .protoSuccessTicket => Sys2Proof.Machine.execProtoSuccessTicket s
  | .protoUnknownTicket => Sys2Proof.Machine.execProtoUnknownTicket s

end Sys2Proof.Machine
end

