-- ==== Sys2Proof/Machine/Arrival.lean ====
section
/-! DEFINITION. What one step takes (R22, R50): the frame the host has in hand first, then the next thing at the
inputs; and the host's calls that are no instruction of the table. -/

namespace Sys2Proof.Machine

/-- The command field of the frame in hand (R215; R264 for a request). -/
def msgCommand : HostMsg → Byte
  | .request _ c _ _ => c
  | .reply _ c _ => c

/-- The instruction that runs next, if the next thing is one: the command code of the frame in hand, or the command
word or wire byte that waits first at the inputs. -/
def fetch (s : State) : Option Instr :=
  match s.host.msg with
  | some m => decodeProto (msgCommand m)
  | none =>
    match s.inputs with
    | .word cw :: _ => some (decodeCmd cw)
    | .wire b :: _ => some (decodeWire b)
    | _ => none

/-- The state an instruction runs in: a frame in hand stays for its dispatch, an input is taken off the queue. -/
def takeNext (s : State) : State :=
  match s.host.msg with
  | some _ => s
  | none => setInputs s.inputs.tail s

/-- An input that is no instruction: reset (R280) and the calls and line events of the host. -/
def hostInput (inp : Input) (s : State) : State :=
  match inp with
  | .reset => blockReset s
  | .word _ => s
  | .wire _ => s
  | .openCall => openCallOp s
  | .openAnswer r => openAnswerOp r s
  | .close => closeOp s
  | .execute a c p line => executeCall a c p line s
  | .setBaudrate k line => setBaudrateCall k line s
  | .setSmartLed a v group r g b line => setSmartLedCall a v group r g b line s
  | .poll bytes ms => pollOp bytes ms s

/-- What happens when the next thing is no instruction: a frame with a code outside R201 (R213), a host input, or
nothing at all: the block is ready and waits (R249). -/
def noInstr (s : State) : State :=
  match s.host.msg with
  | some _ => dispatchUnlisted s
  | none =>
    match s.inputs with
    | [] => s
    | inp :: rest => hostInput inp (setInputs rest s)

/-- The host writes the TX bytes emitted since the stream had `sent` bytes to the line (R42, R260: every TX byte), when
the line is open (log entry 29). The line's rate stays as it was even when these bytes make up a SetBaudrate frame: only a
request that the host wrote counts as the SetBaudrate request of R284 (DESIGN CHOICE, log entry 31). -/
def writeTx (sent : Nat) (s : State) : State :=
  match s.host.conn with
  | .closed => s
  | .opening => s
  | .opened => setHost { s.host with lineOut := s.host.lineOut ++ s.tx.drop sent } s

/-- What a step does after the instruction it took in state `s`: the TX bytes of a word from the inputs are written to
the line. A request in hand has written its own bytes (R266). -/
def afterInstr (s : State) (o : Host.Outcome State Fault Refusal) : Host.Outcome State Fault Refusal :=
  match s.host.msg, o with
  | some _, o => o
  | none, .next t => .next (writeTx s.tx.length t)
  | none, .fault f => .fault f
  | none, .refused r => .refused r

/-- A byte of the table's PROTO8 format in the host's hand, with operands of zeros: address 0, empty payload, a line
that opens and writes everything. A request-only code is a request, any other a reply (log entry 17). -/
def messageOfCode (c : Byte) : HostMsg :=
  if c.toNat < 0x20 then .request 0#4 c [] { opens := .granted, written := none } else .reply 0#4 c []

/-- The state in which the table word `w` of `nbits` bits is what the next step takes (log entries 13, 14, 17). -/
def placeWord (s : State) (nbits w : Nat) : State :=
  if nbits = 8 then
    match decodeProto (BitVec.ofNat 8 w) with
    | some _ => setHost { s.host with msg := some (messageOfCode (BitVec.ofNat 8 w)) } s
    | none => setInputs (.wire (BitVec.ofNat 8 w) :: s.inputs) (dropMsg s)
  else setInputs (.word (BitVec.ofNat 12 w) :: s.inputs) (dropMsg s)

end Sys2Proof.Machine
end

