-- ==== Sys2Proof/Machine/Step.lean ====
section
/-! DEFINITION. One step: the next instruction runs, or what is no instruction is done. -/

namespace Sys2Proof.Machine

/-- One step of the machine. It always answers a next state (R31, R240). -/
def step (s : State) : Host.Outcome State Fault Refusal :=
  match fetch s with
  | some i => afterInstr s (exec i (takeNext s))
  | none => .next (noInstr s)

/-- The state whose next step runs the table word `w`. -/
def State.withFetchWord (s : State) (nbits w : Nat) : State := placeWord s nbits w

end Sys2Proof.Machine
end

