-- ==== Sys2Proof/Machine/Assembler.lean ====
section
/-! DEFINITION. The assembler's words and the pseudo-instructions (R76, R77), and running a list of operations with
the response of each (R74). -/

namespace Sys2Proof.Machine

/-- The mnemonics of R71 with their operation codes, and whether the line takes an operand. The reserved codes have
no mnemonic (R72). -/
def asmTable : List (String × Nibble × Bool) :=
  [("NOP", 0x0#4, false), ("ENC_START", 0x1#4, true), ("ENC_CMD", 0x2#4, true), ("ENC_DATA", 0x3#4, true),
   ("ENC_END", 0x4#4, false), ("ENC_ABORT", 0x5#4, false), ("RX_PUSH", 0x8#4, true), ("PARSE", 0x9#4, false),
   ("RX_FLUSH", 0xA#4, false), ("STAT_READ", 0xE#4, false), ("STAT_CLR", 0xF#4, true)]

/-- The word of a line, R76: the operand is 0..255, and a line without an operand has argument 0x00. A written operand
of ENC_START or STAT_CLR keeps its ignored bits (DESIGN CHOICE, log entry 27). -/
def assemble (mnemonic : String) (operand : Option Nat) : Option CmdWord :=
  match asmTable.find? (fun row => row.1 == mnemonic), operand with
  | some (_, op, true), some n => if n < 256 then some (cmdWord op (BitVec.ofNat 8 n)) else none
  | some (_, op, false), none => some (cmdWord op 0x00#8)
  | some (_, _, true), none => none
  | some (_, _, false), some _ => none
  | none, _ => none

/-! ### The text of a line (R76) -/

/-- The value of a digit in `base`; hexadecimal letters of either case (log entry 26). -/
def digitValue (base : Nat) (c : Char) : Option Nat :=
  let n := c.toNat
  let v :=
    if 48 ≤ n ∧ n ≤ 57 then n - 48
    else if 65 ≤ n ∧ n ≤ 70 then n - 55
    else if 97 ≤ n ∧ n ≤ 102 then n - 87
    else base
  if v < base then some v else none

/-- Digits in `base`, the most significant first, behind the value `acc`. -/
def digitsValue (base : Nat) : Nat → List Char → Option Nat
  | acc, [] => some acc
  | acc, c :: rest =>
    match digitValue base c with
    | none => none
    | some d => digitsValue base (base * acc + d) rest

/-- A number of R76: `0x` and hexadecimal digits, or decimal digits. -/
def numberOf : List Char → Option Nat
  | [] => none
  | ['0', 'x'] => none
  | '0' :: 'x' :: digits => digitsValue 16 0 digits
  | digits => digitsValue 10 0 digits

/-- The words of a line, separated by spaces; `word` is the one being read, its last character first. -/
def wordsOf (word : List Char) : List Char → List (List Char)
  | [] => if word = [] then [] else [word.reverse]
  | c :: rest =>
    if c = ' ' then (if word = [] then wordsOf [] rest else word.reverse :: wordsOf [] rest)
    else wordsOf (c :: word) rest

/-- The command word of a line of text, R76: what stands behind `;` is a comment. -/
def assembleLine (line : String) : Option CmdWord :=
  match wordsOf [] (line.toList.takeWhile (· != ';')) with
  | [mnemonic] => assemble (String.ofList mnemonic) none
  | [mnemonic, operand] =>
    match numberOf operand with
    | none => none
    | some n => assemble (String.ofList mnemonic) (some n)
  | _ => none

/-! ### Pseudo-instructions (R77) and programs -/

/-- `ENC_FRAME a, c, [p0, ..., pn-1]`, R77. -/
def encFrame (a : Nibble) (c : Byte) (p : List Byte) : List Instr :=
  Instr.encStart (a.setWidth 8) :: Instr.encCmd c :: (p.map Instr.encData ++ [Instr.encEnd 0x00#8])

/-- `RX_PUSHN [b0, ..., bm-1]`, R77. -/
def rxPushN (bytes : List Byte) : List Instr := bytes.map Instr.rxPush

/-- `STAT_CLR_ALL`, R77. -/
def statClrAll : List Instr := [Instr.statClr 0x07#8]

/-- Run operations in order: the state after them and the response of each. -/
def runOps : List Instr → State → Host.Outcome (State × List (Option Response)) Fault Refusal
  | [], s => .next (s, [])
  | i :: rest, s =>
    match exec i s with
    | .fault f => .fault f
    | .refused r => .refused r
    | .next t =>
      match runOps rest t with
      | .fault f => .fault f
      | .refused r => .refused r
      | .next (u, answers) => .next (u, t.resp :: answers)

end Sys2Proof.Machine
end

