-- ==== Sys2Proof/Safety.lean ====
section
/-! DEFINITION. What counts as a safe state and a safe run, in the terms the statements use. No step stops, so safety
is three invariants: the receive buffer is within its bound, the accumulator is the checksum of the open frame, and
a pending exchange is one that may be pending. -/

namespace Sys2Proof.Machine

/-- R25: the length of `rx_buf` never exceeds `RX_CAP`. -/
def RxBounded (s : State) : Prop :=
  match s.cfg.rxCap with
  | .unbounded => True
  | .bytes n => s.rxBuf.length ≤ n

/-- R24: while a frame is open the TX stream ends in the bytes emitted since the last ENC_START, which are the head
of a frame (R65), and `enc_acc` is their `Sum8`. -/
def FrameSummed (s : State) : Prop :=
  match s.encPhase with
  | .idle => True
  | .needCmd => ∃ sent a, s.tx = sent ++ [startByte a] ∧ s.encAcc = sum8 [startByte a]
  | .body => ∃ sent a c p, s.tx = sent ++ frameBody a c p ∧ s.encAcc = sum8 (frameBody a c p)

/-- R264 to R267, R273: a request is pending only on an open line, at an address that is not silent, and before its
timeout. -/
def PendingSound (s : State) : Prop :=
  match s.host.pending with
  | none => True
  | some q => s.host.conn = .opened ∧ isSilent q.address = false ∧ q.elapsedMs < requestTimeoutMs

/-- The table of R23: the phase after an encoder operation; every other pairing is rejected and keeps the phase. -/
def phaseAfter (i : Instr) (p : EncPhase) : EncPhase :=
  match i, p with
  | .encStart _, .idle => .needCmd
  | .encCmd _, .needCmd => .body
  | .encData _, .body => .body
  | .encEnd _, .body => .idle
  | .encAbort _, _ => .idle
  | _, q => q

/-- The outcomes that end an exchange, as the host's events show them (R269 to R275): a terminal parse error, a
timeout, `Cancelled`. (A `Success` shows as the reply in hand.) -/
def isTerminal : Event → Bool
  | .parseError .frameSkipped _ => false
  | .parseError _ _ => true
  | .timeout _ _ _ => true
  | .cancelled => true
  | _ => false

/-- 1 when the frame in hand is a reply. -/
def replyInHand (s : State) : Nat :=
  match s.host.msg with
  | some (.reply _ _ _) => 1
  | _ => 0

/-- No RX_PUSH of `n` more bytes meets a full buffer. -/
def Room (n : Nat) (s : State) : Prop :=
  match s.cfg.rxCap with
  | .unbounded => True
  | .bytes cap => s.rxBuf.length + n ≤ cap

/-- The rows of R201 whose direction is a request, each with its code. -/
def requestRows : List (Instr × Byte) :=
  [(.protoHello, 0x00#8), (.protoSetBaudrate, 0x01#8), (.protoSetLeds, 0x10#8), (.protoSetSmartLeds, 0x11#8),
    (.protoSetText, 0x12#8), (.protoSetRelay, 0x13#8), (.protoSetSpecificSmartLeds1, 0x14#8),
    (.protoSetSpecificSmartLeds2, 0x15#8), (.protoSetSpecificSmartLeds3, 0x16#8), (.protoGetKeys, 0x20#8),
    (.protoGetSliders, 0x21#8), (.protoGetEncoders, 0x22#8), (.protoGetSensors, 0x23#8), (.protoGetStikyKeys, 0x24#8),
    (.protoGetState, 0x2F#8)]

/-- A frame that passes the check of the baud index (R204): a SetBaudrate payload of one byte is an index 0..7. -/
def IndexInTable (c : Byte) (p : List Byte) : Prop := ∀ k : Byte, c = 0x01#8 → p = [k] → k.toNat < 8

/-- The line writes every byte of a frame with payload `p` (R266; a report at or above the length is log entry 22). -/
def WritesWhole (p : List Byte) (line : LineReport) : Prop := ∀ n, line.written = some n → 2 * p.length + 5 ≤ n

/-- The host when an exchange has its line open (R265): as it was on an open line, otherwise just opened at 9600 baud
with the notices `ns` (log entry 8). -/
def openedHost (h : HostState) (ns : List Notice) : HostState :=
  if h.conn = .opened then h
  else { h with
    conn := .opened, lineRate := .atOpen, events := h.events ++ ns.map Event.notice, draws := h.draws + 1 }

/-- The bits of an argument that matter to its operation, R71 and R73. -/
def usedBits (op : Nibble) : Byte :=
  if op = 0x1#4 then 0x0F#8
  else if op = 0x2#4 ∨ op = 0x3#4 ∨ op = 0x8#4 then 0xFF#8
  else if op = 0xF#4 then 0x07#8
  else 0x00#8

end Sys2Proof.Machine
end

