-- ==== Sys2Proof/Certificates/Slice0/Obligations.lean ====
section
/-! DEFINITION. The statements for the provers. Each names the rule of spec/ it formalises; where it rests on an
inference the spec marks as its own, or on a choice of this model, its docstring says so. -/

open Sys2Proof Sys2Proof.Machine

/-! ### Encoding -/

/-- Every instruction of the table, with every operand value, is read back from its own word. -/
def Obligations.EncodedWordsDecodeBack : Prop :=
  ∀ i : Instr, decode (encode i).1 (encode i).2 = .ok i

/-- R31, R70, R71: every 12-bit word is an operation, it is the word of that operation and of no other, and it has a
result with one response. -/
def Obligations.EveryCommandWordHasAResult : Prop :=
  ∀ cw : CmdWord, ∃ i, decode .cw12 cw.toNat = .ok i ∧ encode i = (.cw12, cw.toNat) ∧
    ∀ s, ∃ t, exec i s = .next t ∧ t.resp.isSome = true

/-- A few words written out from the encoding tables R71, R61 and R201. -/
def Obligations.WordsSpelledOut : Prop :=
  decode .cw12 0b000100000101 = .ok (.encStart 0x05#8) ∧
  decode .cw12 0b001000010011 = .ok (.encCmd 0x13#8) ∧
  decode .cw12 0b100010000001 = .ok (.rxPush 0x81#8) ∧
  decode .cw12 0b100100000000 = .ok (.parse 0x00#8) ∧
  decode .cw12 0b101111110000 = .ok (.reservedB 0xF0#8) ∧
  decode .cw12 0b111100000111 = .ok (.statClr 0x07#8) ∧
  decode .wire8 0b10001010 = .ok (.wireStart 0xA#4) ∧
  decode .wire8 0b01101100 = .ok (.wireCkHi 0xC#4) ∧
  decode .wire8 0b00100001 = .ok (.wireCkLoEnd 0x1#4) ∧
  decode .wire8 0b10010101 = .ok (.wireUnassigned9 0x5#4) ∧
  decode .proto8 0b00101111 = .ok .protoGetState ∧
  decode .proto8 0b10000001 = .ok .protoUnknownTicket

/-- R73: two command words that differ only in ignored bits behave identically. -/
def Obligations.IgnoredBitsDoNotMatter : Prop :=
  ∀ (x y : CmdWord) (i j : Instr) (s : State), opField x = opField y →
    argField x &&& usedBits (opField x) = argField y &&& usedBits (opField y) →
    decode .cw12 x.toNat = .ok i → decode .cw12 y.toNat = .ok j → exec i s = exec j s

/-! ### The encoder's operations -/

/-- R105, with R111: ENC_START opens a frame in IDLE and is rejected otherwise. -/
def Obligations.EncStartOpensAFrame : Prop :=
  ∀ (s : State) (arg : Byte),
    decode .cw12 (0x100 + arg.toNat) = .ok (.encStart arg) ∧
    (s.encPhase = .idle →
      exec (.encStart arg) s = .next { s with
        tx := s.tx ++ [0x80#8 ||| (arg &&& 0x0F#8)]
        encAcc := 0x80#8 ||| (arg &&& 0x0F#8)
        encPhase := .needCmd
        resp := some ⟨.ok, if arg.toNat % 16 = 0 ∨ arg.toNat % 16 = 15 then 0x01#8 else 0x00#8, none⟩ }) ∧
    (s.encPhase ≠ .idle →
      exec (.encStart arg) s = .next { s with stEncSeq := true, resp := some ⟨.seq, 0x00#8, none⟩ })

/-- R106: ENC_CMD emits the command pair `0100vvvv 0000vvvv` and adds both bytes to the accumulator. -/
def Obligations.EncCmdEmitsTheCommandPair : Prop :=
  ∀ (s : State) (c : Byte),
    decode .cw12 (0x200 + c.toNat) = .ok (.encCmd c) ∧
    (s.encPhase = .needCmd →
      exec (.encCmd c) s = .next { s with
        tx := s.tx ++ [0x40#8 ||| c >>> 4, 0x00#8 ||| (c &&& 0x0F#8)]
        encAcc := s.encAcc + (0x40#8 ||| c >>> 4) + (0x00#8 ||| (c &&& 0x0F#8))
        encPhase := .body
        resp := some ⟨.ok, 0x00#8, none⟩ }) ∧
    (s.encPhase ≠ .needCmd →
      exec (.encCmd c) s = .next { s with stEncSeq := true, resp := some ⟨.seq, 0x00#8, none⟩ })

/-- R107: ENC_DATA emits the data pair `0101vvvv 0001vvvv`, adds both bytes, and the phase stays BODY. -/
def Obligations.EncDataEmitsADataPair : Prop :=
  ∀ (s : State) (d : Byte),
    decode .cw12 (0x300 + d.toNat) = .ok (.encData d) ∧
    (s.encPhase = .body →
      exec (.encData d) s = .next { s with
        tx := s.tx ++ [0x50#8 ||| d >>> 4, 0x10#8 ||| (d &&& 0x0F#8)]
        encAcc := s.encAcc + (0x50#8 ||| d >>> 4) + (0x10#8 ||| (d &&& 0x0F#8))
        resp := some ⟨.ok, 0x00#8, none⟩ }) ∧
    (s.encPhase ≠ .body →
      exec (.encData d) s = .next { s with stEncSeq := true, resp := some ⟨.seq, 0x00#8, none⟩ })

/-- R108: ENC_END emits the checksum pair `0110vvvv 0010vvvv` of the accumulator, which stays, and closes the frame,
whatever its argument. -/
def Obligations.EncEndClosesTheFrame : Prop :=
  ∀ (s : State) (arg : Byte),
    decode .cw12 (0x400 + arg.toNat) = .ok (.encEnd arg) ∧
    (s.encPhase = .body →
      exec (.encEnd arg) s = .next { s with
        tx := s.tx ++ [0x60#8 ||| s.encAcc >>> 4, 0x20#8 ||| (s.encAcc &&& 0x0F#8)]
        encPhase := .idle
        resp := some ⟨.ok, 0x00#8, none⟩ }) ∧
    (s.encPhase ≠ .body →
      exec (.encEnd arg) s = .next { s with stEncSeq := true, resp := some ⟨.seq, 0x00#8, none⟩ })

/-- R109: ENC_ABORT goes to IDLE from every phase, emits nothing and leaves the accumulator. -/
def Obligations.EncAbortGoesIdle : Prop :=
  ∀ (s : State) (arg : Byte),
    decode .cw12 (0x500 + arg.toNat) = .ok (.encAbort arg) ∧
    exec (.encAbort arg) s = .next { s with encPhase := .idle, resp := some ⟨.ok, 0x00#8, none⟩ }

/-- R23: the phase after an operation of the command port is the one of R23's table. -/
def Obligations.EncoderPhaseTable : Prop :=
  ∀ (i : Instr) (s t : State), (encode i).1 = .cw12 → exec i s = .next t →
    t.encPhase = phaseAfter i s.encPhase

/-- The spec's own inference (40_encoder.md section 3, "From enc_phase = IDLE, the operation sequence ... emits exactly
Encode(a, c, p)"): ENC_FRAME emits the frame, every answer is OK, and the encoder ends idle with the checksum. -/
def Obligations.EncFrameEmitsTheFrame : Prop :=
  ∀ (s : State) (a : Nibble) (c : Byte) (p : List Byte), s.encPhase = .idle →
    ∃ answers, runOps (encFrame a c p) s = .next
        ({ s with
            tx := s.tx ++ encodeFrame a c p
            encAcc := sum8 ((encodeFrame a c p).take (2 * p.length + 3))
            encPhase := .idle
            resp := some ⟨.ok, 0x00#8, none⟩ }, answers) ∧
      answers.length = p.length + 3 ∧ ∀ r ∈ answers, ∃ d, r = some ⟨.ok, d, none⟩

/-- Encoder and synchronizer together (40_encoder.md, 42_synchronizer.md): a frame emitted and pushed back is parsed to
what was encoded, under either policy. -/
def Obligations.EmittedFrameParsesBack : Prop :=
  ∀ (s : State) (a : Nibble) (c : Byte) (p : List Byte) (arg : Byte),
    s.encPhase = .idle → s.rxBuf = [] → Room (2 * p.length + 5) s →
    ∃ t answers, runOps (encFrame a c p ++ rxPushN (encodeFrame a c p) ++ [.parse arg]) s = .next (t, answers) ∧
      t.tx = s.tx ++ encodeFrame a c p ∧ t.rxBuf = [] ∧
      t.resp = some ⟨.ok, 0x01#8, some (.success a c p)⟩

/-- R65, R66: the layout of an encoded frame, byte by byte, and its odd length of at least 5. -/
def Obligations.FrameLayout : Prop :=
  ∀ (a : Nibble) (c : Byte) (p : List Byte),
    let f := encodeFrame a c p
    let k := sum8 (f.take (2 * p.length + 3))
    f.length = 2 * p.length + 5 ∧ f.length % 2 = 1 ∧ 5 ≤ f.length ∧
    f[0]? = some (0x80#8 ||| a.setWidth 8) ∧
    f[1]? = some (0x40#8 ||| c >>> 4) ∧
    f[2]? = some (0x00#8 ||| (c &&& 0x0F#8)) ∧
    (∀ (j : Nat) (d : Byte), p[j]? = some d →
      f[3 + 2 * j]? = some (0x50#8 ||| d >>> 4) ∧
      f[4 + 2 * j]? = some (0x10#8 ||| (d &&& 0x0F#8))) ∧
    f[2 * p.length + 3]? = some (0x60#8 ||| k >>> 4) ∧
    f[2 * p.length + 4]? = some (0x20#8 ||| (k &&& 0x0F#8))

/-- The spec's own inference (30_encoding.md section 2, "the start byte is the only byte with tag nibble 0x8 and the last
byte is the only byte with tag nibble 0x2"), in an encoded frame. -/
def Obligations.FrameBoundariesAreUnique : Prop :=
  ∀ (a : Nibble) (c : Byte) (p : List Byte) (j : Nat) (b : Byte), (encodeFrame a c p)[j]? = some b →
    (hi4 b = 0x8#4 ↔ j = 0) ∧ (hi4 b = 0x2#4 ↔ j = 2 * p.length + 4)

/-! ### The decoder -/

/-- R131: the size check comes first and alone gives `SizeError`, with the bytes unchanged. -/
def Obligations.SizeErrorExactlyOnBadLength : Prop :=
  ∀ (policy : CksumPolicy) (f : List Byte),
    ((f.length < 5 ∨ f.length % 2 = 0) → decodeFrame policy f = .sizeError f) ∧
    (¬ (f.length < 5 ∨ f.length % 2 = 0) → ∀ g, decodeFrame policy f ≠ .sizeError g)

/-- The spec's own inference (41_decoder.md section 2, "Round trip"): decoding an encoded frame gives back its address,
command and payload, of any length, under either policy. -/
def Obligations.DecodeOfEncodeIsSuccess : Prop :=
  ∀ (policy : CksumPolicy) (a : Nibble) (c : Byte) (p : List Byte),
    decodeFrame policy (encodeFrame a c p) = .success a c p

/-- R130, R132 to R139 read as one: `Success` is given exactly for a byte with the address in its low nibble, a
command pair, the payload's data pairs and a checksum pair, whose checksum is right when the build enforces it. -/
def Obligations.SuccessExactlyOnTaggedFrames : Prop :=
  ∀ (policy : CksumPolicy) (f : List Byte) (a : Nibble) (c : Byte) (p : List Byte),
    decodeFrame policy f = .success a c p ↔
      ∃ (tag : Nibble) (k : Byte),
        f = (byteOf tag a ::
              ([0x40#8 ||| c >>> 4, 0x00#8 ||| (c &&& 0x0F#8)] ++
                p.flatMap (fun d : Byte => [0x50#8 ||| d >>> 4, 0x10#8 ||| (d &&& 0x0F#8)]))) ++
              [0x60#8 ||| k >>> 4, 0x20#8 ||| (k &&& 0x0F#8)] ∧
        (policy = .enforce → k = sum8 (f.take (f.length - 2)))

/-- R138: under PERMISSIVE no mismatch is reported; under ENFORCE a frame that passes every tag check and whose
checksum differs from the expected one gives `ChecksumError` with the candidate's bytes. -/
def Obligations.ChecksumPolicyDecidesLast : Prop :=
  ∀ (f : List Byte),
    (∀ g, decodeFrame .permissive f ≠ .checksumError g) ∧
    (∀ a c p, decodeFrame .permissive f = .success a c p →
      decodeFrame .enforce f =
        if sum8 (f.take (f.length - 2)) = byteOf (lo4 (f.getD (f.length - 2) 0#8)) (lo4 (f.getD (f.length - 1) 0#8))
        then .success a c p else .checksumError f) ∧
    ((∀ a c p, decodeFrame .permissive f ≠ .success a c p) →
      decodeFrame .enforce f = decodeFrame .permissive f)

/-! ### The synchronizer -/

/-- R151: RX_PUSH appends the byte, or drops it and marks the overflow when the buffer holds `RX_CAP` bytes. -/
def Obligations.RxPushAppendsOrDrops : Prop :=
  ∀ (s : State) (b : Byte),
    decode .cw12 (0x800 + b.toNat) = .ok (.rxPush b) ∧
    (s.cfg.rxCap = .bytes s.rxBuf.length →
      exec (.rxPush b) s = .next { s with stRxOvf := true, resp := some ⟨.full, 0x00#8, none⟩ }) ∧
    (s.cfg.rxCap ≠ .bytes s.rxBuf.length →
      exec (.rxPush b) s = .next { s with rxBuf := s.rxBuf ++ [b], resp := some ⟨.ok, 0x00#8, none⟩ })

/-- R160, with R153 to R158: the four cases of one PARSE, whatever its argument. -/
def Obligations.ParseCases : Prop :=
  ∀ (s : State) (arg : Byte),
    decode .cw12 (0x900 + arg.toNat) = .ok (.parse arg) ∧
    ((∀ b ∈ s.rxBuf, b &&& 0xF0#8 ≠ 0x80#8) →
      exec (.parse arg) s = .next { s with resp := some ⟨.ok, 0x00#8, some .needMoreData⟩ }) ∧
    (∀ (g : List Byte) (b : Byte) (rest : List Byte), s.rxBuf = g ++ b :: rest → g ≠ [] →
      (∀ x ∈ g, x &&& 0xF0#8 ≠ 0x80#8) → b &&& 0xF0#8 = 0x80#8 →
      exec (.parse arg) s = .next { s with rxBuf := b :: rest, resp := some ⟨.ok, 0x02#8, some (.skipped g)⟩ }) ∧
    (∀ (b : Byte) (rest : List Byte), s.rxBuf = b :: rest → b &&& 0xF0#8 = 0x80#8 →
      (∀ x ∈ rest, x &&& 0xF0#8 ≠ 0x20#8) →
      exec (.parse arg) s = .next { s with resp := some ⟨.ok, 0x00#8, some .needMoreData⟩ }) ∧
    (∀ (b : Byte) (m : List Byte) (e : Byte) (rest : List Byte), s.rxBuf = b :: (m ++ e :: rest) →
      b &&& 0xF0#8 = 0x80#8 → (∀ x ∈ m, x &&& 0xF0#8 ≠ 0x20#8) → e &&& 0xF0#8 = 0x20#8 →
      exec (.parse arg) s = .next { s with
        rxBuf := rest
        resp := some ⟨.ok, kindCode (decodeFrame s.cfg.cksumPolicy (b :: (m ++ [e]))),
          some (decodeFrame s.cfg.cksumPolicy (b :: (m ++ [e])))⟩ })

/-- The spec's own inference (42_synchronizer.md section 4, "Every byte ever pushed and not dropped is ... in exactly one
place"), for one PARSE: the buffer is the removed bytes and then the buffer after, and the outcome accounts for the
removed bytes. -/
def Obligations.ParseLosesNoByte : Prop :=
  ∀ (s : State) (arg : Byte), ∃ (t : State) (removed : List Byte) (o : ParseOutcome),
    exec (.parse arg) s = .next t ∧ t.resp = some ⟨.ok, kindCode o, some o⟩ ∧
    s.rxBuf = removed ++ t.rxBuf ∧
    match o with
    | .needMoreData => removed = []
    | .skipped bytes => bytes = removed ∧ removed ≠ [] ∧ (∀ x ∈ removed, hi4 x ≠ 0x8#4) ∧
        ∃ b rest, t.rxBuf = b :: rest ∧ hi4 b = 0x8#4
    | .success _ _ _ => ∃ b m e, removed = b :: (m ++ [e]) ∧ hi4 b = 0x8#4 ∧ hi4 e = 0x2#4 ∧
        (∀ x ∈ m, hi4 x ≠ 0x2#4)
    | .sizeError bytes => bytes = removed ∧ ∃ b m e, removed = b :: (m ++ [e]) ∧ hi4 b = 0x8#4 ∧
        hi4 e = 0x2#4 ∧ (∀ x ∈ m, hi4 x ≠ 0x2#4)
    | .tagError bytes => bytes = removed ∧ ∃ b m e, removed = b :: (m ++ [e]) ∧ hi4 b = 0x8#4 ∧
        hi4 e = 0x2#4 ∧ (∀ x ∈ m, hi4 x ≠ 0x2#4)
    | .checksumError bytes => s.cfg.cksumPolicy = .enforce ∧ bytes = removed ∧
        ∃ b m e, removed = b :: (m ++ [e]) ∧ hi4 b = 0x8#4 ∧ hi4 e = 0x2#4 ∧ (∀ x ∈ m, hi4 x ≠ 0x2#4)

/-- R161: RX_FLUSH empties the buffer and changes nothing else but the response, whatever its argument. -/
def Obligations.RxFlushEmptiesTheBuffer : Prop :=
  ∀ (s : State) (arg : Byte),
    decode .cw12 (0xA00 + arg.toNat) = .ok (.rxFlush arg) ∧
    exec (.rxFlush arg) s = .next { s with rxBuf := [], resp := some ⟨.ok, 0x00#8, none⟩ }

/-- The drain's bound (42_synchronizer.md section 4): over `m` bytes at most `m` outcomes come before `NeedMoreData`,
and after the drain PARSE has nothing more to give. -/
def Obligations.DrainEndsInTime : Prop :=
  ∀ s : State, (drain s).1.length ≤ s.rxBuf.length ∧ parseOutcome (drain s).2 = .needMoreData ∧
    ∀ o ∈ (drain s).1, o ≠ .needMoreData

/-- The spec's own inference (42_synchronizer.md section 4, "Incremental equivalence"): two partitions of one byte
stream, with a drain after each chunk, give the same outcomes in the same order and the same buffer, while `RX_CAP` is
not reached. -/
def Obligations.IncrementalEquivalence : Prop :=
  ∀ (s : State) (xs ys : List (List Byte)), xs ≠ [] → ys ≠ [] → xs.flatten = ys.flatten →
    Room xs.flatten.length s →
    (feed xs s).1 = (feed ys s).1 ∧ (feed xs s).2.rxBuf = (feed ys s).2.rxBuf

/-- The spec's own inference (42_synchronizer.md section 4, "An equivalent streaming form"): byte by byte, PARSE until
`NeedMoreData` gives the outcomes of the HUNT and FRAME machine, and the buffer holds the bytes it holds. -/
def Obligations.StreamingFormAgrees : Prop :=
  ∀ (s : State) (bytes : List Byte), s.rxBuf = [] → Room bytes.length s →
    (feed (bytes.map (fun b => [b])) s).1 = (streamBytes s.cfg.cksumPolicy (.hunt []) bytes).1 ∧
    (feed (bytes.map (fun b => [b])) s).2.rxBuf = heldBytes (streamBytes s.cfg.cksumPolicy (.hunt []) bytes).2

/-! ### Control operations and whole-machine rules -/

/-- R181: NOP answers OK and changes nothing else, whatever its argument. -/
def Obligations.NopChangesNothing : Prop :=
  ∀ (s : State) (arg : Byte),
    decode .cw12 arg.toNat = .ok (.nop arg) ∧
    exec (.nop arg) s = .next { s with resp := some ⟨.ok, 0x00#8, none⟩ }

/-- R182, R27: STAT_READ answers the STATUS bits, one by one, and writes no state, whatever its argument. -/
def Obligations.StatReadGivesStatus : Prop :=
  ∀ (s : State) (arg : Byte), ∃ status : Byte,
    decode .cw12 (0xE00 + arg.toNat) = .ok (.statRead arg) ∧
    exec (.statRead arg) s = .next { s with resp := some ⟨.ok, status, none⟩ } ∧
    status.getLsbD 0 = s.stRxOvf ∧
    status.getLsbD 1 = s.stEncSeq ∧
    status.getLsbD 2 = s.stOpIll ∧
    status.extractLsb' 3 2 = (match s.encPhase with | .idle => 0b00#2 | .needCmd => 0b01#2 | .body => 0b10#2) ∧
    status.getLsbD 5 = decide (s.cfg.cksumPolicy = .enforce) ∧
    status.getLsbD 6 = decide (s.rxBuf ≠ []) ∧
    status.getLsbD 7 = false

/-- R183: STAT_CLR clears the sticky bits whose mask bit is 1 and nothing else. -/
def Obligations.StatClrClearsSelectedBits : Prop :=
  ∀ (s : State) (arg : Byte),
    decode .cw12 (0xF00 + arg.toNat) = .ok (.statClr arg) ∧
    exec (.statClr arg) s = .next { s with
      stRxOvf := if arg.getLsbD 0 then false else s.stRxOvf
      stEncSeq := if arg.getLsbD 1 then false else s.stEncSeq
      stOpIll := if arg.getLsbD 2 then false else s.stOpIll
      resp := some ⟨.ok, 0x00#8, none⟩ }

/-- R184, R72: a reserved operation code answers ILLEGAL, sets `st_op_ill` and changes nothing else. -/
def Obligations.ReservedCodesAreIllegal : Prop :=
  ∀ (s : State) (arg : Byte) (op : Nat) (i : Instr),
    (op, i) ∈ [(0x600, Instr.reserved6 arg), (0x700, Instr.reserved7 arg), (0xB00, Instr.reservedB arg),
      (0xC00, Instr.reservedC arg), (0xD00, Instr.reservedD arg)] →
    decode .cw12 (op + arg.toNat) = .ok i ∧
    exec i s = .next { s with stOpIll := true, resp := some ⟨.illegal, 0x00#8, none⟩ }

/-- R26: a step clears a sticky bit only by STAT_CLR with its mask bit or by reset. -/
def Obligations.StickyBitsClearedOnlyByName : Prop :=
  ∀ s t : State, step s = .next t →
    (∃ arg, fetch s = some (.statClr arg) ∧
      (s.stRxOvf = true → t.stRxOvf = false → arg.getLsbD 0 = true) ∧
      (s.stEncSeq = true → t.stEncSeq = false → arg.getLsbD 1 = true) ∧
      (s.stOpIll = true → t.stOpIll = false → arg.getLsbD 2 = true)) ∨
    (s.host.msg = none ∧ s.inputs.head? = some .reset) ∨
    ((s.stRxOvf = true → t.stRxOvf = true) ∧ (s.stEncSeq = true → t.stEncSeq = true) ∧
      (s.stOpIll = true → t.stOpIll = true))

/-- R26: the events that set the sticky bits, for the operations of the command port: RX_PUSH on a full buffer, an
encoder operation out of sequence, a reserved code. -/
def Obligations.StickyBitsSetOnlyByTheirEvents : Prop :=
  ∀ (i : Instr) (s t : State), (encode i).1 = .cw12 → exec i s = .next t →
    (s.stRxOvf = false → t.stRxOvf = true →
      (∃ b, i = .rxPush b) ∧ s.cfg.rxCap = .bytes s.rxBuf.length) ∧
    (s.stEncSeq = false → t.stEncSeq = true →
      ((∃ x, i = .encStart x) ∧ s.encPhase ≠ .idle) ∨ ((∃ x, i = .encCmd x) ∧ s.encPhase ≠ .needCmd) ∨
      ((∃ x, i = .encData x) ∧ s.encPhase ≠ .body) ∨ ((∃ x, i = .encEnd x) ∧ s.encPhase ≠ .body)) ∧
    (s.stOpIll = false → t.stOpIll = true →
      ∃ x, i = .reserved6 x ∨ i = .reserved7 x ∨ i = .reservedB x ∨ i = .reservedC x ∨ i = .reservedD x)

/-- R240: every step answers a next state, nothing traps, halts or is refused; and the build parameters are written by
no step (R29). -/
def Obligations.NoStepStopsOrReconfigures : Prop :=
  ∀ s : State, (∃ t, step s = .next t ∧ t.cfg = s.cfg) ∧ ∀ i : Instr, ∃ t, exec i s = .next t ∧ t.cfg = s.cfg

/-- The spec's own inference (20_memory.md section 5, "The encoder and the synchronizer share no state"): an operation
of the command port on two states that agree on the encoder leaves them agreeing on it, and on two states that agree
on the synchronizer leaves them agreeing on it, PARSE's answer included; an encoder operation leaves the receive
buffer, and every other operation leaves the encoder and emits nothing. -/
def Obligations.EncoderAndSynchronizerAreSeparate : Prop :=
  ∀ (i : Instr) (s s' t t' : State), (encode i).1 = .cw12 → exec i s = .next t → exec i s' = .next t' →
    (s.encPhase = s'.encPhase → s.encAcc = s'.encAcc → s.tx = s'.tx →
      t.encPhase = t'.encPhase ∧ t.encAcc = t'.encAcc ∧ t.tx = t'.tx) ∧
    (s.cfg = s'.cfg → s.rxBuf = s'.rxBuf →
      t.rxBuf = t'.rxBuf ∧ (∀ arg, i = .parse arg → t.resp = t'.resp)) ∧
    ((∃ x, i ∈ [Instr.encStart x, .encCmd x, .encData x, .encEnd x, .encAbort x]) → t.rxBuf = s.rxBuf) ∧
    ((∀ x, i ∉ [Instr.encStart x, .encCmd x, .encData x, .encEnd x, .encAbort x]) →
      t.encPhase = s.encPhase ∧ t.encAcc = s.encAcc ∧ t.tx = s.tx)

/-! ### Wire bytes -/

/-- R260 (one RX_PUSH per received byte), for every wire byte class of R61: the byte reaches the end of the receive
buffer, or is dropped when the buffer is full. That a wire byte is received so is this model's reading, log entry 5. -/
def Obligations.WireBytesReachTheBuffer : Prop :=
  ∀ (v : Nibble) (s : State) (i : Instr) (b : Byte),
    (i, b) ∈ [(Instr.wireStart v, 0x80#8 ||| v.setWidth 8), (Instr.wireCmdHi v, 0x40#8 ||| v.setWidth 8),
      (Instr.wireCmdLo v, 0x00#8 ||| v.setWidth 8), (Instr.wireDataHi v, 0x50#8 ||| v.setWidth 8),
      (Instr.wireDataLo v, 0x10#8 ||| v.setWidth 8), (Instr.wireCkHi v, 0x60#8 ||| v.setWidth 8),
      (Instr.wireCkLoEnd v, 0x20#8 ||| v.setWidth 8), (Instr.wireUnassigned3 v, 0x30#8 ||| v.setWidth 8),
      (Instr.wireUnassigned7 v, 0x70#8 ||| v.setWidth 8), (Instr.wireUnassigned9 v, 0x90#8 ||| v.setWidth 8),
      (Instr.wireUnassignedA v, 0xA0#8 ||| v.setWidth 8), (Instr.wireUnassignedB v, 0xB0#8 ||| v.setWidth 8),
      (Instr.wireUnassignedC v, 0xC0#8 ||| v.setWidth 8), (Instr.wireUnassignedD v, 0xD0#8 ||| v.setWidth 8),
      (Instr.wireUnassignedE v, 0xE0#8 ||| v.setWidth 8), (Instr.wireUnassignedF v, 0xF0#8 ||| v.setWidth 8)] →
    decode .wire8 b.toNat = .ok i ∧
    (s.cfg.rxCap ≠ .bytes s.rxBuf.length →
      exec i s = .next { s with rxBuf := s.rxBuf ++ [b], resp := some ⟨.ok, 0x00#8, none⟩ }) ∧
    (s.cfg.rxCap = .bytes s.rxBuf.length →
      exec i s = .next { s with stRxOvf := true, resp := some ⟨.full, 0x00#8, none⟩ })

/-- The spec's own inference (30_encoding.md section 1, on unassigned tag nibbles): a byte whose tag nibble is 0x3, 0x7
or 0x9 to 0xF is no start byte and no end tag, fails every tag check in either half, and is emitted in no frame. -/
def Obligations.UnassignedTagsHaveNoClass : Prop :=
  ∀ b : Byte, hi4 b ∈ [0x3#4, 0x7#4, 0x9#4, 0xA#4, 0xB#4, 0xC#4, 0xD#4, 0xE#4, 0xF#4] →
    b &&& 0xF0#8 ≠ 0x80#8 ∧ b &&& 0xF0#8 ≠ 0x20#8 ∧
    (∀ (x : Byte) (ty : TagType), untag b x ty = none ∧ untag x b ty = none) ∧
    ∀ (a : Nibble) (c : Byte) (p : List Byte), b ∉ encodeFrame a c p

/-! ### The host: requests -/

/-- 60_exceptions.md section 4 (steps 1, 2 and 4 of an exchange): a request with any request code but SetBaudrate
(Hello, SetLeds, SetSmartLeds, SetText, SetRelay, SetSpecificSmartLeds_1 to _3, GetKeys, GetSliders, GetEncoders,
GetSensors, GetStikyKeys, GetState), in hand with no exchange pending, on a line that is open or opens, the encoder
idle, a non-silent address and a line that writes every byte, is encoded, written and pending. That the code is
dispatched on the frame in hand is this model's form, log entry 6; in Opening the line's answer is taken in the
request, log entry 16. -/
def Obligations.RequestIsWrittenAndPending : Prop :=
  ∀ (s : State) (i : Instr) (c : Byte) (a : Nibble) (x : Byte) (p : List Byte) (line : LineReport),
    (i, c) ∈ requestRows → c ≠ 0x01#8 →
    s.host.msg = some (.request a x p line) → s.host.pending = none →
    (s.host.conn = .opened ∨ line.opens = .granted) → s.encPhase = .idle → a ≠ 0#4 → a ≠ 15#4 → WritesWhole p line →
    ∃ ns : List Notice, exec i s = .next { s with
      tx := s.tx ++ encodeFrame a c p
      encAcc := sum8 (frameBody a c p)
      resp := some ⟨.ok, 0x00#8, none⟩
      host := { openedHost s.host ns with
        lineOut := s.host.lineOut ++ encodeFrame a c p
        pending := some { address := a, command := c, payload := p, elapsedMs := 0 }
        msg := none } }

/-- R204: a SetBaudrate request carries the index; one outside 0..7 is rejected before sending, one inside is sent and
is the line's requested rate (that only the request is recorded is this model's form, log entry 10). A payload that is
not one byte has no index to check and is sent as it is, and a bad index is rejected also while an exchange is pending:
both are this model's form, log entry 19. -/
def Obligations.SetBaudrateRequest : Prop :=
  ∀ (s : State) (a : Nibble) (x : Byte) (p : List Byte) (line : LineReport),
    s.host.msg = some (.request a x p line) →
    (∀ k : Byte, p = [k] → 8 ≤ k.toNat → exec .protoSetBaudrate s = .next { s with
      host := { s.host with msg := none, events := s.host.events ++ [.error .invalidParameter] } }) ∧
    (IndexInTable 0x01#8 p → s.host.pending = none → (s.host.conn = .opened ∨ line.opens = .granted) →
      s.encPhase = .idle → a ≠ 0#4 → a ≠ 15#4 → WritesWhole p line →
      ∃ ns : List Notice, exec .protoSetBaudrate s = .next { s with
        tx := s.tx ++ encodeFrame a 0x01#8 p
        encAcc := sum8 (frameBody a 0x01#8 p)
        resp := some ⟨.ok, 0x00#8, none⟩
        host := { openedHost s.host ns with
          lineOut := s.host.lineOut ++ encodeFrame a 0x01#8 p
          lineRate := match p with
            | [k] => .requested (BitVec.ofNat 3 k.toNat)
            | _ => (openedHost s.host ns).lineRate
          pending := some { address := a, command := 0x01#8, payload := p, elapsedMs := 0 }
          msg := none } })

/-- R267, with R265 and R266: a request with any request code to address 0 or 15, written whole, completes at once with
`ReplySilent`, and no reply is awaited. That the code is dispatched on the frame in hand is log entry 6; the rate that
is recorded for SetBaudrate is log entry 10. -/
def Obligations.SilentAddressIsNotAwaited : Prop :=
  ∀ (s : State) (i : Instr) (c : Byte) (a : Nibble) (x : Byte) (p : List Byte) (line : LineReport),
    (i, c) ∈ requestRows → IndexInTable c p → (a = 0#4 ∨ a = 15#4) →
    s.host.msg = some (.request a x p line) → s.host.pending = none →
    (s.host.conn = .opened ∨ line.opens = .granted) → s.encPhase = .idle → WritesWhole p line →
    ∃ (ns : List Notice) (rate : LineRate), exec i s = .next { s with
        tx := s.tx ++ encodeFrame a c p
        encAcc := sum8 (frameBody a c p)
        resp := some ⟨.ok, 0x00#8, none⟩
        host := { openedHost s.host ns with
          lineOut := s.host.lineOut ++ encodeFrame a c p
          lineRate := rate
          msg := none
          events := (openedHost s.host ns).events ++ [.replySilent a c] } } ∧
      (∀ k : Byte, c = 0x01#8 → p = [k] → rate = .requested (BitVec.ofNat 3 k.toNat)) ∧
      (c ≠ 0x01#8 ∨ p.length ≠ 1 → rate = (openedHost s.host ns).lineRate)

/-- R264, R265: a request while another is pending is rejected with `Busy` and disturbs nothing; a request on a line that
is not open and does not open ends with `LineUnavailable` or `LineBusy` before the block is used. That an Execute in
Opening takes the line's answer and goes back to Closed is log entry 16; the dispatch on the frame in hand is log
entry 6. -/
def Obligations.RequestTurnedAwayBeforeTheBlock : Prop :=
  ∀ (s : State) (i : Instr) (c : Byte) (a : Nibble) (x : Byte) (p : List Byte) (line : LineReport),
    (i, c) ∈ requestRows → IndexInTable c p → s.host.msg = some (.request a x p line) →
    (∀ q, s.host.pending = some q →
      exec i s = .next { s with
        host := { s.host with msg := none, events := s.host.events ++ [.error .busy] } }) ∧
    (∀ kind, s.host.pending = none → s.host.conn ≠ .opened →
      (line.opens, kind) ∈
        [(OpenResult.unavailable, ErrorKind.lineUnavailable), (OpenResult.claimed, ErrorKind.lineBusy)] →
      exec i s = .next { s with
        host := { s.host with conn := .closed, msg := none, events := s.host.events ++ [.error kind] } })

/-- R266: when fewer bytes are written than encoded, `WriteShortfall` is emitted and no reply is awaited, whatever the
address. That the bytes on the line are the first ones is this model's form, log entry 22; the dispatch on the frame in
hand is log entry 6. -/
def Obligations.ShortWriteAborts : Prop :=
  ∀ (s : State) (i : Instr) (c : Byte) (a : Nibble) (x : Byte) (p : List Byte) (line : LineReport) (n : Nat),
    (i, c) ∈ requestRows → IndexInTable c p → s.host.msg = some (.request a x p line) → s.host.pending = none →
    (s.host.conn = .opened ∨ line.opens = .granted) → s.encPhase = .idle →
    line.written = some n → n < 2 * p.length + 5 →
    ∃ ns : List Notice, exec i s = .next { s with
      tx := s.tx ++ encodeFrame a c p
      encAcc := sum8 (frameBody a c p)
      resp := some ⟨.ok, 0x00#8, none⟩
      host := { openedHost s.host ns with
        lineOut := s.host.lineOut ++ (encodeFrame a c p).take n
        msg := none
        events := (openedHost s.host ns).events ++ [.error .writeShortfall] } }

/-- R216, R200, R204, R206: the host checks a call before any I/O and then has its request in hand. An address outside
0..15, a command that is no request code and a baud index outside 0..7 are rejected; Execute takes the caller's bytes,
setBaudrate the index as its one payload byte to `BAUD_ADDR`, setSmartLed the packed payload under the caller's code of
0x14 to 0x16. That this comes before the `Busy` check is this model's order, log entry 19; that a bad command is
`InvalidParameter` is log entry 30; the two open parameters are log entry 11. -/
def Obligations.HostCallsAreCheckedThenTaken : Prop :=
  ∀ (s : State) (rest : List Input) (line : LineReport), s.host.msg = none →
    (∀ address c p, s.inputs = .execute address c p line :: rest →
      (address < 16 → (∃ i, (i, c) ∈ requestRows) → step s = .next { s with
        inputs := rest, host := { s.host with msg := some (.request (BitVec.ofNat 4 address) c p line) } }) ∧
      (16 ≤ address ∨ (∀ i, (i, c) ∉ requestRows) → step s = .next { s with
        inputs := rest, host := { s.host with events := s.host.events ++ [.error .invalidParameter] } })) ∧
    (∀ index, s.inputs = .setBaudrate index line :: rest →
      (index < 8 → step s = .next { s with
        inputs := rest
        host := { s.host with
          msg := some (.request Config.baudAddr 0x01#8 [BitVec.ofNat 8 index] line) } }) ∧
      (8 ≤ index → step s = .next { s with
        inputs := rest, host := { s.host with events := s.host.events ++ [.error .invalidParameter] } })) ∧
    (∀ address variant group r g b, s.inputs = .setSmartLed address variant group r g b line :: rest →
      (address < 16 → step s = .next { s with
        inputs := rest
        host := { s.host with
          msg := some (.request (BitVec.ofNat 4 address) (BitVec.ofNat 8 (0x14 + variant.val))
            (smartLedPayload Config.channelOrder group r g b) line) } }) ∧
      (16 ≤ address → step s = .next { s with
        inputs := rest, host := { s.host with events := s.host.events ++ [.error .invalidParameter] } }))

/-- R206: setSmartLed clamps each channel to 0xFFF and packs group, then two bytes for each of r, g, b; the order of a
channel's two bytes is the host's parameter. The code among 0x14 to 0x16 is the caller's. -/
def Obligations.SmartLedPacking : Prop :=
  ∀ (order : ChannelOrder) (group : Byte) (r g b : Nat),
    (smartLedPayload order group r g b).length = 7 ∧
    (smartLedPayload order group r g b)[0]? = some group ∧
    ∀ (v : Nat) (j : Nat), (v, j) ∈ [(r, 1), (g, 3), (b, 5)] →
      ∃ hi lo : Byte, hi.toNat ≤ 0x0F ∧ hi.toNat * 256 + lo.toNat = min v 0xFFF ∧
        (order = .highFirst → (smartLedPayload order group r g b)[j]? = some hi ∧
          (smartLedPayload order group r g b)[j + 1]? = some lo) ∧
        (order = .lowFirst → (smartLedPayload order group r g b)[j]? = some lo ∧
          (smartLedPayload order group r g b)[j + 1]? = some hi)

/-! ### The host: replies -/

/-- R207, R211: a GetKeys or GetStikyKeys reply is surfaced as 18 booleans, entry `i` being bit `i mod 8` of byte
`i div 8` of the zero-padded payload. -/
def Obligations.KeysReplyIsUnpacked : Prop :=
  ∀ (s : State) (a : Nibble) (x : Byte) (r : List Byte), s.host.msg = some (.reply a x r) →
    ∃ bits : List Bool, bits.length = 18 ∧
      (∀ i < 18, bits[i]? = some ((r.getD (i / 8) 0x00#8).getLsbD (i % 8))) ∧
      exec .protoGetKeys s = .next { s with
        host := { s.host with msg := none, events := s.host.events ++ [.keys bits] } } ∧
      exec .protoGetStikyKeys s = .next { s with
        host := { s.host with msg := none, events := s.host.events ++ [.stikyKeys bits] } }

/-- R208, R209, R210: a GetSliders reply is surfaced as 8 levels, a GetEncoders reply as 4 little-endian unsigned 16-bit
counters and a GetSensors reply as 2 levels, zero-padded byte by byte, longer bytes ignored. -/
def Obligations.LevelsAndCountersArePadded : Prop :=
  ∀ (s : State) (a : Nibble) (x : Byte) (r : List Byte), s.host.msg = some (.reply a x r) →
    exec .protoGetSliders s = .next { s with
      host := { s.host with
        msg := none
        events := s.host.events ++ [.sliders [r.getD 0 0#8, r.getD 1 0#8, r.getD 2 0#8, r.getD 3 0#8,
          r.getD 4 0#8, r.getD 5 0#8, r.getD 6 0#8, r.getD 7 0#8]] } } ∧
    exec .protoGetEncoders s = .next { s with
      host := { s.host with
        msg := none
        events := s.host.events ++ [.encoders
          [(r.getD 1 0#8).setWidth 16 <<< 8 ||| (r.getD 0 0#8).setWidth 16,
            (r.getD 3 0#8).setWidth 16 <<< 8 ||| (r.getD 2 0#8).setWidth 16,
            (r.getD 5 0#8).setWidth 16 <<< 8 ||| (r.getD 4 0#8).setWidth 16,
            (r.getD 7 0#8).setWidth 16 <<< 8 ||| (r.getD 6 0#8).setWidth 16]] } } ∧
    exec .protoGetSensors s = .next { s with
      host := { s.host with msg := none, events := s.host.events ++ [.sensors [r.getD 0 0#8, r.getD 1 0#8]] } }

/-- R212: a GetState reply is sliced as keys[0:3], sliders[3:11], encoders[11:19], sensors[19:21], sticky[21:24] of the
24 zero-padded bytes, each slice decoded by its own rule. -/
def Obligations.StateReplyIsSliced : Prop :=
  ∀ (s : State) (a : Nibble) (x : Byte) (r : List Byte), s.host.msg = some (.reply a x r) →
    exec .protoGetState s = .next { s with
      host := { s.host with
        msg := none
        events := s.host.events ++ [.state
          (keys [r.getD 0 0#8, r.getD 1 0#8, r.getD 2 0#8])
          (sliders [r.getD 3 0#8, r.getD 4 0#8, r.getD 5 0#8, r.getD 6 0#8, r.getD 7 0#8, r.getD 8 0#8,
            r.getD 9 0#8, r.getD 10 0#8])
          (encoders [r.getD 11 0#8, r.getD 12 0#8, r.getD 13 0#8, r.getD 14 0#8, r.getD 15 0#8, r.getD 16 0#8,
            r.getD 17 0#8, r.getD 18 0#8])
          (sensors [r.getD 19 0#8, r.getD 20 0#8])
          (keys [r.getD 21 0#8, r.getD 22 0#8, r.getD 23 0#8])] } }

/-- R202: a ticket reply surfaces as `TicketSuccess` (0x80) or `TicketUnknown` (0x81), whatever request is or is not
pending; which of the notices R277 lists come with it is free (log entry 8). -/
def Obligations.TicketRepliesSurface : Prop :=
  ∀ (s : State) (a : Nibble) (x : Byte) (r : List Byte) (i : Instr) (e : Event),
    (i, e) ∈ [(Instr.protoSuccessTicket, Event.ticketSuccess), (Instr.protoUnknownTicket, Event.ticketUnknown)] →
    s.host.msg = some (.reply a x r) →
    ∃ ns : List Notice, exec i s = .next { s with
      host := { s.host with
        msg := none
        events := s.host.events ++ e :: ns.map Event.notice
        draws := s.host.draws + 1 } }

/-- The forms of a command code that the spec states nothing more of, in this model's form: a reply that carries a
request-only code leaves the hand and surfaces events that are free (log entry 7); a request in hand with a ticket code,
or with a code outside R201, is rejected by the host's check of what it sends (R200; log entry 30); and a code with no
frame in hand changes nothing (log entry 6). -/
def Obligations.CodesWithoutAReplyDecode : Prop :=
  (∀ (s : State) (i : Instr) (a : Nibble) (x : Byte) (r : List Byte),
    i ∈ [Instr.protoHello, .protoSetBaudrate, .protoSetLeds, .protoSetSmartLeds, .protoSetText, .protoSetRelay,
      .protoSetSpecificSmartLeds1, .protoSetSpecificSmartLeds2, .protoSetSpecificSmartLeds3] →
    s.host.msg = some (.reply a x r) →
    ∃ es : List Event, exec i s = .next { s with
      host := { s.host with
        msg := none
        events := s.host.events ++ es
        draws := s.host.draws + 1 } }) ∧
  (∀ (s : State) (i : Instr) (a : Nibble) (x : Byte) (p : List Byte) (line : LineReport),
    i ∈ [Instr.protoSuccessTicket, .protoUnknownTicket] → s.host.msg = some (.request a x p line) →
    exec i s = .next { s with
      host := { s.host with msg := none, events := s.host.events ++ [.error .invalidParameter] } }) ∧
  (∀ (s : State) (a : Nibble) (c : Byte) (p : List Byte) (line : LineReport),
    s.host.msg = some (.request a c p line) →
    c.toNat ∉ [0x00, 0x01, 0x10, 0x11, 0x12, 0x13, 0x14, 0x15, 0x16, 0x20, 0x21, 0x22, 0x23, 0x24, 0x2F, 0x80, 0x81] →
    step s = .next { s with
      host := { s.host with msg := none, events := s.host.events ++ [.error .invalidParameter] } }) ∧
  (∀ (s : State) (i : Instr), (encode i).1 = .proto8 → s.host.msg = none → exec i s = .next s)

/-- R213: a reply with any command code outside R201 is surfaced as a raw reply. That a frame in hand is dispatched
before anything that waits at the inputs is this model's form, log entry 6. -/
def Obligations.OtherCodesAreRawReplies : Prop :=
  ∀ (s : State) (a : Nibble) (c : Byte) (r : List Byte), s.host.msg = some (.reply a c r) →
    c.toNat ∉ [0x00, 0x01, 0x10, 0x11, 0x12, 0x13, 0x14, 0x15, 0x16, 0x20, 0x21, 0x22, 0x23, 0x24, 0x2F, 0x80, 0x81] →
    step s = .next { s with
      host := { s.host with msg := none, events := s.host.events ++ [.rawReply a c r] } }

/-! ### The host: polling, timeout, close -/

/-- R268, R273, R288: a poll that finds nothing, one RX_PUSH per received byte first. With no exchange pending nothing is
parsed (log entry 12); with one pending it ends with the timeout of the original request once 350 ms have passed since
dispatch and stays pending before that (time is what the poll input says, log entry 18). When a byte was dropped and the
buffer is still full with nothing to parse, the host has flushed it (log entry 20). -/
def Obligations.PollWithoutTerminalOutcome : Prop :=
  ∀ (s u : State) (answers : List (Option Response)) (rest : List Input) (bytes : List Byte) (ms : Nat),
    s.host.msg = none → s.inputs = .poll bytes ms :: rest →
    runOps (rxPushN bytes) { s with inputs := rest } = .next (u, answers) →
    (s.host.pending = none →
      step s = .next (if u.stRxOvf = true ∧ u.cfg.rxCap = .bytes u.rxBuf.length ∧ parseOutcome u = .needMoreData
        then { u with rxBuf := [], resp := some ⟨.ok, 0x00#8, none⟩ } else u)) ∧
    (∀ q, s.host.pending = some q → parseOutcome u = .needMoreData →
      step s = .next { u with
        rxBuf := if u.stRxOvf = true ∧ u.cfg.rxCap = .bytes u.rxBuf.length then [] else u.rxBuf
        resp := some ⟨.ok, 0x00#8,
          if u.stRxOvf = true ∧ u.cfg.rxCap = .bytes u.rxBuf.length then none else some .needMoreData⟩
        host :=
          if 350 ≤ q.elapsedMs + ms then
            { s.host with
              pending := none
              events := s.host.events ++ [.timeout q.address q.command q.payload] }
          else { s.host with pending := some { q with elapsedMs := q.elapsedMs + ms } } })

/-- R268 to R272: a poll, its bytes pushed, whose first outcome is terminal, before the timeout. A `Success` ends the
exchange and is the reply in hand; a `TagError`, `SizeError` or `ChecksumError` is emitted as a parse error and ends it;
the bytes after the frame stay in the buffer. (At or past 350 ms the same is this model's choice, log entry 18, and not
stated.) -/
def Obligations.TerminalOutcomeEndsTheExchange : Prop :=
  ∀ (s u : State) (answers : List (Option Response)) (rest : List Input) (bytes : List Byte) (ms : Nat) (q : Pending)
    (o : ParseOutcome), s.host.msg = none → s.inputs = .poll bytes ms :: rest → s.host.pending = some q →
    q.elapsedMs + ms < 350 → runOps (rxPushN bytes) { s with inputs := rest } = .next (u, answers) →
    parseOutcome u = o → o ≠ .needMoreData → (∀ garbage, o ≠ .skipped garbage) →
    ∃ h : HostState, step s = .next { u with
        rxBuf := (parseBuffer u.cfg.cksumPolicy u.rxBuf).2
        resp := some ⟨.ok, kindCode o, some o⟩
        host := h } ∧
      match o with
      | .success a c p => h = { s.host with pending := none, msg := some (.reply a c p) }
      | .sizeError f =>
          h = { s.host with pending := none, events := s.host.events ++ [.parseError .frameSizeError f] }
      | .tagError f =>
          h = { s.host with pending := none, events := s.host.events ++ [.parseError .frameTagError f] }
      | .checksumError f =>
          h = { s.host with pending := none, events := s.host.events ++ [.parseError .checksumError f] }
      | _ => False

/-- R271: a poll, its bytes pushed, that finds garbage first reports it and goes on, with the exchange pending, as a poll
without bytes from the state after that PARSE; so when what follows is an incomplete candidate the exchange stays
pending. -/
def Obligations.SkippedKeepsTheExchange : Prop :=
  ∀ (s u : State) (answers : List (Option Response)) (rest : List Input) (bytes : List Byte) (ms : Nat) (q : Pending)
    (g : List Byte), s.host.msg = none → s.inputs = .poll bytes ms :: rest → s.host.pending = some q →
    runOps (rxPushN bytes) { s with inputs := rest } = .next (u, answers) → parseOutcome u = .skipped g →
    step s = step { u with
      rxBuf := (parseBuffer u.cfg.cksumPolicy u.rxBuf).2
      resp := some ⟨.ok, 0x02#8, some (.skipped g)⟩
      inputs := .poll [] ms :: rest
      host := { s.host with events := s.host.events ++ [.parseError .frameSkipped g] } } ∧
    (parseOutcome (parseOp u) = .needMoreData → q.elapsedMs + ms < 350 →
      ∃ t, step s = .next t ∧ t.host.pending = some { q with elapsedMs := q.elapsedMs + ms } ∧
        t.host.events = s.host.events ++ [.parseError .frameSkipped g] ∧ t.host.msg = none ∧
        (RxBounded s → u.rxBuf = g ++ t.rxBuf))

/-- R274: exactly one outcome ends an exchange. In a step after which a pending request is no longer pending, the new
events hold one terminal outcome and no reply is in hand, or they hold none and the reply is in hand. -/
def Obligations.ExactlyOneTerminalOutcome : Prop :=
  ∀ (s t : State) (q : Pending), step s = .next t → s.host.pending = some q → t.host.pending = none →
    ∃ new, t.host.events = s.host.events ++ new ∧ (new.filter isTerminal).length + replyInHand t = 1

/-- R275: closing an open line with an exchange pending ends it with `Cancelled` and leaves the block idle with an
empty receive buffer and the line closed (log entry 15); which notices come with it is free (log entry 8). -/
def Obligations.CloseCancelsTheExchange : Prop :=
  ∀ (s : State) (rest : List Input) (q : Pending), s.host.msg = none → s.inputs = .close :: rest →
    s.host.conn = .opened → s.host.pending = some q →
    ∃ ns : List Notice, step s = .next { s with
      inputs := rest
      encPhase := .idle
      rxBuf := []
      resp := some ⟨.ok, 0x00#8, none⟩
      host := { s.host with
        conn := .closed
        pending := none
        events := s.host.events ++ [.cancelled] ++ ns.map Event.notice
        draws := s.host.draws + 1 } }

/-- R261: an explicit open goes from Closed to Opening, and from there by the line's answer to Open at 9600 baud or back
to Closed with the error reported (log entry 16); which notices come with it is free (log entry 8). -/
def Obligations.OpenFollowsTheLinesAnswer : Prop :=
  ∀ (s : State) (rest : List Input), s.host.msg = none →
    (s.inputs = .openCall :: rest → s.host.conn = .closed →
      step s = .next { s with inputs := rest, host := { s.host with conn := .opening } }) ∧
    (s.inputs = .openAnswer .granted :: rest → s.host.conn = .opening →
      ∃ (t : State) (ns : List Notice), step s = .next t ∧ statedRate t.host.lineRate = 9600 ∧
        t = { s with
          inputs := rest
          host := { s.host with
            conn := .opened
            lineRate := t.host.lineRate
            events := s.host.events ++ ns.map Event.notice
            draws := s.host.draws + 1 } }) ∧
    (∀ answer kind,
      (answer, kind) ∈ [(OpenResult.unavailable, ErrorKind.lineUnavailable), (OpenResult.claimed, ErrorKind.lineBusy)] →
      s.inputs = .openAnswer answer :: rest → s.host.conn = .opening →
      step s = .next { s with
        inputs := rest
        host := { s.host with conn := .closed, events := s.host.events ++ [.error kind] } })

/-! ### Steps, reset and invariants -/

/-- A step runs the decoded instruction: the word or byte that waits first at the inputs, taken off the queue, or the
command code of the frame in hand; with nothing there the state stays. After a word the TX bytes it emitted are on the
line if that is open (R260; log entry 29), and the line's rate is as the instruction left it (log entry 31). That a frame in hand comes before the inputs is log entry 6, that a wire byte
is an instruction of its own is log entry 5, that a step with nothing waiting keeps the state is log entry 3: this
model's choices. -/
def Obligations.StepRunsTheDecodedInstruction : Prop :=
  ∀ (s : State) (i : Instr),
    (∀ cw rest t, s.host.msg = none → s.inputs = .word cw :: rest → decode .cw12 cw.toNat = .ok i →
      exec i { s with inputs := rest } = .next t →
      step s = .next { t with
        host := { t.host with
          lineOut := if t.host.conn = .opened then t.host.lineOut ++ t.tx.drop s.tx.length
            else t.host.lineOut } }) ∧
    (∀ b rest, s.host.msg = none → s.inputs = .wire b :: rest → decode .wire8 b.toNat = .ok i →
      step s = exec i { s with inputs := rest }) ∧
    (∀ m, s.host.msg = some m → decode .proto8 (msgCommand m).toNat = .ok i → step s = exec i s) ∧
    (s.host.msg = none → s.inputs = [] → step s = .next s)

/-- R280, R32: what the reset input leaves: the block's fields at R32's values, no byte emitted, no response, the
configuration as before. That the host's record, a pending exchange included, stays is log entry 25; that the response is
gone and the TX stream stays is log entry 2: this model's choices. -/
def Obligations.ResetInputClearsTheBlock : Prop :=
  ∀ (s : State) (rest : List Input), s.host.msg = none → s.inputs = .reset :: rest →
    step s = .next { s with
      inputs := rest
      encPhase := .idle
      encAcc := 0x00#8
      rxBuf := []
      stRxOvf := false
      stEncSeq := false
      stOpIll := false
      resp := none }

/-- R32: the values of the block after reset, and STATUS 0x20 under ENFORCE, 0x00 under PERMISSIVE. That the model's
build is ENFORCE is log entry 1; that the three invariants hold there rests on the host's initial record, log entry 4. -/
def Obligations.ResetState : Prop :=
  State.reset.encPhase = .idle ∧ State.reset.encAcc = 0x00#8 ∧ State.reset.rxBuf = [] ∧
  State.reset.stRxOvf = false ∧ State.reset.stEncSeq = false ∧ State.reset.stOpIll = false ∧
  statusByte State.reset = 0x20#8 ∧
  statusByte { State.reset with cfg := { State.reset.cfg with cksumPolicy := .permissive } } = 0x00#8 ∧
  RxBounded State.reset ∧ FrameSummed State.reset ∧ PendingSound State.reset

/-- R25: no step takes the receive buffer over `RX_CAP`. -/
def Obligations.StepKeepsTheBufferBounded : Prop :=
  ∀ s t : State, RxBounded s → step s = .next t → RxBounded t

/-- R24: while a frame is open, `enc_acc` is the `Sum8` of the bytes emitted since ENC_START, and every step keeps it
so. -/
def Obligations.StepKeepsTheAccumulator : Prop :=
  ∀ s t : State, FrameSummed s → step s = .next t → FrameSummed t

/-- R264 to R267, R273: every step keeps a pending exchange on an open line, at a non-silent address, before its
timeout. -/
def Obligations.StepKeepsPendingSound : Prop :=
  ∀ s t : State, PendingSound s → step s = .next t → PendingSound t
end

