-- ==== Sys2Proof/Laws/Words.lean ====
section
/-! SUPPORT. The bit fields of a byte and of a command word: what is put together is taken apart again, and what the
decoders read from it. -/

namespace Sys2Proof

/-- The sixteen nibbles, for a case split over operation codes or tags. -/
theorem nibble_cases (n : Nibble) :
    n = 0x0#4 ∨ n = 0x1#4 ∨ n = 0x2#4 ∨ n = 0x3#4 ∨ n = 0x4#4 ∨ n = 0x5#4 ∨ n = 0x6#4 ∨ n = 0x7#4 ∨
      n = 0x8#4 ∨ n = 0x9#4 ∨ n = 0xA#4 ∨ n = 0xB#4 ∨ n = 0xC#4 ∨ n = 0xD#4 ∨ n = 0xE#4 ∨ n = 0xF#4 := by
  revert n; decide

/-! ### Wire bytes -/

@[simp] theorem hi4_byteOf (tag value : Nibble) : hi4 (byteOf tag value) = tag := by
  revert tag value; decide

@[simp] theorem lo4_byteOf (tag value : Nibble) : lo4 (byteOf tag value) = value := by
  revert tag value; decide

@[simp] theorem byteOf_hi4_lo4 (b : Byte) : byteOf (hi4 b) (lo4 b) = b := by
  revert b; decide

/-- A byte is its two nibbles. -/
theorem eq_byteOf_iff (b : Byte) (tag value : Nibble) : b = byteOf tag value ↔ hi4 b = tag ∧ lo4 b = value := by
  constructor
  · rintro rfl; simp
  · rintro ⟨rfl, rfl⟩; simp

/-- R153: the start predicate is the tag nibble 0x8. -/
theorem isStart_iff (b : Byte) : isStart b = true ↔ hi4 b = 0x8#4 := by
  revert b; decide

/-- R156: the end predicate is the tag nibble 0x2. -/
theorem isEndTag_iff (b : Byte) : isEndTag b = true ↔ hi4 b = 0x2#4 := by
  revert b; decide

theorem isStart_iff_mask (b : Byte) : isStart b = true ↔ b &&& 0xF0#8 = 0x80#8 := by
  simp [isStart, tagMask, startTag]

theorem isEndTag_iff_mask (b : Byte) : isEndTag b = true ↔ b &&& 0xF0#8 = 0x20#8 := by
  simp [isEndTag, tagMask, endTag]

/-! ### Command words -/

@[simp] theorem argField_cmdWord (op : Nibble) (arg : Byte) : argField (cmdWord op arg) = arg := by
  ext i hi
  simp [argField, cmdWord, hi]
  omega

@[simp] theorem opField_cmdWord (op : Nibble) (arg : Byte) : opField (cmdWord op arg) = op := by
  ext i hi
  have h1 : 8 + i < 12 := by omega
  simp [opField, cmdWord, h1, BitVec.getLsbD_eq_getElem hi]

@[simp] theorem cmdWord_fields (cw : CmdWord) : cmdWord (opField cw) (argField cw) = cw := by
  ext i hi
  by_cases h : i < 8
  · simp [opField, argField, cmdWord, h, BitVec.getLsbD_eq_getElem hi]
  · have h1 : i - 8 < 4 := by omega
    have h2 : 8 + (i - 8) = i := by omega
    simp [opField, argField, cmdWord, h, h1, h2, BitVec.getLsbD_eq_getElem hi]

theorem toNat_cmdWord (op : Nibble) (arg : Byte) : (cmdWord op arg).toNat = op.toNat * 256 + arg.toNat := by
  have ha := arg.isLt
  have ho := op.isLt
  have h1 : op.toNat % 4096 = op.toNat := Nat.mod_eq_of_lt (by omega)
  have h2 : arg.toNat % 4096 = arg.toNat := Nat.mod_eq_of_lt (by omega)
  have h3 : op.toNat <<< 8 % 4096 = op.toNat <<< 8 := Nat.mod_eq_of_lt (by rw [Nat.shiftLeft_eq]; omega)
  simp only [cmdWord, BitVec.toNat_or, BitVec.toNat_shiftLeft, BitVec.toNat_setWidth, Nat.reducePow, h1, h2, h3]
  rw [← Nat.shiftLeft_add_eq_or_of_lt (by simpa using ha), Nat.shiftLeft_eq]

/-! ### Decoders -/

@[simp] theorem decodeCmd_cmdWord (op : Nibble) (arg : Byte) : decodeCmd (cmdWord op arg) = instrOfOp op arg := by
  simp [decodeCmd]

@[simp] theorem decodeWire_byteOf (tag value : Nibble) : decodeWire (byteOf tag value) = instrOfTag tag value := by
  simp [decodeWire]

theorem decode_cw12 (cw : CmdWord) : decode .cw12 cw.toNat = .ok (decodeCmd cw) := by
  have h := cw.isLt
  simp [decode, Format.width, h]

/-- The word `op << 8 | arg` of R70, as a number. -/
theorem decode_cw12_fields (op : Nibble) (arg : Byte) :
    decode .cw12 (op.toNat * 256 + arg.toNat) = .ok (instrOfOp op arg) := by
  rw [← toNat_cmdWord, decode_cw12, decodeCmd_cmdWord]

theorem decode_wire8 (b : Byte) : decode .wire8 b.toNat = .ok (decodeWire b) := by
  have h := b.isLt
  simp [decode, Format.width, h]

theorem decode_proto8 (b : Byte) (i : Instr) : decode .proto8 b.toNat = .ok i ↔ decodeProto b = some i := by
  have h := b.isLt
  cases hp : decodeProto b <;> simp [decode, Format.width, h, hp]

end Sys2Proof
end

