-- ==== Sys2Proof/Laws/Codec.lean ====
section
/-! SUPPORT. The codec's functions: the tag nibbles of a pair, when a pair is accepted, the checksum over a
concatenation, the length of a frame, and exactly which byte lists decode to `Success`. -/

namespace Sys2Proof.Machine

/-- The tag nibble of the high byte of a pair (R133). -/
def highTag : TagType → Nibble
  | .cmd => 0x4#4
  | .data => 0x5#4
  | .ck => 0x6#4

/-- The tag nibble of the low byte of a pair (R133). -/
def lowTag : TagType → Nibble
  | .cmd => 0x0#4
  | .data => 0x1#4
  | .ck => 0x2#4

/-- R69: a tagged pair by its nibbles. -/
theorem tagPair_eq (v : Byte) (t : TagType) :
    tagPair v t = [byteOf (highTag t) (hi4 v), byteOf (lowTag t) (lo4 v)] := by
  cases t <;> revert v <;> decide

/-- R68: the start byte by its nibbles. -/
theorem startByte_eq (a : Nibble) : startByte a = byteOf 0x8#4 a := by
  revert a; decide

@[simp] theorem tagPair_length (v : Byte) (t : TagType) : (tagPair v t).length = 2 := rfl

/-- R133: a pair is accepted exactly when both tag nibbles are the expected ones, and gives its value nibbles. -/
theorem untag_eq_some_iff (h l : Byte) (t : TagType) (v : Byte) :
    untag h l t = some v ↔ h = byteOf (highTag t) (hi4 v) ∧ l = byteOf (lowTag t) (lo4 v) := by
  have key : untag h l t = if hi4 h = highTag t ∧ hi4 l = lowTag t then some (byteOf (lo4 h) (lo4 l)) else none := by
    have hh : 0x4#4 ||| hi4 (tagCode t) = highTag t := by cases t <;> decide
    have hl : 0x0#4 ||| hi4 (tagCode t) = lowTag t := by cases t <;> decide
    by_cases h1 : hi4 h = highTag t <;> by_cases h2 : hi4 l = lowTag t <;> simp [untag, hh, hl, h1, h2]
  rw [key, eq_byteOf_iff, eq_byteOf_iff]
  constructor
  · intro hs
    split at hs
    · next hc => cases hs; simp [hc.1, hc.2]
    · cases hs
  · rintro ⟨⟨h1, h2⟩, h3, h4⟩
    simp [h1, h3, h2, h4]

@[simp] theorem untag_tagged (v : Byte) (t : TagType) :
    untag (byteOf (highTag t) (hi4 v)) (byteOf (lowTag t) (lo4 v)) t = some v :=
  (untag_eq_some_iff _ _ _ _).2 ⟨rfl, rfl⟩

/-- R133: a wrong tag nibble in either half fails. -/
theorem untag_eq_none_of_tags (h l : Byte) (t : TagType) (hne : hi4 h ≠ highTag t ∨ hi4 l ≠ lowTag t) :
    untag h l t = none := by
  cases hu : untag h l t with
  | none => rfl
  | some v =>
    obtain ⟨rfl, rfl⟩ := (untag_eq_some_iff _ _ _ _).1 hu
    simp at hne

/-! ### The checksum -/

@[simp] theorem sum8_nil : sum8 [] = 0x00#8 := rfl
@[simp] theorem sum8_cons (b : Byte) (l : List Byte) : sum8 (b :: l) = b + sum8 l := rfl

@[simp] theorem sum8_append (l m : List Byte) : sum8 (l ++ m) = sum8 l + sum8 m := by
  induction l with
  | nil => simp
  | cons b l ih => simp [ih, BitVec.add_assoc]

/-! ### The payload -/

/-- The data pairs of a payload. -/
def dataPairs (p : List Byte) : List Byte := p.flatMap (fun d => tagPair d .data)

@[simp] theorem dataPairs_nil : dataPairs [] = [] := rfl

@[simp] theorem dataPairs_cons (d : Byte) (p : List Byte) : dataPairs (d :: p) = tagPair d .data ++ dataPairs p := rfl

@[simp] theorem dataPairs_append (p q : List Byte) : dataPairs (p ++ q) = dataPairs p ++ dataPairs q := by
  simp [dataPairs]

@[simp] theorem dataPairs_length (p : List Byte) : (dataPairs p).length = 2 * p.length := by
  induction p with
  | nil => rfl
  | cons d p ih => simp [ih]; omega

/-- R136: the payload loop accepts exactly the data pairs of a payload. -/
theorem untagPayload_eq_some_iff (l : List Byte) (p : List Byte) : untagPayload l = some p ↔ l = dataPairs p := by
  induction l using untagPayload.induct generalizing p with
  | case1 => cases p <;> simp [untagPayload, tagPair]
  | case2 b => cases p <;> simp [untagPayload, tagPair]
  | case3 h l rest hu =>
    have : ∀ d, ¬ (h = byteOf (highTag .data) (hi4 d) ∧ l = byteOf (lowTag .data) (lo4 d)) := fun d hd => by
      rw [(untag_eq_some_iff _ _ _ _).2 hd] at hu; cases hu
    cases p with
    | nil => simp [untagPayload, hu]
    | cons d p =>
      simp only [untagPayload, hu, reduceCtorEq, dataPairs_cons, tagPair_eq, List.cons_append, List.nil_append,
        List.cons.injEq, false_iff]
      rintro ⟨h1, h2, -⟩
      exact this d ⟨h1, h2⟩
  | case4 h l rest d hu hr ih =>
    obtain ⟨rfl, rfl⟩ := (untag_eq_some_iff _ _ _ _).1 hu
    cases p with
    | nil => simp [untagPayload, hr]
    | cons e p =>
      have := ih p
      simp only [hr, reduceCtorEq, false_iff] at this
      simp [untagPayload, hr, tagPair_eq, this]
  | case5 h l rest d hu ds hr ih =>
    obtain ⟨rfl, rfl⟩ := (untag_eq_some_iff _ _ _ _).1 hu
    have ihd := ih ds
    simp only [hr, true_iff] at ihd
    cases p with
    | nil => simp [untagPayload, hr]
    | cons e p =>
      have hp := ih p
      simp only [hr, Option.some.injEq] at hp
      simp only [untagPayload, untag_tagged, hr, Option.some.injEq, List.cons.injEq, dataPairs_cons, tagPair_eq,
        List.cons_append, List.nil_append, hp]
      constructor
      · rintro ⟨rfl, h⟩; exact ⟨rfl, rfl, h⟩
      · rintro ⟨h1, h2, h⟩
        have e1 : hi4 d = hi4 e := by have := congrArg lo4 h1; simpa using this
        have e2 : lo4 d = lo4 e := by have := congrArg lo4 h2; simpa using this
        exact ⟨by rw [← byteOf_hi4_lo4 d, e1, e2, byteOf_hi4_lo4], h⟩

/-! ### The frame -/

theorem frameBody_eq (a : Nibble) (c : Byte) (p : List Byte) :
    frameBody a c p = startByte a :: (tagPair c .cmd ++ dataPairs p) := rfl

@[simp] theorem frameBody_length (a : Nibble) (c : Byte) (p : List Byte) :
    (frameBody a c p).length = 2 * p.length + 3 := by
  simp [frameBody_eq]; omega

/-- R104: the length of a frame. -/
@[simp] theorem encodeFrame_length (a : Nibble) (c : Byte) (p : List Byte) :
    (encodeFrame a c p).length = 2 * p.length + 5 := by
  simp [encodeFrame]

@[simp] theorem encodeFrame_take (a : Nibble) (c : Byte) (p : List Byte) :
    (encodeFrame a c p).take (2 * p.length + 3) = frameBody a c p := by
  simp [encodeFrame]

/-- The body grows by a data pair at a time (R107). -/
theorem frameBody_snoc (a : Nibble) (c : Byte) (p : List Byte) (d : Byte) :
    frameBody a c (p ++ [d]) = frameBody a c p ++ tagPair d .data := by
  simp [frameBody_eq]

/-- R130 to R139: exactly which byte lists decode to `Success`. -/
theorem decodeFrame_success_iff (policy : CksumPolicy) (f : List Byte) (a : Nibble) (c : Byte) (p : List Byte) :
    decodeFrame policy f = .success a c p ↔
      ∃ (tag : Nibble) (k : Byte),
        f = (byteOf tag a :: (tagPair c .cmd ++ dataPairs p)) ++ tagPair k .ck ∧
        (policy = .enforce → k = sum8 (byteOf tag a :: (tagPair c .cmd ++ dataPairs p))) := by
  constructor
  · intro h
    unfold decodeFrame at h
    by_cases hlen : f.length < minFrame ∨ f.length % 2 = 0
    · rw [if_pos hlen] at h; cases h
    rw [if_neg hlen] at h
    cases hc : untag (f.getD 1 0#8) (f.getD 2 0#8) .cmd with
    | none => rw [hc] at h; cases h
    | some cmd =>
    cases hk : untag (f.getD (f.length - 2) 0#8) (f.getD (f.length - 1) 0#8) .ck with
    | none => rw [hc, hk] at h; cases h
    | some ck =>
    cases hp : untagPayload ((f.drop 3).take (f.length - 5)) with
    | none => rw [hc, hk, hp] at h; cases h
    | some pay =>
    rw [hc, hk, hp] at h
    simp only at h
    by_cases hpol : policy = .enforce ∧ sum8 (f.take (f.length - 2)) ≠ ck
    · rw [if_pos hpol] at h; cases h
    rw [if_neg hpol] at h
    simp only [ParseOutcome.success.injEq] at h
    obtain ⟨ha, rfl, rfl⟩ := h
    rw [untag_eq_some_iff] at hc hk
    rw [untagPayload_eq_some_iff] at hp
    replace hlen : ¬ (f.length < 5 ∨ f.length % 2 = 0) := hlen
    simp only [not_or] at hlen
    obtain ⟨h5, hodd⟩ := hlen
    have h3 : ∃ b0 b1 b2 rest, f = b0 :: b1 :: b2 :: rest := by
      match f, h5 with
      | [], h | [_], h | [_, _], h => simp at h
      | b0 :: b1 :: b2 :: rest, _ => exact ⟨b0, b1, b2, rest, rfl⟩
    obtain ⟨b0, b1, b2, rest, rfl⟩ := h3
    simp only [List.length_cons] at h5 hodd hk hp hpol
    simp only [List.getD_cons_succ, List.getD_cons_zero] at hc ha
    have hr : 2 ≤ rest.length := by omega
    have e1 : rest.length + 1 + 1 + 1 - 2 = rest.length - 2 + 1 + 1 + 1 := by omega
    have e2 : rest.length + 1 + 1 + 1 - 1 = rest.length - 1 + 1 + 1 + 1 := by omega
    have e3 : rest.length + 1 + 1 + 1 - 5 = rest.length - 2 := by omega
    rw [e1, e2] at hk
    simp only [List.getD_cons_succ] at hk
    rw [e3] at hp
    simp only [List.drop_succ_cons, List.drop_zero] at hp
    have hlast : rest.drop (rest.length - 2) = tagPair ck .ck := by
      have i1 : rest.length - 2 < rest.length := by omega
      have i2 : rest.length - 1 < rest.length := by omega
      rw [List.getD_eq_getElem _ _ i1, List.getD_eq_getElem _ _ i2] at hk
      rw [List.drop_eq_getElem_cons i1, tagPair_eq, hk.1]
      have e4 : rest.length - 2 + 1 = rest.length - 1 := by omega
      rw [e4, List.drop_eq_getElem_cons i2, hk.2, List.drop_eq_nil_of_le (by omega)]
    have hrest : rest = dataPairs pay ++ tagPair ck .ck := by
      rw [← hp, ← hlast, List.take_append_drop]
    refine ⟨hi4 b0, ck, ?_, ?_⟩
    · rw [← ha, byteOf_hi4_lo4, hc.1, hc.2, hrest, tagPair_eq cmd]
      simp
    · intro hpe
      simp only [hpe, true_and, not_not] at hpol
      rw [← hpol, e1, ← ha, byteOf_hi4_lo4]
      simp only [List.take_succ_cons]
      rw [hp, hc.1, hc.2, tagPair_eq cmd]
      simp
  · rintro ⟨tag, k, rfl, hk⟩
    have hlen : ((byteOf tag a :: (tagPair c .cmd ++ dataPairs p)) ++ tagPair k .ck).length = 2 * p.length + 5 := by
      simp; omega
    have ht : ((byteOf tag a :: (tagPair c .cmd ++ dataPairs p)) ++ tagPair k .ck).take (2 * p.length + 3) =
        byteOf tag a :: (tagPair c .cmd ++ dataPairs p) := by
      have : 2 * p.length + 3 = (byteOf tag a :: (tagPair c .cmd ++ dataPairs p)).length := by simp; omega
      rw [this, List.take_left']
      rfl
    have hd0 : ((byteOf tag a :: (tagPair c .cmd ++ dataPairs p)) ++ tagPair k .ck).getD 0 0#8 = byteOf tag a := rfl
    have hd1 : ((byteOf tag a :: (tagPair c .cmd ++ dataPairs p)) ++ tagPair k .ck).getD 1 0#8 =
        byteOf (highTag .cmd) (hi4 c) := by simp [tagPair_eq]
    have hd2 : ((byteOf tag a :: (tagPair c .cmd ++ dataPairs p)) ++ tagPair k .ck).getD 2 0#8 =
        byteOf (lowTag .cmd) (lo4 c) := by simp [tagPair_eq]
    have hk1 : ((byteOf tag a :: (tagPair c .cmd ++ dataPairs p)) ++ tagPair k .ck).getD (2 * p.length + 3) 0#8 =
        byteOf (highTag .ck) (hi4 k) := by
      rw [List.getD_append_right _ _ _ _ (by simp; omega)]
      simp only [List.length_cons, List.length_append, tagPair_length, dataPairs_length]
      simp [tagPair_eq, show ∀ n, 2 * n + 3 - (2 + 2 * n + 1) = 0 from fun n => by omega]
    have hk2 : ((byteOf tag a :: (tagPair c .cmd ++ dataPairs p)) ++ tagPair k .ck).getD (2 * p.length + 4) 0#8 =
        byteOf (lowTag .ck) (lo4 k) := by
      rw [List.getD_append_right _ _ _ _ (by simp; omega)]
      simp only [List.length_cons, List.length_append, tagPair_length, dataPairs_length]
      simp [tagPair_eq, show ∀ n, 2 * n + 4 - (2 + 2 * n + 1) = 1 from fun n => by omega]
    have hpay : (((byteOf tag a :: (tagPair c .cmd ++ dataPairs p)) ++ tagPair k .ck).drop 3).take (2 * p.length) =
        dataPairs p := by
      have : ((byteOf tag a :: (tagPair c .cmd ++ dataPairs p)) ++ tagPair k .ck).drop 3 =
          dataPairs p ++ tagPair k .ck := by simp [tagPair_eq]
      rw [this, List.take_append_of_le_length (by simp), List.take_of_length_le (by simp)]
    generalize (byteOf tag a :: (tagPair c .cmd ++ dataPairs p)) ++ tagPair k .ck = f at *
    unfold decodeFrame
    simp only [hlen]
    have n1 : ¬ (2 * p.length + 5 < minFrame ∨ (2 * p.length + 5) % 2 = 0) := by
      show ¬ (2 * p.length + 5 < 5 ∨ (2 * p.length + 5) % 2 = 0)
      omega
    have n2 : 2 * p.length + 5 - 2 = 2 * p.length + 3 := by omega
    have n3 : 2 * p.length + 5 - 1 = 2 * p.length + 4 := by omega
    have n4 : 2 * p.length + 5 - 5 = 2 * p.length := by omega
    rw [if_neg n1, n2, n3, n4, hd0, hd1, hd2, hk1, hk2, hpay, ht]
    simp only [untag_tagged, (untagPayload_eq_some_iff _ _).2 rfl, lo4_byteOf]
    rw [if_neg]
    rintro ⟨hpe, hne⟩
    exact hne (hk hpe).symm

/-- R130: a decoder outcome is a `Success` or carries the whole candidate, and `ChecksumError` needs ENFORCE. -/
theorem decodeFrame_cases (policy : CksumPolicy) (f : List Byte) :
    (∃ a c p, decodeFrame policy f = .success a c p) ∨ decodeFrame policy f = .sizeError f ∨
      decodeFrame policy f = .tagError f ∨
      (policy = .enforce ∧ decodeFrame policy f = .checksumError f) := by
  unfold decodeFrame
  simp only
  repeat' split
  all_goals simp_all

end Sys2Proof.Machine
end

