-- ==== Sys2Proof/Laws/State.lean ====
section
/-! SUPPORT. One lemma per field per update of the state, so that no later proof unfolds a record update. -/

namespace Sys2Proof.Machine

@[simp] theorem emit_cfg (bytes : List Byte) (s : State) : (emit bytes s).cfg = s.cfg := rfl
@[simp] theorem emit_encPhase (bytes : List Byte) (s : State) : (emit bytes s).encPhase = s.encPhase := rfl
@[simp] theorem emit_encAcc (bytes : List Byte) (s : State) : (emit bytes s).encAcc = s.encAcc := rfl
@[simp] theorem emit_rxBuf (bytes : List Byte) (s : State) : (emit bytes s).rxBuf = s.rxBuf := rfl
@[simp] theorem emit_stRxOvf (bytes : List Byte) (s : State) : (emit bytes s).stRxOvf = s.stRxOvf := rfl
@[simp] theorem emit_stEncSeq (bytes : List Byte) (s : State) : (emit bytes s).stEncSeq = s.stEncSeq := rfl
@[simp] theorem emit_stOpIll (bytes : List Byte) (s : State) : (emit bytes s).stOpIll = s.stOpIll := rfl
@[simp] theorem emit_tx (bytes : List Byte) (s : State) : (emit bytes s).tx = s.tx ++ bytes := rfl
@[simp] theorem emit_resp (bytes : List Byte) (s : State) : (emit bytes s).resp = s.resp := rfl
@[simp] theorem emit_inputs (bytes : List Byte) (s : State) : (emit bytes s).inputs = s.inputs := rfl
@[simp] theorem emit_host (bytes : List Byte) (s : State) : (emit bytes s).host = s.host := rfl

@[simp] theorem respond_cfg (code : RespCode) (data : Byte) (s : State) : (respond code data s).cfg = s.cfg := rfl
@[simp] theorem respond_encPhase (code : RespCode) (data : Byte) (s : State) : (respond code data s).encPhase = s.encPhase := rfl
@[simp] theorem respond_encAcc (code : RespCode) (data : Byte) (s : State) : (respond code data s).encAcc = s.encAcc := rfl
@[simp] theorem respond_rxBuf (code : RespCode) (data : Byte) (s : State) : (respond code data s).rxBuf = s.rxBuf := rfl
@[simp] theorem respond_stRxOvf (code : RespCode) (data : Byte) (s : State) : (respond code data s).stRxOvf = s.stRxOvf := rfl
@[simp] theorem respond_stEncSeq (code : RespCode) (data : Byte) (s : State) : (respond code data s).stEncSeq = s.stEncSeq := rfl
@[simp] theorem respond_stOpIll (code : RespCode) (data : Byte) (s : State) : (respond code data s).stOpIll = s.stOpIll := rfl
@[simp] theorem respond_tx (code : RespCode) (data : Byte) (s : State) : (respond code data s).tx = s.tx := rfl
@[simp] theorem respond_resp (code : RespCode) (data : Byte) (s : State) : (respond code data s).resp = some { code := code, data := data, outcome := none } := rfl
@[simp] theorem respond_inputs (code : RespCode) (data : Byte) (s : State) : (respond code data s).inputs = s.inputs := rfl
@[simp] theorem respond_host (code : RespCode) (data : Byte) (s : State) : (respond code data s).host = s.host := rfl

@[simp] theorem respondOutcome_cfg (o : ParseOutcome) (s : State) : (respondOutcome o s).cfg = s.cfg := rfl
@[simp] theorem respondOutcome_encPhase (o : ParseOutcome) (s : State) : (respondOutcome o s).encPhase = s.encPhase := rfl
@[simp] theorem respondOutcome_encAcc (o : ParseOutcome) (s : State) : (respondOutcome o s).encAcc = s.encAcc := rfl
@[simp] theorem respondOutcome_rxBuf (o : ParseOutcome) (s : State) : (respondOutcome o s).rxBuf = s.rxBuf := rfl
@[simp] theorem respondOutcome_stRxOvf (o : ParseOutcome) (s : State) : (respondOutcome o s).stRxOvf = s.stRxOvf := rfl
@[simp] theorem respondOutcome_stEncSeq (o : ParseOutcome) (s : State) : (respondOutcome o s).stEncSeq = s.stEncSeq := rfl
@[simp] theorem respondOutcome_stOpIll (o : ParseOutcome) (s : State) : (respondOutcome o s).stOpIll = s.stOpIll := rfl
@[simp] theorem respondOutcome_tx (o : ParseOutcome) (s : State) : (respondOutcome o s).tx = s.tx := rfl
@[simp] theorem respondOutcome_resp (o : ParseOutcome) (s : State) : (respondOutcome o s).resp = some { code := .ok, data := kindCode o, outcome := some o } := rfl
@[simp] theorem respondOutcome_inputs (o : ParseOutcome) (s : State) : (respondOutcome o s).inputs = s.inputs := rfl
@[simp] theorem respondOutcome_host (o : ParseOutcome) (s : State) : (respondOutcome o s).host = s.host := rfl

@[simp] theorem setPhase_cfg (p : EncPhase) (s : State) : (setPhase p s).cfg = s.cfg := rfl
@[simp] theorem setPhase_encPhase (p : EncPhase) (s : State) : (setPhase p s).encPhase = p := rfl
@[simp] theorem setPhase_encAcc (p : EncPhase) (s : State) : (setPhase p s).encAcc = s.encAcc := rfl
@[simp] theorem setPhase_rxBuf (p : EncPhase) (s : State) : (setPhase p s).rxBuf = s.rxBuf := rfl
@[simp] theorem setPhase_stRxOvf (p : EncPhase) (s : State) : (setPhase p s).stRxOvf = s.stRxOvf := rfl
@[simp] theorem setPhase_stEncSeq (p : EncPhase) (s : State) : (setPhase p s).stEncSeq = s.stEncSeq := rfl
@[simp] theorem setPhase_stOpIll (p : EncPhase) (s : State) : (setPhase p s).stOpIll = s.stOpIll := rfl
@[simp] theorem setPhase_tx (p : EncPhase) (s : State) : (setPhase p s).tx = s.tx := rfl
@[simp] theorem setPhase_resp (p : EncPhase) (s : State) : (setPhase p s).resp = s.resp := rfl
@[simp] theorem setPhase_inputs (p : EncPhase) (s : State) : (setPhase p s).inputs = s.inputs := rfl
@[simp] theorem setPhase_host (p : EncPhase) (s : State) : (setPhase p s).host = s.host := rfl

@[simp] theorem setAcc_cfg (a : Byte) (s : State) : (setAcc a s).cfg = s.cfg := rfl
@[simp] theorem setAcc_encPhase (a : Byte) (s : State) : (setAcc a s).encPhase = s.encPhase := rfl
@[simp] theorem setAcc_encAcc (a : Byte) (s : State) : (setAcc a s).encAcc = a := rfl
@[simp] theorem setAcc_rxBuf (a : Byte) (s : State) : (setAcc a s).rxBuf = s.rxBuf := rfl
@[simp] theorem setAcc_stRxOvf (a : Byte) (s : State) : (setAcc a s).stRxOvf = s.stRxOvf := rfl
@[simp] theorem setAcc_stEncSeq (a : Byte) (s : State) : (setAcc a s).stEncSeq = s.stEncSeq := rfl
@[simp] theorem setAcc_stOpIll (a : Byte) (s : State) : (setAcc a s).stOpIll = s.stOpIll := rfl
@[simp] theorem setAcc_tx (a : Byte) (s : State) : (setAcc a s).tx = s.tx := rfl
@[simp] theorem setAcc_resp (a : Byte) (s : State) : (setAcc a s).resp = s.resp := rfl
@[simp] theorem setAcc_inputs (a : Byte) (s : State) : (setAcc a s).inputs = s.inputs := rfl
@[simp] theorem setAcc_host (a : Byte) (s : State) : (setAcc a s).host = s.host := rfl

@[simp] theorem setRx_cfg (buf : List Byte) (s : State) : (setRx buf s).cfg = s.cfg := rfl
@[simp] theorem setRx_encPhase (buf : List Byte) (s : State) : (setRx buf s).encPhase = s.encPhase := rfl
@[simp] theorem setRx_encAcc (buf : List Byte) (s : State) : (setRx buf s).encAcc = s.encAcc := rfl
@[simp] theorem setRx_rxBuf (buf : List Byte) (s : State) : (setRx buf s).rxBuf = buf := rfl
@[simp] theorem setRx_stRxOvf (buf : List Byte) (s : State) : (setRx buf s).stRxOvf = s.stRxOvf := rfl
@[simp] theorem setRx_stEncSeq (buf : List Byte) (s : State) : (setRx buf s).stEncSeq = s.stEncSeq := rfl
@[simp] theorem setRx_stOpIll (buf : List Byte) (s : State) : (setRx buf s).stOpIll = s.stOpIll := rfl
@[simp] theorem setRx_tx (buf : List Byte) (s : State) : (setRx buf s).tx = s.tx := rfl
@[simp] theorem setRx_resp (buf : List Byte) (s : State) : (setRx buf s).resp = s.resp := rfl
@[simp] theorem setRx_inputs (buf : List Byte) (s : State) : (setRx buf s).inputs = s.inputs := rfl
@[simp] theorem setRx_host (buf : List Byte) (s : State) : (setRx buf s).host = s.host := rfl

@[simp] theorem setSticky_cfg (x y z : Bool) (s : State) : (setSticky x y z s).cfg = s.cfg := rfl
@[simp] theorem setSticky_encPhase (x y z : Bool) (s : State) : (setSticky x y z s).encPhase = s.encPhase := rfl
@[simp] theorem setSticky_encAcc (x y z : Bool) (s : State) : (setSticky x y z s).encAcc = s.encAcc := rfl
@[simp] theorem setSticky_rxBuf (x y z : Bool) (s : State) : (setSticky x y z s).rxBuf = s.rxBuf := rfl
@[simp] theorem setSticky_stRxOvf (x y z : Bool) (s : State) : (setSticky x y z s).stRxOvf = x := rfl
@[simp] theorem setSticky_stEncSeq (x y z : Bool) (s : State) : (setSticky x y z s).stEncSeq = y := rfl
@[simp] theorem setSticky_stOpIll (x y z : Bool) (s : State) : (setSticky x y z s).stOpIll = z := rfl
@[simp] theorem setSticky_tx (x y z : Bool) (s : State) : (setSticky x y z s).tx = s.tx := rfl
@[simp] theorem setSticky_resp (x y z : Bool) (s : State) : (setSticky x y z s).resp = s.resp := rfl
@[simp] theorem setSticky_inputs (x y z : Bool) (s : State) : (setSticky x y z s).inputs = s.inputs := rfl
@[simp] theorem setSticky_host (x y z : Bool) (s : State) : (setSticky x y z s).host = s.host := rfl

@[simp] theorem setInputs_cfg (q : List Input) (s : State) : (setInputs q s).cfg = s.cfg := rfl
@[simp] theorem setInputs_encPhase (q : List Input) (s : State) : (setInputs q s).encPhase = s.encPhase := rfl
@[simp] theorem setInputs_encAcc (q : List Input) (s : State) : (setInputs q s).encAcc = s.encAcc := rfl
@[simp] theorem setInputs_rxBuf (q : List Input) (s : State) : (setInputs q s).rxBuf = s.rxBuf := rfl
@[simp] theorem setInputs_stRxOvf (q : List Input) (s : State) : (setInputs q s).stRxOvf = s.stRxOvf := rfl
@[simp] theorem setInputs_stEncSeq (q : List Input) (s : State) : (setInputs q s).stEncSeq = s.stEncSeq := rfl
@[simp] theorem setInputs_stOpIll (q : List Input) (s : State) : (setInputs q s).stOpIll = s.stOpIll := rfl
@[simp] theorem setInputs_tx (q : List Input) (s : State) : (setInputs q s).tx = s.tx := rfl
@[simp] theorem setInputs_resp (q : List Input) (s : State) : (setInputs q s).resp = s.resp := rfl
@[simp] theorem setInputs_inputs (q : List Input) (s : State) : (setInputs q s).inputs = q := rfl
@[simp] theorem setInputs_host (q : List Input) (s : State) : (setInputs q s).host = s.host := rfl

@[simp] theorem setHost_cfg (h : HostState) (s : State) : (setHost h s).cfg = s.cfg := rfl
@[simp] theorem setHost_encPhase (h : HostState) (s : State) : (setHost h s).encPhase = s.encPhase := rfl
@[simp] theorem setHost_encAcc (h : HostState) (s : State) : (setHost h s).encAcc = s.encAcc := rfl
@[simp] theorem setHost_rxBuf (h : HostState) (s : State) : (setHost h s).rxBuf = s.rxBuf := rfl
@[simp] theorem setHost_stRxOvf (h : HostState) (s : State) : (setHost h s).stRxOvf = s.stRxOvf := rfl
@[simp] theorem setHost_stEncSeq (h : HostState) (s : State) : (setHost h s).stEncSeq = s.stEncSeq := rfl
@[simp] theorem setHost_stOpIll (h : HostState) (s : State) : (setHost h s).stOpIll = s.stOpIll := rfl
@[simp] theorem setHost_tx (h : HostState) (s : State) : (setHost h s).tx = s.tx := rfl
@[simp] theorem setHost_resp (h : HostState) (s : State) : (setHost h s).resp = s.resp := rfl
@[simp] theorem setHost_inputs (h : HostState) (s : State) : (setHost h s).inputs = s.inputs := rfl
@[simp] theorem setHost_host (h : HostState) (s : State) : (setHost h s).host = h := rfl

@[simp] theorem rejectSeq_cfg (s : State) : (rejectSeq s).cfg = s.cfg := rfl
@[simp] theorem rejectSeq_encPhase (s : State) : (rejectSeq s).encPhase = s.encPhase := rfl
@[simp] theorem rejectSeq_encAcc (s : State) : (rejectSeq s).encAcc = s.encAcc := rfl
@[simp] theorem rejectSeq_rxBuf (s : State) : (rejectSeq s).rxBuf = s.rxBuf := rfl
@[simp] theorem rejectSeq_stRxOvf (s : State) : (rejectSeq s).stRxOvf = s.stRxOvf := rfl
@[simp] theorem rejectSeq_stEncSeq (s : State) : (rejectSeq s).stEncSeq = true := rfl
@[simp] theorem rejectSeq_stOpIll (s : State) : (rejectSeq s).stOpIll = s.stOpIll := rfl
@[simp] theorem rejectSeq_tx (s : State) : (rejectSeq s).tx = s.tx := rfl
@[simp] theorem rejectSeq_resp (s : State) : (rejectSeq s).resp = some { code := .seq, data := 0x00#8, outcome := none } := rfl
@[simp] theorem rejectSeq_inputs (s : State) : (rejectSeq s).inputs = s.inputs := rfl
@[simp] theorem rejectSeq_host (s : State) : (rejectSeq s).host = s.host := rfl

@[simp] theorem blockReset_cfg (s : State) : (blockReset s).cfg = s.cfg := rfl
@[simp] theorem blockReset_encPhase (s : State) : (blockReset s).encPhase = .idle := rfl
@[simp] theorem blockReset_encAcc (s : State) : (blockReset s).encAcc = 0x00#8 := rfl
@[simp] theorem blockReset_rxBuf (s : State) : (blockReset s).rxBuf = [] := rfl
@[simp] theorem blockReset_stRxOvf (s : State) : (blockReset s).stRxOvf = false := rfl
@[simp] theorem blockReset_stEncSeq (s : State) : (blockReset s).stEncSeq = false := rfl
@[simp] theorem blockReset_stOpIll (s : State) : (blockReset s).stOpIll = false := rfl
@[simp] theorem blockReset_tx (s : State) : (blockReset s).tx = s.tx := rfl
@[simp] theorem blockReset_resp (s : State) : (blockReset s).resp = none := rfl
@[simp] theorem blockReset_inputs (s : State) : (blockReset s).inputs = s.inputs := rfl
@[simp] theorem blockReset_host (s : State) : (blockReset s).host = s.host := rfl

@[simp] theorem emitEvents_cfg (es : List Event) (s : State) : (emitEvents es s).cfg = s.cfg := rfl
@[simp] theorem emitEvents_encPhase (es : List Event) (s : State) : (emitEvents es s).encPhase = s.encPhase := rfl
@[simp] theorem emitEvents_encAcc (es : List Event) (s : State) : (emitEvents es s).encAcc = s.encAcc := rfl
@[simp] theorem emitEvents_rxBuf (es : List Event) (s : State) : (emitEvents es s).rxBuf = s.rxBuf := rfl
@[simp] theorem emitEvents_stRxOvf (es : List Event) (s : State) : (emitEvents es s).stRxOvf = s.stRxOvf := rfl
@[simp] theorem emitEvents_stEncSeq (es : List Event) (s : State) : (emitEvents es s).stEncSeq = s.stEncSeq := rfl
@[simp] theorem emitEvents_stOpIll (es : List Event) (s : State) : (emitEvents es s).stOpIll = s.stOpIll := rfl
@[simp] theorem emitEvents_tx (es : List Event) (s : State) : (emitEvents es s).tx = s.tx := rfl
@[simp] theorem emitEvents_resp (es : List Event) (s : State) : (emitEvents es s).resp = s.resp := rfl
@[simp] theorem emitEvents_inputs (es : List Event) (s : State) : (emitEvents es s).inputs = s.inputs := rfl
@[simp] theorem emitEvents_host (es : List Event) (s : State) : (emitEvents es s).host = { s.host with events := s.host.events ++ es } := rfl

@[simp] theorem drawNotices_cfg (pt : NoticePoint) (s : State) : (drawNotices pt s).cfg = s.cfg := rfl
@[simp] theorem drawNotices_encPhase (pt : NoticePoint) (s : State) : (drawNotices pt s).encPhase = s.encPhase := rfl
@[simp] theorem drawNotices_encAcc (pt : NoticePoint) (s : State) : (drawNotices pt s).encAcc = s.encAcc := rfl
@[simp] theorem drawNotices_rxBuf (pt : NoticePoint) (s : State) : (drawNotices pt s).rxBuf = s.rxBuf := rfl
@[simp] theorem drawNotices_stRxOvf (pt : NoticePoint) (s : State) : (drawNotices pt s).stRxOvf = s.stRxOvf := rfl
@[simp] theorem drawNotices_stEncSeq (pt : NoticePoint) (s : State) : (drawNotices pt s).stEncSeq = s.stEncSeq := rfl
@[simp] theorem drawNotices_stOpIll (pt : NoticePoint) (s : State) : (drawNotices pt s).stOpIll = s.stOpIll := rfl
@[simp] theorem drawNotices_tx (pt : NoticePoint) (s : State) : (drawNotices pt s).tx = s.tx := rfl
@[simp] theorem drawNotices_resp (pt : NoticePoint) (s : State) : (drawNotices pt s).resp = s.resp := rfl
@[simp] theorem drawNotices_inputs (pt : NoticePoint) (s : State) : (drawNotices pt s).inputs = s.inputs := rfl
@[simp] theorem drawNotices_host (pt : NoticePoint) (s : State) : (drawNotices pt s).host = { s.host with events := s.host.events ++ (Config.notices s.host.draws pt).map Event.notice, draws := s.host.draws + 1 } := rfl

/-- Two states with equal fields are equal. -/
theorem state_ext {s t : State} (h1 : s.cfg = t.cfg) (h2 : s.encPhase = t.encPhase) (h3 : s.encAcc = t.encAcc)
    (h4 : s.rxBuf = t.rxBuf) (h5 : s.stRxOvf = t.stRxOvf) (h6 : s.stEncSeq = t.stEncSeq)
    (h7 : s.stOpIll = t.stOpIll) (h8 : s.tx = t.tx) (h9 : s.resp = t.resp) (h10 : s.inputs = t.inputs)
    (h11 : s.host = t.host) : s = t := by
  cases s; cases t; simp_all

end Sys2Proof.Machine
end

