-- ==== Sys2Proof/Laws/Synchronizer.lean ====
section
/-! SUPPORT. One PARSE has four cases and no other (R160); more bytes at the end of the buffer change no outcome that
removes bytes; what a drain and a chunk-by-chunk feed do. -/

namespace Sys2Proof.Machine

/-! ### Scans -/

/-- A list has no element with `q`, or splits at the first one. -/
theorem split_first (q : Byte → Bool) (l : List Byte) :
    (∀ x ∈ l, q x = false) ∨ ∃ g b rest, l = g ++ b :: rest ∧ (∀ x ∈ g, q x = false) ∧ q b = true := by
  induction l with
  | nil => left; simp
  | cons b l ih =>
    cases hb : q b with
    | true => right; exact ⟨[], b, l, rfl, by simp, hb⟩
    | false =>
      rcases ih with h | ⟨g, e, rest, rfl, hg, he⟩
      · left; simpa [hb] using h
      · right; exact ⟨b :: g, e, rest, rfl, by simpa [hb] using hg, he⟩

theorem findIdx?_of_none (q : Byte → Bool) (l : List Byte) (h : ∀ x ∈ l, q x = false) : l.findIdx? q = none := by
  simpa [List.findIdx?_eq_none_iff] using h

theorem findIdx?_of_split (q : Byte → Bool) (g : List Byte) (b : Byte) (rest : List Byte)
    (hg : ∀ x ∈ g, q x = false) (hb : q b = true) : (g ++ b :: rest).findIdx? q = some g.length := by
  rw [List.findIdx?_append, findIdx?_of_none q g hg]
  simp [List.findIdx?_cons, hb]

/-! ### The four cases of PARSE (R160) -/

/-- R154: no start byte. -/
theorem parseBuffer_noStart (policy : CksumPolicy) (buf : List Byte) (h : ∀ x ∈ buf, isStart x = false) :
    parseBuffer policy buf = (.needMoreData, buf) := by
  simp [parseBuffer, findIdx?_of_none _ _ h]

/-- R155: garbage before the first start byte. -/
theorem parseBuffer_garbage (policy : CksumPolicy) (g : List Byte) (b : Byte) (rest : List Byte) (hg0 : g ≠ [])
    (hg : ∀ x ∈ g, isStart x = false) (hb : isStart b = true) :
    parseBuffer policy (g ++ b :: rest) = (.skipped g, b :: rest) := by
  cases g with
  | nil => exact absurd rfl hg0
  | cons x g =>
    have := findIdx?_of_split _ _ _ rest hg hb
    simp only [List.length_cons, List.cons_append] at this
    simp [parseBuffer, this]

/-- R157: a start byte and no end tag. -/
theorem parseBuffer_incomplete (policy : CksumPolicy) (b : Byte) (rest : List Byte) (hb : isStart b = true)
    (h : ∀ x ∈ rest, isEndTag x = false) : parseBuffer policy (b :: rest) = (.needMoreData, b :: rest) := by
  have hbe : isEndTag b = false := by revert hb; revert b; decide
  have h1 : (b :: rest).findIdx? isStart = some 0 := findIdx?_of_split isStart [] b rest (by simp) hb
  have h2 : (b :: rest).findIdx? isEndTag = none := findIdx?_of_none _ _ (by simpa [hbe] using h)
  simp [parseBuffer, h1, h2]

/-- R158: a candidate from the start byte through the first end tag. -/
theorem parseBuffer_candidate (policy : CksumPolicy) (b : Byte) (m : List Byte) (e : Byte) (rest : List Byte)
    (hb : isStart b = true) (hm : ∀ x ∈ m, isEndTag x = false) (he : isEndTag e = true) :
    parseBuffer policy (b :: (m ++ e :: rest)) = (decodeFrame policy (b :: (m ++ [e])), rest) := by
  have hbe : isEndTag b = false := by revert hb; revert b; decide
  have h1 : (b :: (m ++ e :: rest)).findIdx? isStart = some 0 := findIdx?_of_split isStart [] b _ (by simp) hb
  have h2 : (b :: (m ++ e :: rest)).findIdx? isEndTag = some (m.length + 1) := by
    have := findIdx?_of_split isEndTag (b :: m) e rest (by simpa [hbe] using hm) he
    simpa using this
  have h3 : (m ++ e :: rest).take (m.length + 1) = m ++ [e] := by
    rw [List.take_append, List.take_of_length_le (by omega)]; simp
  simp [parseBuffer, h1, h2, h3, List.drop_append]

/-- One PARSE is one of the four cases. -/
theorem parseBuffer_cases (buf : List Byte) :
    (∀ x ∈ buf, isStart x = false) ∨
    (∃ g b rest, buf = g ++ b :: rest ∧ g ≠ [] ∧ (∀ x ∈ g, isStart x = false) ∧ isStart b = true) ∨
    (∃ b rest, buf = b :: rest ∧ isStart b = true ∧ ∀ x ∈ rest, isEndTag x = false) ∨
    (∃ b m e rest, buf = b :: (m ++ e :: rest) ∧ isStart b = true ∧ (∀ x ∈ m, isEndTag x = false) ∧
      isEndTag e = true) := by
  rcases split_first isStart buf with h | ⟨g, b, rest, rfl, hg, hb⟩
  · exact .inl h
  · cases g with
    | cons x g => exact .inr (.inl ⟨x :: g, b, rest, rfl, by simp, hg, hb⟩)
    | nil =>
      rcases split_first isEndTag rest with h | ⟨m, e, r, rfl, hm, he⟩
      · exact .inr (.inr (.inl ⟨b, rest, rfl, hb, h⟩))
      · exact .inr (.inr (.inr ⟨b, m, e, r, rfl, hb, hm, he⟩))

/-- The decoder never answers `NeedMoreData` (R130). -/
theorem decodeFrame_ne_needMoreData (policy : CksumPolicy) (f : List Byte) :
    decodeFrame policy f ≠ .needMoreData := by
  rcases decodeFrame_cases policy f with ⟨a, c, p, h⟩ | h | h | ⟨-, h⟩ <;> rw [h] <;> simp

/-- `NeedMoreData` leaves the buffer, and every other outcome removes at least one byte (R162). -/
theorem parseBuffer_shorter (policy : CksumPolicy) (buf : List Byte) :
    ((parseBuffer policy buf).1 = .needMoreData → (parseBuffer policy buf).2 = buf) ∧
    ((parseBuffer policy buf).1 ≠ .needMoreData → (parseBuffer policy buf).2.length < buf.length) := by
  rcases parseBuffer_cases buf with h | ⟨g, b, rest, rfl, h0, hg, hb⟩ | ⟨b, rest, rfl, hb, h⟩ |
    ⟨b, m, e, rest, rfl, hb, hm, he⟩
  · simp [parseBuffer_noStart policy buf h]
  · have : 0 < g.length := List.length_pos_iff.2 h0
    simp [parseBuffer_garbage policy g b rest h0 hg hb]; omega
  · simp [parseBuffer_incomplete policy b rest hb h]
  · rw [parseBuffer_candidate policy b m e rest hb hm he]
    simp [decodeFrame_ne_needMoreData]; omega

/-- More bytes at the end change no outcome that removes bytes: it is the same, and they stay at the end. -/
theorem parseBuffer_append (policy : CksumPolicy) (buf more : List Byte)
    (h : (parseBuffer policy buf).1 ≠ .needMoreData) :
    parseBuffer policy (buf ++ more) = ((parseBuffer policy buf).1, (parseBuffer policy buf).2 ++ more) := by
  rcases parseBuffer_cases buf with hs | ⟨g, b, rest, rfl, h0, hg, hb⟩ | ⟨b, rest, rfl, hb, hr⟩ |
    ⟨b, m, e, rest, rfl, hb, hm, he⟩
  · simp [parseBuffer_noStart policy buf hs] at h
  · rw [parseBuffer_garbage policy g b rest h0 hg hb]
    simpa using parseBuffer_garbage policy g b (rest ++ more) h0 hg hb
  · simp [parseBuffer_incomplete policy b rest hb hr] at h
  · rw [parseBuffer_candidate policy b m e rest hb hm he]
    simpa using parseBuffer_candidate policy b m e (rest ++ more) hb hm he

/-! ### RX_PUSH (R151) -/

/-- RX_PUSH drops the byte on a full buffer and appends it otherwise. -/
theorem rxPushOp_cases (b : Byte) (s : State) :
    (s.cfg.rxCap = .bytes s.rxBuf.length ∧
      rxPushOp b s = { s with stRxOvf := true, resp := some ⟨.full, 0x00#8, none⟩ }) ∨
    (s.cfg.rxCap ≠ .bytes s.rxBuf.length ∧
      rxPushOp b s = { s with rxBuf := s.rxBuf ++ [b], resp := some ⟨.ok, 0x00#8, none⟩ }) := by
  cases hc : s.cfg.rxCap with
  | unbounded => right; simp [rxPushOp, rxFull, hc, respond, setRx]
  | bytes n =>
    by_cases h : s.rxBuf.length = n
    · left; simp [rxPushOp, rxFull, hc, h, respond, markOverflow, setSticky]
    · right
      refine ⟨fun e => h (by injection e with e; exact e.symm), ?_⟩
      simp [rxPushOp, rxFull, hc, h, respond, setRx]

/-- PARSE writes the buffer and the response. -/
theorem parseOp_eq (s : State) :
    parseOp s = { s with
      rxBuf := (parseBuffer s.cfg.cksumPolicy s.rxBuf).2
      resp := some ⟨.ok, kindCode (parseOutcome s), some (parseOutcome s)⟩ } := rfl

end Sys2Proof.Machine
end

