-- ==== Sys2Proof/Laws/Drain.lean ====
section
/-! SUPPORT. The drain as a function of the buffer alone (R165), that it stops with nothing more to give, and that
draining a longer buffer is draining its head and then the rest. -/

namespace Sys2Proof.Machine

/-- A drain of a buffer: the outcomes that remove bytes, and the buffer left. -/
def drainBuf (policy : CksumPolicy) : Nat → List Byte → List ParseOutcome × List Byte
  | 0, buf => ([], buf)
  | fuel + 1, buf =>
    match (parseBuffer policy buf).1 with
    | .needMoreData => ([], buf)
    | o => (o :: (drainBuf policy fuel (parseBuffer policy buf).2).1, (drainBuf policy fuel (parseBuffer policy buf).2).2)

/-- A drain with enough fuel. -/
def drainAll (policy : CksumPolicy) (buf : List Byte) : List ParseOutcome × List Byte :=
  drainBuf policy (buf.length + 1) buf

theorem drainBuf_stop (policy : CksumPolicy) (fuel : Nat) (buf : List Byte)
    (h : (parseBuffer policy buf).1 = .needMoreData) : drainBuf policy fuel buf = ([], buf) := by
  cases fuel with
  | zero => rfl
  | succ n => simp [drainBuf, h]

theorem drainBuf_go (policy : CksumPolicy) (fuel : Nat) (buf : List Byte)
    (h : (parseBuffer policy buf).1 ≠ .needMoreData) :
    drainBuf policy (fuel + 1) buf =
      ((parseBuffer policy buf).1 :: (drainBuf policy fuel (parseBuffer policy buf).2).1,
        (drainBuf policy fuel (parseBuffer policy buf).2).2) := by
  cases hp : (parseBuffer policy buf).1 with
  | needMoreData => exact absurd hp h
  | _ => simp [drainBuf, hp]

/-- More fuel than bytes changes nothing. -/
theorem drainBuf_fuel (policy : CksumPolicy) (fuel : Nat) (buf : List Byte) (hf : buf.length < fuel) :
    drainBuf policy fuel buf = drainAll policy buf := by
  induction fuel using Nat.strong_induction_on generalizing buf with
  | _ fuel ih =>
    by_cases h : (parseBuffer policy buf).1 = .needMoreData
    · rw [drainAll, drainBuf_stop policy _ buf h, drainBuf_stop policy _ buf h]
    · obtain ⟨n, rfl⟩ : ∃ n, fuel = n + 1 := ⟨fuel - 1, by omega⟩
      have hlt := (parseBuffer_shorter policy buf).2 h
      rw [drainAll, drainBuf_go policy _ buf h, drainBuf_go policy _ buf h, ih n (by omega) _ (by omega)]
      by_cases hn : buf.length < n + 1 ∧ buf.length ≠ n
      · rw [ih buf.length (by omega) _ hlt]
      · have : buf.length = n := by omega
        rw [this, ih n (by omega) _ (by omega)]

/-- One PARSE of a drain. -/
theorem drainAll_go (policy : CksumPolicy) (buf : List Byte) (h : (parseBuffer policy buf).1 ≠ .needMoreData) :
    drainAll policy buf =
      ((parseBuffer policy buf).1 :: (drainAll policy (parseBuffer policy buf).2).1,
        (drainAll policy (parseBuffer policy buf).2).2) := by
  have hlt := (parseBuffer_shorter policy buf).2 h
  rw [drainAll, drainBuf_go policy _ buf h, drainBuf_fuel policy _ _ hlt]

theorem drainAll_stop (policy : CksumPolicy) (buf : List Byte) (h : (parseBuffer policy buf).1 = .needMoreData) :
    drainAll policy buf = ([], buf) := drainBuf_stop policy _ buf h

/-- Draining `buf ++ more` is draining `buf`, then what is left with `more` behind it. -/
theorem drainAll_append (policy : CksumPolicy) (buf more : List Byte) :
    drainAll policy (buf ++ more) =
      ((drainAll policy buf).1 ++ (drainAll policy ((drainAll policy buf).2 ++ more)).1,
        (drainAll policy ((drainAll policy buf).2 ++ more)).2) := by
  induction hn : buf.length using Nat.strong_induction_on generalizing buf with
  | _ n ih =>
    by_cases h : (parseBuffer policy buf).1 = .needMoreData
    · rw [drainAll_stop policy buf h]; simp
    · have hlt := (parseBuffer_shorter policy buf).2 h
      have ha := parseBuffer_append policy buf more h
      rw [drainAll_go policy buf h, drainAll_go policy (buf ++ more) (by rw [ha]; exact h), ha,
        ih _ (by omega) _ rfl]
      simp

/-- After a drain nothing more is given. -/
theorem drainAll_dry (policy : CksumPolicy) (buf : List Byte) :
    (parseBuffer policy (drainAll policy buf).2).1 = .needMoreData := by
  induction hn : buf.length using Nat.strong_induction_on generalizing buf with
  | _ n ih =>
    by_cases h : (parseBuffer policy buf).1 = .needMoreData
    · rw [drainAll_stop policy buf h]; exact h
    · rw [drainAll_go policy buf h]
      exact ih _ (hn ▸ (parseBuffer_shorter policy buf).2 h) _ rfl

/-! ### The machine's drain and feed -/

theorem drainLoop_eq (fuel : Nat) (s : State) :
    (drainLoop fuel s).1 = (drainBuf s.cfg.cksumPolicy fuel s.rxBuf).1 ∧
    (drainLoop fuel s).2.rxBuf = (drainBuf s.cfg.cksumPolicy fuel s.rxBuf).2 ∧
    (drainLoop fuel s).2.cfg = s.cfg := by
  induction fuel generalizing s with
  | zero => exact ⟨rfl, rfl, rfl⟩
  | succ n ih =>
    by_cases h : (parseBuffer s.cfg.cksumPolicy s.rxBuf).1 = .needMoreData
    · have h2 := (parseBuffer_shorter s.cfg.cksumPolicy s.rxBuf).1 h
      rw [drainBuf_stop _ _ _ h]
      simp [drainLoop, parseOutcome, h, parseOp, h2]
    · rw [drainBuf_go _ _ _ h]
      have hi := ih (parseOp s)
      have e : drainLoop (n + 1) s =
          (parseOutcome s :: (drainLoop n (parseOp s)).1, (drainLoop n (parseOp s)).2) := by
        cases hp : parseOutcome s with
        | needMoreData => exact absurd hp h
        | _ => simp [drainLoop, hp]
      rw [e]
      exact ⟨by rw [hi.1]; rfl, by rw [hi.2.1]; rfl, by rw [hi.2.2]; rfl⟩

/-- The machine's drain is the drain of its buffer. -/
theorem drain_eq (s : State) :
    (drain s).1 = (drainAll s.cfg.cksumPolicy s.rxBuf).1 ∧
    (drain s).2.rxBuf = (drainAll s.cfg.cksumPolicy s.rxBuf).2 ∧ (drain s).2.cfg = s.cfg :=
  drainLoop_eq _ s

/-- Pushing with room for every byte appends them all. -/
theorem pushAll_room (bytes : List Byte) (s : State) (h : Room bytes.length s) :
    (pushAll bytes s).rxBuf = s.rxBuf ++ bytes ∧ (pushAll bytes s).cfg = s.cfg := by
  induction bytes generalizing s with
  | nil => simp [pushAll]
  | cons b bytes ih =>
    have hne : s.cfg.rxCap ≠ .bytes s.rxBuf.length := fun hc => by simp [Room, hc] at h
    rcases rxPushOp_cases b s with ⟨hc, -⟩ | ⟨-, e⟩
    · exact absurd hc hne
    · have := ih (rxPushOp b s) (by
        rw [e]
        unfold Room at h ⊢
        cases hc : s.cfg.rxCap <;> simp only [hc, List.length_cons, List.length_append, List.length_nil] at h ⊢
        omega)
      simp only [pushAll, List.foldl_cons] at this ⊢
      rw [this.1, this.2, e]
      simp

end Sys2Proof.Machine
end

