-- ==== Sys2Proof/Laws/PerInstr.lean ====
section
/-! SUPPORT. Per instruction: the word the encoder writes is a word of the instruction's row of the opcode table (the
row's format, and its match value under its mask). -/

namespace Sys2Proof.Laws

/-- An instruction's row of spec/opcode_table.json: format, mask and match. -/
def rowOf : Instr → Format × Nat × Nat
  | .nop _ => (.cw12, 0xF00, 0x000)
  | .encStart _ => (.cw12, 0xF00, 0x100)
  | .encCmd _ => (.cw12, 0xF00, 0x200)
  | .encData _ => (.cw12, 0xF00, 0x300)
  | .encEnd _ => (.cw12, 0xF00, 0x400)
  | .encAbort _ => (.cw12, 0xF00, 0x500)
  | .reserved6 _ => (.cw12, 0xF00, 0x600)
  | .reserved7 _ => (.cw12, 0xF00, 0x700)
  | .rxPush _ => (.cw12, 0xF00, 0x800)
  | .parse _ => (.cw12, 0xF00, 0x900)
  | .rxFlush _ => (.cw12, 0xF00, 0xA00)
  | .reservedB _ => (.cw12, 0xF00, 0xB00)
  | .reservedC _ => (.cw12, 0xF00, 0xC00)
  | .reservedD _ => (.cw12, 0xF00, 0xD00)
  | .statRead _ => (.cw12, 0xF00, 0xE00)
  | .statClr _ => (.cw12, 0xF00, 0xF00)
  | .wireStart _ => (.wire8, 0xF0, 0x80)
  | .wireCmdHi _ => (.wire8, 0xF0, 0x40)
  | .wireCmdLo _ => (.wire8, 0xF0, 0x00)
  | .wireDataHi _ => (.wire8, 0xF0, 0x50)
  | .wireDataLo _ => (.wire8, 0xF0, 0x10)
  | .wireCkHi _ => (.wire8, 0xF0, 0x60)
  | .wireCkLoEnd _ => (.wire8, 0xF0, 0x20)
  | .wireUnassigned3 _ => (.wire8, 0xF0, 0x30)
  | .wireUnassigned7 _ => (.wire8, 0xF0, 0x70)
  | .wireUnassigned9 _ => (.wire8, 0xF0, 0x90)
  | .wireUnassignedA _ => (.wire8, 0xF0, 0xA0)
  | .wireUnassignedB _ => (.wire8, 0xF0, 0xB0)
  | .wireUnassignedC _ => (.wire8, 0xF0, 0xC0)
  | .wireUnassignedD _ => (.wire8, 0xF0, 0xD0)
  | .wireUnassignedE _ => (.wire8, 0xF0, 0xE0)
  | .wireUnassignedF _ => (.wire8, 0xF0, 0xF0)
  | .protoHello => (.proto8, 0xFF, 0x00)
  | .protoSetBaudrate => (.proto8, 0xFF, 0x01)
  | .protoSetLeds => (.proto8, 0xFF, 0x10)
  | .protoSetSmartLeds => (.proto8, 0xFF, 0x11)
  | .protoSetText => (.proto8, 0xFF, 0x12)
  | .protoSetRelay => (.proto8, 0xFF, 0x13)
  | .protoSetSpecificSmartLeds1 => (.proto8, 0xFF, 0x14)
  | .protoSetSpecificSmartLeds2 => (.proto8, 0xFF, 0x15)
  | .protoSetSpecificSmartLeds3 => (.proto8, 0xFF, 0x16)
  | .protoGetKeys => (.proto8, 0xFF, 0x20)
  | .protoGetSliders => (.proto8, 0xFF, 0x21)
  | .protoGetEncoders => (.proto8, 0xFF, 0x22)
  | .protoGetSensors => (.proto8, 0xFF, 0x23)
  | .protoGetStikyKeys => (.proto8, 0xFF, 0x24)
  | .protoGetState => (.proto8, 0xFF, 0x2F)
  | .protoSuccessTicket => (.proto8, 0xFF, 0x80)
  | .protoUnknownTicket => (.proto8, 0xFF, 0x81)

/-- The encoded word has its row's format, fits its width, and matches the row under the row's mask. -/
def TableRow.Statement (i : Instr) : Prop :=
  (encode i).1 = (rowOf i).1 ∧ (encode i).2 < 2 ^ (encode i).1.width ∧
    (encode i).2 &&& (rowOf i).2.1 = (rowOf i).2.2

theorem TableRow.nop (arg : Byte) : TableRow.Statement (.nop arg) := by
  revert arg; simp only [TableRow.Statement]; decide

theorem TableRow.encStart (arg : Byte) : TableRow.Statement (.encStart arg) := by
  revert arg; simp only [TableRow.Statement]; decide

theorem TableRow.encCmd (arg : Byte) : TableRow.Statement (.encCmd arg) := by
  revert arg; simp only [TableRow.Statement]; decide

theorem TableRow.encData (arg : Byte) : TableRow.Statement (.encData arg) := by
  revert arg; simp only [TableRow.Statement]; decide

theorem TableRow.encEnd (arg : Byte) : TableRow.Statement (.encEnd arg) := by
  revert arg; simp only [TableRow.Statement]; decide

theorem TableRow.encAbort (arg : Byte) : TableRow.Statement (.encAbort arg) := by
  revert arg; simp only [TableRow.Statement]; decide

theorem TableRow.reserved6 (arg : Byte) : TableRow.Statement (.reserved6 arg) := by
  revert arg; simp only [TableRow.Statement]; decide

theorem TableRow.reserved7 (arg : Byte) : TableRow.Statement (.reserved7 arg) := by
  revert arg; simp only [TableRow.Statement]; decide

theorem TableRow.rxPush (arg : Byte) : TableRow.Statement (.rxPush arg) := by
  revert arg; simp only [TableRow.Statement]; decide

theorem TableRow.parse (arg : Byte) : TableRow.Statement (.parse arg) := by
  revert arg; simp only [TableRow.Statement]; decide

theorem TableRow.rxFlush (arg : Byte) : TableRow.Statement (.rxFlush arg) := by
  revert arg; simp only [TableRow.Statement]; decide

theorem TableRow.reservedB (arg : Byte) : TableRow.Statement (.reservedB arg) := by
  revert arg; simp only [TableRow.Statement]; decide

theorem TableRow.reservedC (arg : Byte) : TableRow.Statement (.reservedC arg) := by
  revert arg; simp only [TableRow.Statement]; decide

theorem TableRow.reservedD (arg : Byte) : TableRow.Statement (.reservedD arg) := by
  revert arg; simp only [TableRow.Statement]; decide

theorem TableRow.statRead (arg : Byte) : TableRow.Statement (.statRead arg) := by
  revert arg; simp only [TableRow.Statement]; decide

theorem TableRow.statClr (arg : Byte) : TableRow.Statement (.statClr arg) := by
  revert arg; simp only [TableRow.Statement]; decide

theorem TableRow.wireStart (v : Nibble) : TableRow.Statement (.wireStart v) := by
  revert v; simp only [TableRow.Statement]; decide

theorem TableRow.wireCmdHi (v : Nibble) : TableRow.Statement (.wireCmdHi v) := by
  revert v; simp only [TableRow.Statement]; decide

theorem TableRow.wireCmdLo (v : Nibble) : TableRow.Statement (.wireCmdLo v) := by
  revert v; simp only [TableRow.Statement]; decide

theorem TableRow.wireDataHi (v : Nibble) : TableRow.Statement (.wireDataHi v) := by
  revert v; simp only [TableRow.Statement]; decide

theorem TableRow.wireDataLo (v : Nibble) : TableRow.Statement (.wireDataLo v) := by
  revert v; simp only [TableRow.Statement]; decide

theorem TableRow.wireCkHi (v : Nibble) : TableRow.Statement (.wireCkHi v) := by
  revert v; simp only [TableRow.Statement]; decide

theorem TableRow.wireCkLoEnd (v : Nibble) : TableRow.Statement (.wireCkLoEnd v) := by
  revert v; simp only [TableRow.Statement]; decide

theorem TableRow.wireUnassigned3 (v : Nibble) : TableRow.Statement (.wireUnassigned3 v) := by
  revert v; simp only [TableRow.Statement]; decide

theorem TableRow.wireUnassigned7 (v : Nibble) : TableRow.Statement (.wireUnassigned7 v) := by
  revert v; simp only [TableRow.Statement]; decide

theorem TableRow.wireUnassigned9 (v : Nibble) : TableRow.Statement (.wireUnassigned9 v) := by
  revert v; simp only [TableRow.Statement]; decide

theorem TableRow.wireUnassignedA (v : Nibble) : TableRow.Statement (.wireUnassignedA v) := by
  revert v; simp only [TableRow.Statement]; decide

theorem TableRow.wireUnassignedB (v : Nibble) : TableRow.Statement (.wireUnassignedB v) := by
  revert v; simp only [TableRow.Statement]; decide

theorem TableRow.wireUnassignedC (v : Nibble) : TableRow.Statement (.wireUnassignedC v) := by
  revert v; simp only [TableRow.Statement]; decide

theorem TableRow.wireUnassignedD (v : Nibble) : TableRow.Statement (.wireUnassignedD v) := by
  revert v; simp only [TableRow.Statement]; decide

theorem TableRow.wireUnassignedE (v : Nibble) : TableRow.Statement (.wireUnassignedE v) := by
  revert v; simp only [TableRow.Statement]; decide

theorem TableRow.wireUnassignedF (v : Nibble) : TableRow.Statement (.wireUnassignedF v) := by
  revert v; simp only [TableRow.Statement]; decide

theorem TableRow.protoHello : TableRow.Statement .protoHello := by
  simp only [TableRow.Statement]; decide

theorem TableRow.protoSetBaudrate : TableRow.Statement .protoSetBaudrate := by
  simp only [TableRow.Statement]; decide

theorem TableRow.protoSetLeds : TableRow.Statement .protoSetLeds := by
  simp only [TableRow.Statement]; decide

theorem TableRow.protoSetSmartLeds : TableRow.Statement .protoSetSmartLeds := by
  simp only [TableRow.Statement]; decide

theorem TableRow.protoSetText : TableRow.Statement .protoSetText := by
  simp only [TableRow.Statement]; decide

theorem TableRow.protoSetRelay : TableRow.Statement .protoSetRelay := by
  simp only [TableRow.Statement]; decide

theorem TableRow.protoSetSpecificSmartLeds1 : TableRow.Statement .protoSetSpecificSmartLeds1 := by
  simp only [TableRow.Statement]; decide

theorem TableRow.protoSetSpecificSmartLeds2 : TableRow.Statement .protoSetSpecificSmartLeds2 := by
  simp only [TableRow.Statement]; decide

theorem TableRow.protoSetSpecificSmartLeds3 : TableRow.Statement .protoSetSpecificSmartLeds3 := by
  simp only [TableRow.Statement]; decide

theorem TableRow.protoGetKeys : TableRow.Statement .protoGetKeys := by
  simp only [TableRow.Statement]; decide

theorem TableRow.protoGetSliders : TableRow.Statement .protoGetSliders := by
  simp only [TableRow.Statement]; decide

theorem TableRow.protoGetEncoders : TableRow.Statement .protoGetEncoders := by
  simp only [TableRow.Statement]; decide

theorem TableRow.protoGetSensors : TableRow.Statement .protoGetSensors := by
  simp only [TableRow.Statement]; decide

theorem TableRow.protoGetStikyKeys : TableRow.Statement .protoGetStikyKeys := by
  simp only [TableRow.Statement]; decide

theorem TableRow.protoGetState : TableRow.Statement .protoGetState := by
  simp only [TableRow.Statement]; decide

theorem TableRow.protoSuccessTicket : TableRow.Statement .protoSuccessTicket := by
  simp only [TableRow.Statement]; decide

theorem TableRow.protoUnknownTicket : TableRow.Statement .protoUnknownTicket := by
  simp only [TableRow.Statement]; decide

end Sys2Proof.Laws
end

