-- ==== Sys2Proof/Laws/Worker.lean ====
section
/-! SUPPORT. What the shared operations of the encoder and of the host can do, each said once: the host's operations
that touch nothing but the host's record, the request that is encoded and written, the poll loop. -/

namespace Sys2Proof.Machine

/-! ### Operations on the host's record alone -/

@[simp] theorem setHost_setHost (g h : HostState) (s : State) : setHost g (setHost h s) = setHost g s := rfl

theorem drawNotices_eq (point : NoticePoint) (s : State) : ∃ ns : List Notice,
    drawNotices point s = setHost
      { s.host with events := s.host.events ++ ns.map Event.notice, draws := s.host.draws + 1 } s := ⟨_, rfl⟩

theorem answerOpen_host (r : OpenResult) (s : State) : ∃ h, answerOpen r s = setHost h s := by
  cases r <;> exact ⟨_, rfl⟩

theorem openCallOp_host (s : State) : ∃ h, openCallOp s = setHost h s := by
  unfold openCallOp; split <;> exact ⟨_, rfl⟩

theorem openAnswerOp_host (r : OpenResult) (s : State) : ∃ h, openAnswerOp r s = setHost h s := by
  unfold openAnswerOp; split
  · exact ⟨_, rfl⟩
  · exact answerOpen_host r s
  · exact ⟨_, rfl⟩

theorem lazyOpen_host (r : OpenResult) (s : State) : ∃ h, lazyOpen r s = setHost h s := by
  unfold lazyOpen; split
  · exact answerOpen_host r s
  · exact answerOpen_host r s
  · exact ⟨_, rfl⟩

theorem cancelPending_host (s : State) : ∃ h, cancelPending s = setHost h s := by
  unfold cancelPending; split <;> exact ⟨_, rfl⟩

theorem noteBaudrate_host (c : Byte) (p : List Byte) (s : State) : ∃ r : LineRate,
    noteBaudrate c p s = setHost { s.host with lineRate := r } s := by
  unfold noteBaudrate; split
  · split <;> exact ⟨_, rfl⟩
  · exact ⟨_, rfl⟩

theorem checkTimeout_host (q : Pending) (ms : Nat) (s : State) : ∃ h, checkTimeout q ms s = setHost h s := by
  unfold checkTimeout; split <;> exact ⟨_, rfl⟩

theorem executeCall_host (address : Nat) (c : Byte) (p : List Byte) (line : LineReport) (s : State) :
    ∃ h, executeCall address c p line s = setHost h s := by
  unfold executeCall; split <;> exact ⟨_, rfl⟩

theorem setBaudrateCall_host (index : Nat) (line : LineReport) (s : State) :
    ∃ h, setBaudrateCall index line s = setHost h s := by
  unfold setBaudrateCall; split <;> exact ⟨_, rfl⟩

/-- What the worker does with an outcome touches the host's record only. -/
theorem onOutcome_host (o : ParseOutcome) (s : State) : ∃ h, (onOutcome o s).1 = setHost h s := by
  cases o <;> exact ⟨_, rfl⟩

/-! ### A request through the block's encoder -/

/-- ENC_DATA over a payload while the frame is open. -/
theorem encDataOp_foldl (p : List Byte) (s : State) (hb : s.encPhase = .body) :
    ∃ r, p.foldl (fun t d => encDataOp d t) s = { s with
      tx := s.tx ++ dataPairs p, encAcc := s.encAcc + sum8 (dataPairs p), resp := r } := by
  induction p generalizing s with
  | nil => exact ⟨s.resp, by simp⟩
  | cons d p ih =>
    have e : encDataOp d s = { s with
        tx := s.tx ++ tagPair d .data
        encAcc := s.encAcc + sum8 (tagPair d .data)
        resp := some ⟨.ok, 0, none⟩ } := by
      rw [encDataOp, if_pos hb]; rfl
    obtain ⟨r, hr⟩ := ih (encDataOp d s) (by rw [e]; exact hb)
    refine ⟨r, ?_⟩
    rw [List.foldl_cons, hr, e]
    simp only [dataPairs_cons, sum8_append, List.append_assoc, BitVec.add_assoc]

/-- From IDLE a request is the encoded frame on the TX stream, and the encoder ends idle. -/
theorem encodeRequest_idle (a : Nibble) (c : Byte) (p : List Byte) (s : State) (h : s.encPhase = .idle) :
    encodeRequest a c p s = { s with
      tx := s.tx ++ encodeFrame a c p
      encAcc := sum8 (frameBody a c p)
      resp := some ⟨.ok, 0x00#8, none⟩ } := by
  have ha : addressOperand (a.setWidth 8) = a := by revert a; decide
  have e1 : encStartOp (a.setWidth 8) s = { s with
      tx := s.tx ++ [startByte a]
      encAcc := startByte a
      encPhase := .needCmd
      resp := some ⟨.ok, silentData a, none⟩ } := by
    rw [encStartOp, if_pos h]; simp only [ha]; rfl
  have e2 : encCmdOp c (encStartOp (a.setWidth 8) s) = { s with
      tx := s.tx ++ [startByte a] ++ tagPair c .cmd
      encAcc := startByte a + sum8 (tagPair c .cmd)
      encPhase := .body
      resp := some ⟨.ok, 0x00#8, none⟩ } := by
    rw [e1, encCmdOp, if_pos rfl]; rfl
  obtain ⟨r, hr⟩ := encDataOp_foldl p (encCmdOp c (encStartOp (a.setWidth 8) s)) (by rw [e2])
  rw [encodeRequest, hr, e2]
  have hs : startByte a + sum8 (tagPair c .cmd) + sum8 (dataPairs p) = sum8 (frameBody a c p) := by
    simp [frameBody, dataPairs, BitVec.add_assoc]
  rw [encEndOp, if_pos rfl]
  simp only [hs]
  simp [encodeFrame, frameBody, dataPairs, setPhase, emit, respond, ← h]

/-- An encoder operation leaves what is not the encoder's. -/
def EncoderOnly (s t : State) : Prop :=
  t.cfg = s.cfg ∧ t.rxBuf = s.rxBuf ∧ t.stRxOvf = s.stRxOvf ∧ t.stOpIll = s.stOpIll ∧ t.inputs = s.inputs ∧
  t.host = s.host ∧ (s.stEncSeq = true → t.stEncSeq = true) ∧ ∃ bytes, t.tx = s.tx ++ bytes

theorem EncoderOnly.refl (s : State) : EncoderOnly s s := ⟨rfl, rfl, rfl, rfl, rfl, rfl, id, [], by simp⟩

theorem EncoderOnly.trans {s t u : State} (h : EncoderOnly s t) (g : EncoderOnly t u) : EncoderOnly s u := by
  obtain ⟨h1, h2, h3, h4, h5, h6, h7, bs, h8⟩ := h
  obtain ⟨g1, g2, g3, g4, g5, g6, g7, cs, g8⟩ := g
  exact ⟨g1.trans h1, g2.trans h2, g3.trans h3, g4.trans h4, g5.trans h5, g6.trans h6, g7 ∘ h7, bs ++ cs,
    by rw [g8, h8, List.append_assoc]⟩

theorem encStartOp_only (arg : Byte) (s : State) : EncoderOnly s (encStartOp arg s) := by
  unfold encStartOp; split
  · exact ⟨rfl, rfl, rfl, rfl, rfl, rfl, id, _, rfl⟩
  · exact ⟨rfl, rfl, rfl, rfl, rfl, rfl, fun _ => rfl, [], by simp [rejectSeq]⟩

theorem encCmdOp_only (arg : Byte) (s : State) : EncoderOnly s (encCmdOp arg s) := by
  unfold encCmdOp; split
  · exact ⟨rfl, rfl, rfl, rfl, rfl, rfl, id, _, rfl⟩
  · exact ⟨rfl, rfl, rfl, rfl, rfl, rfl, fun _ => rfl, [], by simp [rejectSeq]⟩

theorem encDataOp_only (arg : Byte) (s : State) : EncoderOnly s (encDataOp arg s) := by
  unfold encDataOp; split
  · exact ⟨rfl, rfl, rfl, rfl, rfl, rfl, id, _, rfl⟩
  · exact ⟨rfl, rfl, rfl, rfl, rfl, rfl, fun _ => rfl, [], by simp [rejectSeq]⟩

theorem encEndOp_only (s : State) : EncoderOnly s (encEndOp s) := by
  unfold encEndOp; split
  · exact ⟨rfl, rfl, rfl, rfl, rfl, rfl, id, _, rfl⟩
  · exact ⟨rfl, rfl, rfl, rfl, rfl, rfl, fun _ => rfl, [], by simp [rejectSeq]⟩

theorem encDataOp_foldl_only (p : List Byte) (s : State) :
    EncoderOnly s (p.foldl (fun t d => encDataOp d t) s) := by
  induction p generalizing s with
  | nil => exact .refl s
  | cons d p ih => exact (encDataOp_only d s).trans (ih _)

/-- A request touches the encoder only, whatever its phase. -/
theorem encodeRequest_only (a : Nibble) (c : Byte) (p : List Byte) (s : State) :
    EncoderOnly s (encodeRequest a c p s) :=
  (((encStartOp_only _ s).trans (encCmdOp_only c _)).trans (encDataOp_foldl_only p _)).trans (encEndOp_only _)

/-- What one Execute does: it is turned away, or the frame is encoded; the rest is the host's record. -/
theorem hostRequest_cases (c : Byte) (a : Nibble) (p : List Byte) (line : LineReport) (s : State) :
    ∃ h, hostRequest c a p line s = setHost h s ∨
      ∃ g, hostRequest c a p line s = setHost h (encodeRequest a c p (setHost g s)) := by
  unfold hostRequest
  split
  · exact ⟨_, .inl rfl⟩
  · obtain ⟨g, hg⟩ := lazyOpen_host line.opens (dropMsg s)
    have hg : lazyOpen line.opens (dropMsg s) = setHost g s := hg
    simp only [hg]
    split
    · unfold writeRequest
      dsimp only
      split
      · exact ⟨_, .inr ⟨g, rfl⟩⟩
      · obtain ⟨r, hr⟩ := noteBaudrate_host c p (setHost
          { (encodeRequest a c p (setHost g s)).host with
            lineOut := (encodeRequest a c p (setHost g s)).host.lineOut ++
              ((encodeRequest a c p (setHost g s)).tx.drop (setHost g s).tx.length).take
                (line.written.getD ((encodeRequest a c p (setHost g s)).tx.drop (setHost g s).tx.length).length) }
          (encodeRequest a c p (setHost g s)))
        rw [hr]
        split <;> exact ⟨_, .inr ⟨g, rfl⟩⟩
    · exact ⟨_, .inl rfl⟩

/-! ### A request that reaches the line -/

@[simp] theorem openedHost_conn (h : HostState) (ns : List Notice) : (openedHost h ns).conn = .opened := by
  unfold openedHost; split
  · assumption
  · rfl

@[simp] theorem openedHost_pending (h : HostState) (ns : List Notice) :
    (openedHost h ns).pending = h.pending := by unfold openedHost; split <;> rfl

@[simp] theorem openedHost_lineOut (h : HostState) (ns : List Notice) :
    (openedHost h ns).lineOut = h.lineOut := by unfold openedHost; split <;> rfl

/-- Opening does not look at the frame in hand. -/
theorem openedHost_withMsg (h : HostState) (m : Option HostMsg) (ns : List Notice) :
    openedHost { h with msg := m } ns = { openedHost h ns with msg := m } := by
  unfold openedHost; dsimp only; split <;> rfl

/-- The lazy open of a line that is open, or that the system grants (R265). -/
theorem lazyOpen_granted (r : OpenResult) (s : State) (h : s.host.conn = .opened ∨ r = .granted) :
    ∃ ns : List Notice, lazyOpen r s = setHost (openedHost s.host ns) s := by
  unfold lazyOpen openedHost
  cases hc : s.host.conn with
  | opened => exact ⟨[], rfl⟩
  | closed =>
    obtain rfl := h.resolve_left (by rw [hc]; decide)
    exact ⟨Config.notices s.host.draws .lineOpened, rfl⟩
  | opening =>
    obtain rfl := h.resolve_left (by rw [hc]; decide)
    exact ⟨Config.notices s.host.draws .lineOpened, rfl⟩

/-- With no exchange pending and a line that is open or opens, a request is encoded and written. -/
theorem hostRequest_opens (c : Byte) (a : Nibble) (p : List Byte) (line : LineReport) (s : State)
    (hp : s.host.pending = none) (ho : s.host.conn = .opened ∨ line.opens = .granted) :
    ∃ ns : List Notice, hostRequest c a p line s =
      writeRequest c a p line.written (setHost { openedHost s.host ns with msg := none } s) := by
  obtain ⟨ns, e⟩ := lazyOpen_granted line.opens (dropMsg s) ho
  have hd : setHost (openedHost (dropMsg s).host ns) (dropMsg s) =
      setHost { openedHost s.host ns with msg := none } s := by
    show setHost (openedHost { s.host with msg := none } ns) (dropMsg s) = _
    rw [openedHost_withMsg]; rfl
  refine ⟨ns, ?_⟩
  unfold hostRequest
  rw [hp]; dsimp only
  rw [e, hd, if_pos (show (setHost { openedHost s.host ns with msg := none } s).host.conn = .opened from
    openedHost_conn _ _)]

/-- Encode and write, the encoder idle: the whole frame is on the TX stream, its first bytes are on the line, and then
the host's record says how the exchange goes on (R266, R267). -/
theorem writeRequest_idle (c : Byte) (a : Nibble) (p : List Byte) (written : Option Nat) (s : State)
    (h : s.encPhase = .idle) :
    writeRequest c a p written s =
      let n := written.getD (encodeFrame a c p).length
      let w : State := { s with
        tx := s.tx ++ encodeFrame a c p
        encAcc := sum8 (frameBody a c p)
        resp := some ⟨.ok, 0x00#8, none⟩
        host := { s.host with lineOut := s.host.lineOut ++ (encodeFrame a c p).take n } }
      if n < (encodeFrame a c p).length then emitEvents [.error .writeShortfall] w
      else if isSilent a then emitEvents [.replySilent a c] (noteBaudrate c p w)
      else setHost { (noteBaudrate c p w).host with
        pending := some { address := a, command := c, payload := p, elapsedMs := 0 } } (noteBaudrate c p w) := by
  unfold writeRequest
  rw [encodeRequest_idle a c p s h]
  simp [setHost]

/-! ### The poll loop -/

/-- RX_PUSHN as operations of the command port is the host's push of every byte. -/
theorem runOps_rxPushN (bytes : List Byte) (s : State) :
    ∃ answers, runOps (rxPushN bytes) s = .next (pushAll bytes s, answers) := by
  induction bytes generalizing s with
  | nil => exact ⟨[], rfl⟩
  | cons b bytes ih =>
    obtain ⟨answers, e⟩ := ih (rxPushOp b s)
    have hx : exec (.rxPush b) s = .next (rxPushOp b s) := rfl
    refine ⟨(rxPushOp b s).resp :: answers, ?_⟩
    rw [rxPushN] at e
    simp only [rxPushN, List.map_cons, runOps, hx, e]
    rfl

/-- PARSE operations and the host's record: the buffer is a tail of the one before, nothing else of the block changes
but the response. -/
def ParserOnly (s t : State) : Prop :=
  ∃ h buf r taken, t = setHost h { s with rxBuf := buf, resp := r } ∧ s.rxBuf = taken ++ buf

theorem ParserOnly.refl (s : State) : ParserOnly s s := ⟨s.host, s.rxBuf, s.resp, [], rfl, rfl⟩

theorem ParserOnly.trans {s t u : State} (h : ParserOnly s t) (g : ParserOnly t u) : ParserOnly s u := by
  obtain ⟨h1, b1, r1, k1, rfl, e1⟩ := h
  obtain ⟨h2, b2, r2, k2, rfl, e2⟩ := g
  exact ⟨h2, b2, r2, k1 ++ k2, rfl, by rw [e1, List.append_assoc]; exact congrArg _ e2⟩

theorem ParserOnly.setHost {s t : State} (h : ParserOnly s t) (g : HostState) : ParserOnly s (Machine.setHost g t) := by
  obtain ⟨h1, b1, r1, k1, rfl, e1⟩ := h
  exact ⟨g, b1, r1, k1, rfl, e1⟩

/-- PARSE takes bytes off the front (R160). -/
theorem parseBuffer_suffix (policy : CksumPolicy) (buf : List Byte) :
    ∃ taken, buf = taken ++ (parseBuffer policy buf).2 := by
  rcases parseBuffer_cases buf with h | ⟨g, b, rest, rfl, h0, hg, hb⟩ | ⟨b, rest, rfl, hb, h⟩ |
    ⟨b, m, e, rest, rfl, hb, hm, he⟩
  · exact ⟨[], by rw [parseBuffer_noStart policy buf h]; rfl⟩
  · exact ⟨g, by rw [parseBuffer_garbage policy g b rest h0 hg hb]⟩
  · exact ⟨[], by rw [parseBuffer_incomplete policy b rest hb h]; rfl⟩
  · exact ⟨b :: (m ++ [e]), by rw [parseBuffer_candidate policy b m e rest hb hm he]; simp⟩

theorem parseOp_only (s : State) : ParserOnly s (parseOp s) := by
  obtain ⟨k, hk⟩ := parseBuffer_suffix s.cfg.cksumPolicy s.rxBuf
  exact ⟨s.host, _, some ⟨.ok, kindCode (parseOutcome s), some (parseOutcome s)⟩, k, rfl, hk⟩

theorem pollDrain_only (fuel : Nat) (s : State) : ParserOnly s (pollDrain fuel s).1 := by
  induction fuel generalizing s with
  | zero => exact .refl s
  | succ n ih =>
    obtain ⟨h, hh⟩ := onOutcome_host (parseOutcome s) (parseOp s)
    have hp : ParserOnly s (onOutcome (parseOutcome s) (parseOp s)).1 := by
      rw [hh]; exact (parseOp_only s).setHost h
    unfold pollDrain
    rcases hx : onOutcome (parseOutcome s) (parseOp s) with ⟨t, k⟩
    rw [hx] at hp
    cases k
    · exact hp.trans (ih t)
    · exact hp
    · exact hp

/-- A drain with more steps than bytes does not depend on how many (R162: every outcome but `NeedMoreData` removes a
byte). -/
theorem pollDrain_fuel (m n : Nat) (s : State) (hm : s.rxBuf.length < m) (hn : s.rxBuf.length < n) :
    pollDrain m s = pollDrain n s := by
  induction m generalizing n s with
  | zero => omega
  | succ m ih =>
    cases n with
    | zero => omega
    | succ n =>
      unfold pollDrain
      cases ho : parseOutcome s with
      | skipped bytes =>
        have hl : (parseOp s).rxBuf.length < s.rxBuf.length :=
          (parseBuffer_shorter s.cfg.cksumPolicy s.rxBuf).2 (by
            have ho : (parseBuffer s.cfg.cksumPolicy s.rxBuf).1 = .skipped bytes := ho
            rw [ho]; simp)
        exact ih n (emitEvents [.parseError .frameSkipped bytes] (parseOp s))
          (show (parseOp s).rxBuf.length < m by omega) (show (parseOp s).rxBuf.length < n by omega)
      | _ => rfl

/-- Garbage first: the drain reports it and goes on as a drain of what follows (R271). -/
theorem pollDrain_skipped (s : State) (g : List Byte) (h : parseOutcome s = .skipped g) :
    pollDrain (s.rxBuf.length + 1) s =
      pollDrain ((parseOp s).rxBuf.length + 1) (emitEvents [.parseError .frameSkipped g] (parseOp s)) := by
  have hl : (parseOp s).rxBuf.length < s.rxBuf.length :=
    (parseBuffer_shorter s.cfg.cksumPolicy s.rxBuf).2 (by
      have h : (parseBuffer s.cfg.cksumPolicy s.rxBuf).1 = .skipped g := h
      rw [h]; simp)
  conv_lhs => unfold pollDrain
  simp only [h, onOutcome]
  exact pollDrain_fuel _ _ _ hl (Nat.lt_succ_self _)

/-- The reaction to `FULL` is RX_FLUSH or nothing (R288). -/
theorem reactToFull_cases (s : State) :
    (s.stRxOvf = true ∧ rxFull s = true ∧ parseOutcome s = .needMoreData ∧ reactToFull s = rxFlushOp s) ∨
    (¬ (s.stRxOvf = true ∧ rxFull s = true ∧ parseOutcome s = .needMoreData) ∧ reactToFull s = s) := by
  by_cases h : s.stRxOvf = true ∧ rxFull s = true ∧ parseOutcome s = .needMoreData
  · exact .inl ⟨h.1, h.2.1, h.2.2, if_pos h⟩
  · exact .inr ⟨h, if_neg h⟩

@[simp] theorem reactToFull_host (s : State) : (reactToFull s).host = s.host := by
  rcases reactToFull_cases s with ⟨-, -, -, e⟩ | ⟨-, e⟩ <;> rw [e]
  rfl

theorem rxFull_iff (s : State) : rxFull s = true ↔ s.cfg.rxCap = .bytes s.rxBuf.length := by
  unfold rxFull
  cases hc : s.cfg.rxCap with
  | unbounded => simp
  | bytes n => simp [eq_comm]

theorem reactToFull_only (s : State) : ParserOnly s (reactToFull s) := by
  rcases reactToFull_cases s with ⟨-, -, -, e⟩ | ⟨-, e⟩ <;> rw [e]
  · exact ⟨s.host, [], some ⟨.ok, 0x00#8, none⟩, s.rxBuf, rfl, by simp⟩
  · exact .refl s

/-- Pushing touches the receive buffer, its overflow bit and the response only. -/
theorem pushAll_only (bytes : List Byte) (s : State) : ∃ buf ovf r,
    pushAll bytes s = { s with rxBuf := buf, stRxOvf := ovf, resp := r } ∧
    (s.stRxOvf = true → ovf = true) ∧ (RxBounded s → RxBounded { s with rxBuf := buf }) := by
  induction bytes generalizing s with
  | nil => exact ⟨s.rxBuf, s.stRxOvf, s.resp, rfl, id, id⟩
  | cons b bytes ih =>
    obtain ⟨buf, ovf, r, e, ho, hb⟩ := ih (rxPushOp b s)
    have e : pushAll (b :: bytes) s = { rxPushOp b s with rxBuf := buf, stRxOvf := ovf, resp := r } := e
    rcases rxPushOp_cases b s with ⟨hc, ep⟩ | ⟨hc, ep⟩ <;> rw [ep] at e ho hb
    · exact ⟨buf, ovf, r, e, fun _ => ho rfl, hb⟩
    · refine ⟨buf, ovf, r, e, ho, fun hs => hb ?_⟩
      unfold RxBounded at hs ⊢
      cases hx : s.cfg.rxCap with
      | unbounded => trivial
      | bytes n =>
        rw [hx] at hs hc
        have : s.rxBuf.length ≠ n := fun h => hc (by rw [h])
        simp only [List.length_append, List.length_cons, List.length_nil]
        simp only at hs
        omega

/-- Pushing leaves the host's record and the inputs. -/
@[simp] theorem pushAll_host (bytes : List Byte) (s : State) : (pushAll bytes s).host = s.host := by
  obtain ⟨buf, ovf, r, e, -, -⟩ := pushAll_only bytes s
  rw [e]

@[simp] theorem pushAll_inputs (bytes : List Byte) (s : State) : (pushAll bytes s).inputs = s.inputs := by
  obtain ⟨buf, ovf, r, e, -, -⟩ := pushAll_only bytes s
  rw [e]

end Sys2Proof.Machine
end

