-- ==== Sys2Proof/Laws/Step.lean ====
section
/-! SUPPORT. What one step can do, said once: an operation of the command port, a received byte, the host's record
alone, a request through the encoder, reset, close, or a poll. -/

namespace Sys2Proof.Machine

theorem dispatchCode_cases (c : Byte) (f : Nibble → List Byte → State → State)
    (hf : ∀ a p u, ∃ h, f a p u = setHost h u) (s : State) :
    (∃ h, dispatchCode c f s = setHost h s) ∨
      ∃ d a p line, s.host.msg = some (.request a d p line) ∧ dispatchCode c f s = hostRequest c a p line s := by
  unfold dispatchCode
  split
  · exact .inl ⟨s.host, rfl⟩
  · next a d p line h => exact .inr ⟨d, a, p, line, h, rfl⟩
  · next a d p h =>
    obtain ⟨g, hg⟩ := hf a p (dropMsg s)
    exact .inl ⟨g, by rw [hg]; rfl⟩

/-- A reply code touches the host's record alone. -/
theorem dispatchReplyCode_host (f : State → State) (hf : ∀ u, ∃ h, f u = setHost h u) (s : State) :
    ∃ h, dispatchReplyCode f s = setHost h s := by
  unfold dispatchReplyCode
  split
  · exact ⟨s.host, rfl⟩
  · exact ⟨_, rfl⟩
  · obtain ⟨g, hg⟩ := hf (dropMsg s)
    exact ⟨g, by rw [hg]; rfl⟩

/-- A command code touches the host's record alone, or is a request. -/
theorem exec_proto_cases (i : Instr) (s : State) (hi : (encode i).1 = .proto8) :
    (∃ h, exec i s = .next (setHost h s)) ∨
      ∃ c d a p line, s.host.msg = some (.request a d p line) ∧ exec i s = .next (hostRequest c a p line s) := by
  have key : ∀ c f, exec i s = .next (dispatchCode c f s) → (∀ a p u, ∃ h, f a p u = setHost h u) →
      (∃ h, exec i s = .next (setHost h s)) ∨
      ∃ c d a p line, s.host.msg = some (.request a d p line) ∧ exec i s = .next (hostRequest c a p line s) := by
    intro c f e hf
    rcases dispatchCode_cases c f hf s with ⟨h, eh⟩ | ⟨d, a, p, line, hm, er⟩
    · exact .inl ⟨h, by rw [e, eh]⟩
    · exact .inr ⟨c, d, a, p, line, hm, by rw [e, er]⟩
  have reply : ∀ f, exec i s = .next (dispatchReplyCode f s) → (∀ u, ∃ h, f u = setHost h u) →
      ∃ h, exec i s = .next (setHost h s) := by
    intro f e hf
    obtain ⟨h, eh⟩ := dispatchReplyCode_host f hf s
    exact ⟨h, by rw [e, eh]⟩
  cases i <;> simp [encode] at hi
  case protoSuccessTicket => exact .inl (reply _ rfl (fun _ => ⟨_, rfl⟩))
  case protoUnknownTicket => exact .inl (reply _ rfl (fun _ => ⟨_, rfl⟩))
  case protoSetBaudrate =>
    have e : exec .protoSetBaudrate s = execProtoSetBaudrate s := rfl
    unfold execProtoSetBaudrate at e
    split at e
    · next a d k line hm =>
      split at e
      · exact .inr ⟨_, d, a, [k], line, hm, e⟩
      · exact .inl ⟨_, e⟩
    · exact key _ _ e (fun _ _ _ => ⟨_, rfl⟩)
  all_goals exact key _ _ rfl (fun _ _ _ => ⟨_, rfl⟩)

/-- A request code on a request in hand, its baud index checked, is one Execute with that code. -/
theorem exec_request (s : State) (i : Instr) (c : Byte) (a : Nibble) (x : Byte) (p : List Byte) (line : LineReport)
    (h : (i, c) ∈ requestRows) (hi : IndexInTable c p) (hm : s.host.msg = some (.request a x p line)) :
    exec i s = .next (hostRequest c a p line s) := by
  have sent : ∀ c f, (.next (dispatchCode c f s) : Host.Outcome State Fault Refusal) =
      .next (hostRequest c a p line s) := fun c f => by simp [dispatchCode, hm]
  cases i <;> simp [requestRows] at h <;> subst h
  case protoSetBaudrate =>
    show execProtoSetBaudrate s = _
    unfold execProtoSetBaudrate
    rw [hm]
    rcases p with _ | ⟨k, _ | ⟨k2, p⟩⟩
    · exact sent _ _
    · exact if_pos (show k.toNat < baudTable.length from hi k rfl rfl)
    · exact sent _ _
  all_goals exact sent _ _

/-- The codes of the host's check are those of the request rows. -/
theorem isRequestCode_iff (c : Byte) : isRequestCode c = true ↔ ∃ i, (i, c) ∈ requestRows := by
  have h : (∃ i, (i, c) ∈ requestRows) ↔ c ∈ requestRows.map Prod.snd := by simp [List.mem_map]
  rw [h]
  clear h
  revert c; decide

/-- A code decoded from a frame in hand is a protocol instruction. -/
theorem decodeProto_format (c : Byte) (i : Instr) (h : decodeProto c = some i) : (encode i).1 = .proto8 := by
  unfold decodeProto at h
  split at h <;> first | (injection h with h; subst h; rfl) | cases h

theorem decodeCmd_format (cw : CmdWord) : (encode (decodeCmd cw)).1 = .cw12 := by
  unfold decodeCmd instrOfOp
  split <;> rfl

/-- A wire byte of any class is one RX_PUSH of it (R260). -/
theorem exec_wire (b : Byte) (s : State) : exec (decodeWire b) s = .next (rxPushOp b s) := by
  have hb : b = byteOf (hi4 b) (lo4 b) := by simp
  obtain h | h | h | h | h | h | h | h | h | h | h | h | h | h | h | h := nibble_cases (hi4 b) <;>
    (conv_rhs => rw [hb, h]) <;> simp only [decodeWire, h] <;> rfl

/-- An unlisted code touches the host's record alone. -/
theorem dispatchUnlisted_host (s : State) : ∃ h, dispatchUnlisted s = setHost h s := by
  unfold dispatchUnlisted
  split
  · exact ⟨s.host, rfl⟩
  · exact ⟨_, rfl⟩
  · exact ⟨_, rfl⟩

/-- Writing the TX bytes to the line touches the host's record alone. -/
theorem writeTx_eq (sent : Nat) (s : State) :
    writeTx sent s = setHost { s.host with
      lineOut := if s.host.conn = .opened then s.host.lineOut ++ s.tx.drop sent else s.host.lineOut } s := by
  unfold writeTx
  split <;> next h => first | rw [if_neg (by rw [h]; decide)]; rfl | rw [if_pos h]

/-- With nothing emitted there is nothing to write. -/
theorem writeTx_none (s t : State) (h : t.tx = s.tx) : writeTx s.tx.length t = t := by
  rw [writeTx_eq, h]
  simp [setHost]

theorem afterInstr_next (s t : State) (hm : s.host.msg = none) :
    afterInstr s (.next t) = .next (writeTx s.tx.length t) := by
  unfold afterInstr; rw [hm]

theorem afterInstr_inHand (s : State) (m : HostMsg) (hm : s.host.msg = some m)
    (o : Host.Outcome State Fault Refusal) : afterInstr s o = o := by
  unfold afterInstr; rw [hm]

/-- Close touches the encoder's phase, the receive buffer, the response and the host's record. -/
theorem closeOp_cases (s : State) :
    ∃ h, closeOp s = setHost h s ∨ closeOp s = setHost h (rxFlushOp (encAbortOp s)) := by
  unfold closeOp
  split
  · exact ⟨_, .inl rfl⟩
  · exact ⟨_, .inr rfl⟩
  · obtain ⟨h, e⟩ := cancelPending_host s
    rw [e]
    exact ⟨_, .inr rfl⟩

/-- A poll pushes its bytes, and then PARSE and the host's record are all it uses. -/
theorem pollOp_only (bytes : List Byte) (ms : Nat) (s : State) : ParserOnly (pushAll bytes s) (pollOp bytes ms s) := by
  unfold pollOp
  dsimp only
  split
  · exact reactToFull_only _
  · next q _ =>
    have h := pollDrain_only ((pushAll bytes s).rxBuf.length + 1) (pushAll bytes s)
    split
    · next u e => rw [e] at h; exact h
    · next u e =>
      rw [e] at h
      obtain ⟨g, hg⟩ := checkTimeout_host q ms (reactToFull u)
      rw [hg]
      exact (h.trans (reactToFull_only u)).setHost g

/-- The instruction of an input, if it is one. -/
def inputInstr : Input → Option Instr
  | .word cw => some (decodeCmd cw)
  | .wire b => some (decodeWire b)
  | _ => none

theorem fetch_input (s : State) (inp : Input) (rest : List Input) (hm : s.host.msg = none)
    (hi : s.inputs = inp :: rest) : fetch s = inputInstr inp := by
  unfold fetch
  rw [hm, hi]
  cases inp <;> rfl

/-- A step on an input that is no instruction. -/
theorem step_hostInput (s : State) (inp : Input) (rest : List Input) (hm : s.host.msg = none)
    (hi : s.inputs = inp :: rest) (hn : inputInstr inp = none) :
    step s = .next (hostInput inp (setInputs rest s)) := by
  unfold step
  rw [fetch_input s inp rest hm hi, hn]
  simp [noInstr, hm, hi]

/-- What one step can do. -/
theorem step_cases (s t : State) (hstep : step s = .next t) :
    (∃ cw rest u, s.host.msg = none ∧ s.inputs = .word cw :: rest ∧ fetch s = some (decodeCmd cw) ∧
      exec (decodeCmd cw) (setInputs rest s) = .next u ∧ t = writeTx s.tx.length u) ∨
    (∃ b rest, s.host.msg = none ∧ s.inputs = .wire b :: rest ∧ t = rxPushOp b (setInputs rest s)) ∨
    (∃ h inputs, t = setHost h (setInputs inputs s)) ∨
    (∃ c d a p line, s.host.msg = some (.request a d p line) ∧ t = hostRequest c a p line s) ∨
    (∃ rest, s.host.msg = none ∧ s.inputs = .reset :: rest ∧ t = blockReset (setInputs rest s)) ∨
    (∃ rest, s.host.msg = none ∧ s.inputs = .close :: rest ∧ t = closeOp (setInputs rest s)) ∨
    (∃ bytes ms rest, s.host.msg = none ∧ s.inputs = .poll bytes ms :: rest ∧
      t = pollOp bytes ms (setInputs rest s)) := by
  unfold step at hstep
  cases hm : s.host.msg with
  | some m =>
    cases hd : decodeProto (msgCommand m) with
    | some i =>
      simp only [fetch, hm, hd, takeNext, afterInstr] at hstep
      rcases exec_proto_cases i s (decodeProto_format _ i hd) with ⟨h, e⟩ | ⟨c, d, a, p, line, hr, e⟩
      · rw [e] at hstep
        injection hstep with hstep
        exact .inr (.inr (.inl ⟨h, s.inputs, hstep.symm⟩))
      · rw [e] at hstep
        injection hstep with hstep
        exact .inr (.inr (.inr (.inl ⟨c, d, a, p, line, by rw [← hm, hr], hstep.symm⟩)))
    | none =>
      simp only [fetch, hm, hd, noInstr] at hstep
      injection hstep with hstep
      obtain ⟨h, e⟩ := dispatchUnlisted_host s
      exact .inr (.inr (.inl ⟨h, s.inputs, by rw [← hstep, e]; rfl⟩))
  | none =>
    cases hi : s.inputs with
    | nil =>
      simp only [fetch, hm, hi, noInstr] at hstep
      injection hstep with hstep
      exact .inr (.inr (.inl ⟨s.host, s.inputs, hstep.symm⟩))
    | cons inp rest =>
      have other : inputInstr inp = none → t = hostInput inp (setInputs rest s) := by
        intro hn
        have e := step_hostInput s inp rest hm hi hn
        unfold step at e
        rw [e] at hstep
        injection hstep with hstep
        exact hstep.symm
      have hostOnly : inputInstr inp = none →
          (∃ h, hostInput inp (setInputs rest s) = setHost h (setInputs rest s)) →
          ∃ h inputs, t = setHost h (setInputs inputs s) := fun hn ⟨h, e⟩ => ⟨h, rest, (other hn).trans e⟩
      have hf := fetch_input s inp rest hm hi
      cases inp with
      | word cw =>
        simp only [hf, inputInstr, takeNext, hm, hi, List.tail_cons] at hstep
        cases he : exec (decodeCmd cw) (setInputs rest s) with
        | next u =>
          rw [he, afterInstr_next s u hm] at hstep
          injection hstep with hstep
          exact .inl ⟨cw, rest, u, rfl, rfl, hf, he, hstep.symm⟩
        | fault f => cases f
        | refused r =>
          rw [he] at hstep
          simp [afterInstr, hm] at hstep
      | wire b =>
        simp only [hf, inputInstr, takeNext, hm, hi, List.tail_cons, exec_wire] at hstep
        have htx : (rxPushOp b (setInputs rest s)).tx = s.tx := by
          rcases rxPushOp_cases b (setInputs rest s) with ⟨-, e⟩ | ⟨-, e⟩ <;> rw [e] <;> rfl
        rw [afterInstr_next s _ hm, writeTx_none s _ htx] at hstep
        injection hstep with hstep
        exact .inr (.inl ⟨b, rest, rfl, rfl, hstep.symm⟩)
      | reset => exact .inr (.inr (.inr (.inr (.inl ⟨rest, rfl, rfl, other rfl⟩))))
      | close => exact .inr (.inr (.inr (.inr (.inr (.inl ⟨rest, rfl, rfl, other rfl⟩)))))
      | poll bytes ms => exact .inr (.inr (.inr (.inr (.inr (.inr ⟨bytes, ms, rest, rfl, rfl, other rfl⟩)))))
      | openCall => exact .inr (.inr (.inl (hostOnly rfl (openCallOp_host _))))
      | openAnswer r => exact .inr (.inr (.inl (hostOnly rfl (openAnswerOp_host r _))))
      | execute a c p line => exact .inr (.inr (.inl (hostOnly rfl (executeCall_host _ _ _ _ _))))
      | setBaudrate k line => exact .inr (.inr (.inl (hostOnly rfl (setBaudrateCall_host _ _ _))))
      | setSmartLed a v group r g b line => exact .inr (.inr (.inl (hostOnly rfl (executeCall_host _ _ _ _ _))))

end Sys2Proof.Machine
end

