-- ==== Sys2Proof/Tests/Slice0.lean ====
section
/-! SUPPORT. The model's own tests. Expected results come from the spec: the encoding tables R61, R71 and R201, and the
vectors and programs of 95_test_vectors.md, whose numbers (V-E6, P3, ...) stand in each comment. Then one witness per
statement with hypotheses: a state and operands that meet them all. -/

namespace Sys2Proof.Tests

open Sys2Proof Sys2Proof.Machine

/-! ### Helpers -/

/-- The state an outcome answers, if it is one. -/
def after : Host.Outcome State Fault Refusal → Option State
  | .next t => some t
  | .fault _ => none
  | .refused _ => none

/-- One step of the command word `cw` as the next thing at the inputs. -/
def cwStep (cw : Nat) (s : State) : Option State := after (step (s.withFetchWord 12 cw))

/-- What a command word answers. -/
def answer (cw : Nat) (s : State) : Option Response := (cwStep cw s).bind (fun t => t.resp)

/-- The encoder waiting for a command, after ENC_START 1. -/
def needCmdState : State := { State.reset with encPhase := .needCmd, encAcc := 0x81#8, tx := [0x81#8] }

/-- The encoder in the body of the frame `81 40 00`. -/
def bodyState : State :=
  { State.reset with encPhase := .body, encAcc := 0xC1#8, tx := [0x81#8, 0x40#8, 0x00#8] }

/-- A receive buffer under a policy. -/
def rxState (policy : CksumPolicy) (buf : List Byte) : State :=
  { State.reset with cfg := { State.reset.cfg with cksumPolicy := policy }, rxBuf := buf }

/-- A bounded receive buffer, `RX_CAP = 5`. -/
def cappedState (buf : List Byte) : State :=
  { State.reset with cfg := { State.reset.cfg with rxCap := .bytes 5 }, rxBuf := buf }

/-- All sticky bits set. -/
def stickyState : State := { State.reset with stRxOvf := true, stEncSeq := true, stOpIll := true }

/-- A line that opens and writes every byte. -/
def goodLine : LineReport := { opens := .granted, written := none }

/-- The host with an open line and a frame in hand. -/
def inHand (m : Option HostMsg) : State :=
  { State.reset with host := { HostState.initial with conn := .opened, msg := m } }

/-- A pending GetSliders exchange with device 5, 100 ms old, over a receive buffer. -/
def pendingState (buf : List Byte) (inputs : List Input) : State :=
  { State.reset with
    rxBuf := buf
    inputs := inputs
    host := { HostState.initial with
      conn := .opened
      pending := some { address := 5#4, command := 0x21#8, payload := [], elapsedMs := 100 } } }

/-- The same exchange with `RX_CAP = 5`. -/
def cappedPending (buf : List Byte) (inputs : List Input) : State :=
  { pendingState buf inputs with cfg := { State.reset.cfg with rxCap := .bytes 5 } }

/-- `F1` of 95_test_vectors.md section 4. -/
def frame1 : List Byte := [0x81#8, 0x40#8, 0x00#8, 0x6C#8, 0x21#8]

/-- The outcome of PARSE on a buffer under ENFORCE, and the buffer after it. -/
def parsed (buf : List Byte) : ParseOutcome × List Byte := parseBuffer .enforce buf

/-! ### WellFormed: an ill-formed term for each check, and a well-formed one -/

theorem test_wellFormed_nop : (Instr.nop 0x01#8).wellFormed = false ∧ (Instr.nop 0x00#8).wellFormed = true := by decide

theorem test_wellFormed_encStart : (Instr.encStart 0x1F#8).wellFormed = false ∧ (Instr.encStart 0x0F#8).wellFormed = true := by decide

theorem test_wellFormed_encEnd : (Instr.encEnd 0x80#8).wellFormed = false ∧ (Instr.encEnd 0x00#8).wellFormed = true := by decide

theorem test_wellFormed_encAbort : (Instr.encAbort 0x01#8).wellFormed = false ∧ (Instr.encAbort 0x00#8).wellFormed = true := by decide

theorem test_wellFormed_reserved6 : (Instr.reserved6 0x01#8).wellFormed = false ∧ (Instr.reserved6 0x00#8).wellFormed = true := by decide

theorem test_wellFormed_reserved7 : (Instr.reserved7 0xAB#8).wellFormed = false ∧ (Instr.reserved7 0x00#8).wellFormed = true := by decide

theorem test_wellFormed_parse : (Instr.parse 0x01#8).wellFormed = false ∧ (Instr.parse 0x00#8).wellFormed = true := by decide

theorem test_wellFormed_rxFlush : (Instr.rxFlush 0xFF#8).wellFormed = false ∧ (Instr.rxFlush 0x00#8).wellFormed = true := by decide

theorem test_wellFormed_reservedB : (Instr.reservedB 0x01#8).wellFormed = false ∧ (Instr.reservedB 0x00#8).wellFormed = true := by decide

theorem test_wellFormed_reservedC : (Instr.reservedC 0x01#8).wellFormed = false ∧ (Instr.reservedC 0x00#8).wellFormed = true := by decide

theorem test_wellFormed_reservedD : (Instr.reservedD 0x01#8).wellFormed = false ∧ (Instr.reservedD 0x00#8).wellFormed = true := by decide

theorem test_wellFormed_statRead : (Instr.statRead 0xFF#8).wellFormed = false ∧ (Instr.statRead 0x00#8).wellFormed = true := by decide

theorem test_wellFormed_statClr : (Instr.statClr 0x08#8).wellFormed = false ∧ (Instr.statClr 0x07#8).wellFormed = true := by decide

/-! ### Words written out bit by bit (R71, R61, R201), one per constructor -/

theorem test_decode_cw12_low :
  decode .cw12 0b000000000000 = .ok (.nop 0x00#8) ∧
  decode .cw12 0b000100000101 = .ok (.encStart 0x05#8) ∧
  decode .cw12 0b001000100001 = .ok (.encCmd 0x21#8) ∧
  decode .cw12 0b001111111111 = .ok (.encData 0xFF#8) ∧
  decode .cw12 0b010000000000 = .ok (.encEnd 0x00#8) ∧
  decode .cw12 0b010100000001 = .ok (.encAbort 0x01#8) ∧
  decode .cw12 0b011010000000 = .ok (.reserved6 0x80#8) ∧
  decode .cw12 0b011110101011 = .ok (.reserved7 0xAB#8) := by decide

theorem test_decode_cw12_high :
  decode .cw12 0b100010000001 = .ok (.rxPush 0x81#8) ∧
  decode .cw12 0b100100000000 = .ok (.parse 0x00#8) ∧
  decode .cw12 0b101001111111 = .ok (.rxFlush 0x7F#8) ∧
  decode .cw12 0b101100000010 = .ok (.reservedB 0x02#8) ∧
  decode .cw12 0b110001000000 = .ok (.reservedC 0x40#8) ∧
  decode .cw12 0b110100000001 = .ok (.reservedD 0x01#8) ∧
  decode .cw12 0b111000010000 = .ok (.statRead 0x10#8) ∧
  decode .cw12 0b111100000111 = .ok (.statClr 0x07#8) := by decide

theorem test_decode_wire8_low :
  decode .wire8 0b00000011 = .ok (.wireCmdLo 0x3#4) ∧
  decode .wire8 0b00011010 = .ok (.wireDataLo 0xA#4) ∧
  decode .wire8 0b00100001 = .ok (.wireCkLoEnd 0x1#4) ∧
  decode .wire8 0b00111000 = .ok (.wireUnassigned3 0x8#4) ∧
  decode .wire8 0b01001111 = .ok (.wireCmdHi 0xF#4) ∧
  decode .wire8 0b01010110 = .ok (.wireDataHi 0x6#4) ∧
  decode .wire8 0b01101101 = .ok (.wireCkHi 0xD#4) ∧
  decode .wire8 0b01110100 = .ok (.wireUnassigned7 0x4#4) := by decide

theorem test_decode_wire8_high :
  decode .wire8 0b10001011 = .ok (.wireStart 0xB#4) ∧
  decode .wire8 0b10010010 = .ok (.wireUnassigned9 0x2#4) ∧
  decode .wire8 0b10101001 = .ok (.wireUnassignedA 0x9#4) ∧
  decode .wire8 0b10110000 = .ok (.wireUnassignedB 0x0#4) ∧
  decode .wire8 0b11000111 = .ok (.wireUnassignedC 0x7#4) ∧
  decode .wire8 0b11011110 = .ok (.wireUnassignedD 0xE#4) ∧
  decode .wire8 0b11100101 = .ok (.wireUnassignedE 0x5#4) ∧
  decode .wire8 0b11111100 = .ok (.wireUnassignedF 0xC#4) := by decide

theorem test_decode_proto8 :
  decode .proto8 0b00000000 = .ok .protoHello ∧
  decode .proto8 0b00000001 = .ok .protoSetBaudrate ∧
  decode .proto8 0b00010000 = .ok .protoSetLeds ∧
  decode .proto8 0b00010001 = .ok .protoSetSmartLeds ∧
  decode .proto8 0b00010010 = .ok .protoSetText ∧
  decode .proto8 0b00010011 = .ok .protoSetRelay ∧
  decode .proto8 0b00010100 = .ok .protoSetSpecificSmartLeds1 ∧
  decode .proto8 0b00010101 = .ok .protoSetSpecificSmartLeds2 ∧
  decode .proto8 0b00010110 = .ok .protoSetSpecificSmartLeds3 ∧
  decode .proto8 0b00100000 = .ok .protoGetKeys ∧
  decode .proto8 0b00100001 = .ok .protoGetSliders ∧
  decode .proto8 0b00100010 = .ok .protoGetEncoders ∧
  decode .proto8 0b00100011 = .ok .protoGetSensors ∧
  decode .proto8 0b00100100 = .ok .protoGetStikyKeys ∧
  decode .proto8 0b00101111 = .ok .protoGetState ∧
  decode .proto8 0b10000000 = .ok .protoSuccessTicket ∧
  decode .proto8 0b10000001 = .ok .protoUnknownTicket := by decide

/-- Numbers that are no word: a thirteenth bit, a ninth bit, a code outside R201. -/
theorem test_decode_refuses :
    decode .cw12 0x1000 = .error (.tooWide .cw12 0x1000) ∧ decode .wire8 0x100 = .error (.tooWide .wire8 0x100) ∧
    decode .proto8 0x30 = .error (.codeNotListed 0x30#8) := by decide

/-- No two rows of one format overlap: with masks and match values of the opcode table, a common word would need equal
match values under the common mask. -/
theorem test_rows_disjoint :
    [Laws.rowOf (.nop 0), Laws.rowOf (.encStart 0), Laws.rowOf (.encCmd 0), Laws.rowOf (.encData 0),
      Laws.rowOf (.encEnd 0), Laws.rowOf (.encAbort 0), Laws.rowOf (.reserved6 0), Laws.rowOf (.reserved7 0),
      Laws.rowOf (.rxPush 0), Laws.rowOf (.parse 0), Laws.rowOf (.rxFlush 0), Laws.rowOf (.reservedB 0),
      Laws.rowOf (.reservedC 0), Laws.rowOf (.reservedD 0), Laws.rowOf (.statRead 0), Laws.rowOf (.statClr 0),
      Laws.rowOf (.wireStart 0), Laws.rowOf (.wireCmdHi 0), Laws.rowOf (.wireCmdLo 0), Laws.rowOf (.wireDataHi 0),
      Laws.rowOf (.wireDataLo 0), Laws.rowOf (.wireCkHi 0), Laws.rowOf (.wireCkLoEnd 0),
      Laws.rowOf (.wireUnassigned3 0), Laws.rowOf (.wireUnassigned7 0), Laws.rowOf (.wireUnassigned9 0),
      Laws.rowOf (.wireUnassignedA 0), Laws.rowOf (.wireUnassignedB 0), Laws.rowOf (.wireUnassignedC 0),
      Laws.rowOf (.wireUnassignedD 0), Laws.rowOf (.wireUnassignedE 0), Laws.rowOf (.wireUnassignedF 0),
      Laws.rowOf .protoHello, Laws.rowOf .protoSetBaudrate, Laws.rowOf .protoSetLeds, Laws.rowOf .protoSetSmartLeds,
      Laws.rowOf .protoSetText, Laws.rowOf .protoSetRelay, Laws.rowOf .protoSetSpecificSmartLeds1,
      Laws.rowOf .protoSetSpecificSmartLeds2, Laws.rowOf .protoSetSpecificSmartLeds3, Laws.rowOf .protoGetKeys,
      Laws.rowOf .protoGetSliders, Laws.rowOf .protoGetEncoders, Laws.rowOf .protoGetSensors,
      Laws.rowOf .protoGetStikyKeys, Laws.rowOf .protoGetState, Laws.rowOf .protoSuccessTicket,
      Laws.rowOf .protoUnknownTicket].Pairwise
        (fun x y => x.1 ≠ y.1 ∨ (x.2.2 &&& y.2.1) ≠ (y.2.2 &&& x.2.1)) := by decide

/-- The host's numbering: 12-bit words in 16 bits; a listed code before a wire byte class in 8 bits. -/
theorem test_tableWord :
    decodeTableWord 16 0x881 = some (.rxPush 0x81#8) ∧ decodeTableWord 16 0x1000 = none ∧
    decodeTableWord 8 0x2F = some .protoGetState ∧ decodeTableWord 8 0x85 = some (.wireStart 0x5#4) ∧
    decodeTableWord 32 0 = none := by decide

/-- A placed word is what the next step runs. -/
theorem test_placed_words_are_fetched :
    fetch (State.reset.withFetchWord 16 0xE00) = some (.statRead 0x00#8) ∧
    fetch (State.reset.withFetchWord 8 0x9F) = some (.wireUnassigned9 0xF#4) ∧
    fetch (State.reset.withFetchWord 8 0x23) = some .protoGetSensors ∧
    fetch (State.reset.withFetchWord 8 0x01) = some .protoSetBaudrate := by decide

/-- R76's examples of assembly. -/
theorem test_assembleLine :
    assembleLine "ENC_START 0x1" = some 0x101#12 ∧ assembleLine "ENC_CMD 0x21" = some 0x221#12 ∧
    assembleLine "ENC_END" = some 0x400#12 ∧ assembleLine "RX_PUSH 0x81" = some 0x881#12 ∧
    assembleLine "PARSE ; cw=0x900" = some 0x900#12 ∧ assembleLine "STAT_CLR 0x7" = some 0xF07#12 := by decide

/-- A decimal operand, an operand too large, an operand where none is taken. -/
theorem test_assembleLine_operands :
    assembleLine "ENC_DATA 255" = some 0x3FF#12 ∧ assembleLine "ENC_DATA 256" = none ∧
    assembleLine "PARSE 0x00" = none ∧ assembleLine "ENC_CMD" = none := by decide

/-- R77's expansions; program P8 is the first. -/
theorem test_pseudo_instructions :
    encFrame 0x6#4 0x20#8 [0x05#8, 0x80#8] =
      [.encStart 0x06#8, .encCmd 0x20#8, .encData 0x05#8, .encData 0x80#8, .encEnd 0x00#8] ∧
    rxPushN [0x81#8, 0x40#8] = [.rxPush 0x81#8, .rxPush 0x40#8] ∧ statClrAll = [.statClr 0x07#8] := by decide

/-! ### The codec (95_test_vectors.md sections 2 and 3) -/

/-- V-E1. -/
theorem test_encode_E1 : encodeFrame 0x1#4 0x00#8 [] =
    [0x81#8, 0x40#8, 0x00#8, 0x6C#8, 0x21#8] := by decide

/-- V-E3. -/
theorem test_encode_E3 : encodeFrame 0xF#4 0xFF#8 [] =
    [0x8F#8, 0x4F#8, 0x0F#8, 0x6E#8, 0x2D#8] := by decide

/-- V-E6. -/
theorem test_encode_E6 : encodeFrame 0x2#4 0x13#8 [0x05#8] =
    [0x82#8, 0x41#8, 0x03#8, 0x50#8, 0x15#8, 0x62#8, 0x2B#8] := by decide

/-- V-E7. -/
theorem test_encode_E7 : encodeFrame 0x3#4 0x80#8 [0xFF#8, 0x00#8] =
    [0x83#8, 0x48#8, 0x00#8, 0x5F#8, 0x1F#8, 0x50#8, 0x10#8, 0x6A#8, 0x29#8] := by decide

/-- V-E9. -/
theorem test_encode_E9 : encodeFrame 0x7#4 0x10#8 [0xFF#8, 0xFF#8, 0xFF#8, 0xFF#8] =
    [0x87#8, 0x41#8, 0x00#8, 0x5F#8, 0x1F#8, 0x5F#8, 0x1F#8, 0x5F#8, 0x1F#8, 0x5F#8, 0x1F#8, 0x6C#8, 0x20#8] := by decide

/-- V-E10. -/
theorem test_encode_E10 : encodeFrame 0x4#4 0x22#8 [0x34#8, 0x12#8, 0xFF#8, 0xFF#8, 0x00#8, 0x00#8, 0x01#8, 0x00#8] =
    [0x84#8, 0x42#8, 0x02#8, 0x53#8, 0x14#8, 0x51#8, 0x12#8, 0x5F#8, 0x1F#8, 0x5F#8, 0x1F#8, 0x50#8, 0x10#8, 0x50#8, 0x10#8, 0x50#8, 0x11#8, 0x50#8, 0x10#8, 0x60#8, 0x2F#8] := by decide

/-- V-D6. -/
theorem test_decode_D6 :
    decodeFrame .enforce [0x81#8, 0x40#8, 0x00#8, 0x6C#8, 0x21#8, 0x00#8] = .sizeError [0x81#8, 0x40#8, 0x00#8, 0x6C#8, 0x21#8, 0x00#8] ∧
    decodeFrame .permissive [0x81#8, 0x40#8, 0x00#8, 0x6C#8, 0x21#8, 0x00#8] = .sizeError [0x81#8, 0x40#8, 0x00#8, 0x6C#8, 0x21#8, 0x00#8] := by decide

/-- V-D9. -/
theorem test_decode_D9 :
    decodeFrame .enforce [0x82#8, 0x41#8, 0x03#8, 0x50#8, 0x15#8, 0x62#8, 0x2B#8] = .success 0x2#4 0x13#8 [0x05#8] ∧
    decodeFrame .permissive [0x82#8, 0x41#8, 0x03#8, 0x50#8, 0x15#8, 0x62#8, 0x2B#8] = .success 0x2#4 0x13#8 [0x05#8] := by decide

/-- V-D10. -/
theorem test_decode_D10 :
    decodeFrame .enforce [0x01#8, 0x40#8, 0x00#8, 0x6C#8, 0x21#8] = .checksumError [0x01#8, 0x40#8, 0x00#8, 0x6C#8, 0x21#8] ∧
    decodeFrame .permissive [0x01#8, 0x40#8, 0x00#8, 0x6C#8, 0x21#8] = .success 0x1#4 0x00#8 [] := by decide

/-- V-D14. -/
theorem test_decode_D14 :
    decodeFrame .enforce [0x81#8, 0x40#8, 0x40#8, 0x6C#8, 0x21#8] = .tagError [0x81#8, 0x40#8, 0x40#8, 0x6C#8, 0x21#8] ∧
    decodeFrame .permissive [0x81#8, 0x40#8, 0x40#8, 0x6C#8, 0x21#8] = .tagError [0x81#8, 0x40#8, 0x40#8, 0x6C#8, 0x21#8] := by decide

/-- V-D16. -/
theorem test_decode_D16 :
    decodeFrame .enforce [0x81#8, 0x40#8, 0x00#8, 0x2C#8, 0x21#8] = .tagError [0x81#8, 0x40#8, 0x00#8, 0x2C#8, 0x21#8] ∧
    decodeFrame .permissive [0x81#8, 0x40#8, 0x00#8, 0x2C#8, 0x21#8] = .tagError [0x81#8, 0x40#8, 0x00#8, 0x2C#8, 0x21#8] := by decide

/-- V-D19. -/
theorem test_decode_D19 :
    decodeFrame .enforce [0x82#8, 0x41#8, 0x03#8, 0x10#8, 0x55#8, 0x62#8, 0x2B#8] = .tagError [0x82#8, 0x41#8, 0x03#8, 0x10#8, 0x55#8, 0x62#8, 0x2B#8] ∧
    decodeFrame .permissive [0x82#8, 0x41#8, 0x03#8, 0x10#8, 0x55#8, 0x62#8, 0x2B#8] = .tagError [0x82#8, 0x41#8, 0x03#8, 0x10#8, 0x55#8, 0x62#8, 0x2B#8] := by decide

/-- V-D21. -/
theorem test_decode_D21 :
    decodeFrame .enforce [0x81#8, 0x40#8, 0x00#8, 0x81#8, 0x40#8, 0x6C#8, 0x21#8] = .tagError [0x81#8, 0x40#8, 0x00#8, 0x81#8, 0x40#8, 0x6C#8, 0x21#8] ∧
    decodeFrame .permissive [0x81#8, 0x40#8, 0x00#8, 0x81#8, 0x40#8, 0x6C#8, 0x21#8] = .tagError [0x81#8, 0x40#8, 0x00#8, 0x81#8, 0x40#8, 0x6C#8, 0x21#8] := by decide

/-- V-D22. -/
theorem test_decode_D22 :
    decodeFrame .enforce [0x81#8, 0x00#8, 0x00#8, 0x6C#8, 0x22#8] = .tagError [0x81#8, 0x00#8, 0x00#8, 0x6C#8, 0x22#8] ∧
    decodeFrame .permissive [0x81#8, 0x00#8, 0x00#8, 0x6C#8, 0x22#8] = .tagError [0x81#8, 0x00#8, 0x00#8, 0x6C#8, 0x22#8] := by decide

/-- V-D23. -/
theorem test_decode_D23 :
    decodeFrame .enforce [0x81#8, 0x40#8, 0x00#8, 0x6C#8, 0x22#8] = .checksumError [0x81#8, 0x40#8, 0x00#8, 0x6C#8, 0x22#8] ∧
    decodeFrame .permissive [0x81#8, 0x40#8, 0x00#8, 0x6C#8, 0x22#8] = .success 0x1#4 0x00#8 [] := by decide

/-- V-D26. -/
theorem test_decode_D26 :
    decodeFrame .enforce [0x82#8, 0x40#8, 0x03#8, 0x50#8, 0x15#8, 0x62#8, 0x2B#8] = .checksumError [0x82#8, 0x40#8, 0x03#8, 0x50#8, 0x15#8, 0x62#8, 0x2B#8] ∧
    decodeFrame .permissive [0x82#8, 0x40#8, 0x03#8, 0x50#8, 0x15#8, 0x62#8, 0x2B#8] = .success 0x2#4 0x03#8 [0x05#8] := by decide

/-- The numbers of R74 and R75. -/
theorem test_response_codes :
    [codeBits .ok, codeBits .seq, codeBits .full, codeBits .illegal] = [0#2, 1#2, 2#2, 3#2] ∧
    [kindCode .needMoreData, kindCode (.success 0#4 0#8 []), kindCode (.skipped [0#8]), kindCode (.sizeError []),
      kindCode (.tagError []), kindCode (.checksumError [])] = [0#8, 1#8, 2#8, 3#8, 4#8, 5#8] := by decide

/-! ### The encoder's operations (V-E15 to V-E29, programs P1, P3, P7) -/

/-- V-E15: `arg[7:4]` is ignored and 15 is silent. -/
theorem test_encStart : answer 0x11F State.reset = some ⟨.ok, 0x01#8, none⟩ ∧
    (cwStep 0x11F State.reset).map (fun t => (t.tx, t.encPhase, t.encAcc)) = some ([0x8F#8], .needCmd, 0x8F#8) := by
  decide

/-- V-E22: an open frame is undisturbed. -/
theorem test_encStart_out_of_sequence : answer 0x102 needCmdState = some ⟨.seq, 0x00#8, none⟩ ∧
    (cwStep 0x102 needCmdState).map (fun t => (t.tx, t.encPhase, t.encAcc, t.stEncSeq)) =
      some ([0x81#8], .needCmd, 0x81#8, true) := by decide

/-- P1, second line. -/
theorem test_encCmd : answer 0x200 needCmdState = some ⟨.ok, 0x00#8, none⟩ ∧
    (cwStep 0x200 needCmdState).map (fun t => (t.tx, t.encPhase, t.encAcc)) =
      some ([0x81#8, 0x40#8, 0x00#8], .body, 0xC1#8) := by decide

/-- V-E19 and V-E26. -/
theorem test_encCmd_out_of_sequence : answer 0x200 State.reset = some ⟨.seq, 0x00#8, none⟩ ∧
    answer 0x200 bodyState = some ⟨.seq, 0x00#8, none⟩ := by decide

/-- V-E29: the accumulator wraps. -/
theorem test_encData : answer 0x3FF bodyState = some ⟨.ok, 0x00#8, none⟩ ∧
    (cwStep 0x3FF bodyState).map (fun t => (t.tx.drop 3, t.encPhase, t.encAcc)) =
      some ([0x5F#8, 0x1F#8], .body, 0x3F#8) := by decide

/-- V-E20 and V-E23. -/
theorem test_encData_out_of_sequence : answer 0x300 State.reset = some ⟨.seq, 0x00#8, none⟩ ∧
    answer 0x300 needCmdState = some ⟨.seq, 0x00#8, none⟩ := by decide

/-- V-E27: the accumulator stays. -/
theorem test_encEnd : answer 0x400 bodyState = some ⟨.ok, 0x00#8, none⟩ ∧
    (cwStep 0x400 bodyState).map (fun t => (t.tx.drop 3, t.encPhase, t.encAcc)) =
      some ([0x6C#8, 0x21#8], .idle, 0xC1#8) := by decide

/-- V-E21 and V-E24. -/
theorem test_encEnd_out_of_sequence : answer 0x400 State.reset = some ⟨.seq, 0x00#8, none⟩ ∧
    answer 0x400 needCmdState = some ⟨.seq, 0x00#8, none⟩ := by decide

/-- V-E28. -/
theorem test_encAbort :
    (cwStep 0x500 bodyState).map (fun t => (t.resp, t.encPhase, t.encAcc, t.tx.length)) =
      some (some ⟨.ok, 0x00#8, none⟩, .idle, 0xC1#8, 3) := by decide

/-! ### The synchronizer (sections 4 and 5) -/

/-- V-C1 and V-C2. -/
theorem test_rxPush :
    (cwStep 0x881 State.reset).map (fun t => (t.resp, t.rxBuf)) = some (some ⟨.ok, 0x00#8, none⟩, [0x81#8]) ∧
    (cwStep 0x805 (cappedState [0#8, 1#8, 2#8, 3#8, 4#8])).map (fun t => (t.resp, t.rxBuf.length, t.stRxOvf)) =
      some (some ⟨.full, 0x00#8, none⟩, 5, true) := by decide

/-- V-C4: the overflow bit stays. -/
theorem test_rxFlush : (cwStep 0xA00 { rxState .enforce [0x81#8, 0x40#8] with stRxOvf := true }).map
    (fun t => (t.resp, t.rxBuf, t.stRxOvf)) = some (some ⟨.ok, 0x00#8, none⟩, [], true) := by decide

/-- V-P3, first PARSE. -/
theorem test_parse_skipped : (cwStep 0x900 (rxState .enforce ([0x00#8, 0x11#8, 0x22#8] ++ frame1))).map
    (fun t => (t.resp, t.rxBuf)) =
      some (some ⟨.ok, 0x02#8, some (.skipped [0x00#8, 0x11#8, 0x22#8])⟩, frame1) := by decide

/-- P5, both policies. -/
theorem test_parse_policy :
    answer 0x900 (rxState .enforce [0x82#8, 0x41#8, 0x03#8, 0x50#8, 0x15#8, 0x62#8, 0x2C#8]) =
      some ⟨.ok, 0x05#8, some (.checksumError [0x82#8, 0x41#8, 0x03#8, 0x50#8, 0x15#8, 0x62#8, 0x2C#8])⟩ ∧
    answer 0x900 (rxState .permissive [0x82#8, 0x41#8, 0x03#8, 0x50#8, 0x15#8, 0x62#8, 0x2C#8]) =
      some ⟨.ok, 0x01#8, some (.success 2#4 0x13#8 [0x05#8])⟩ := by decide

/-- V-P1, V-P2, V-P4: nothing to give, the bytes stay. -/
theorem test_parse_needMoreData :
    parsed [] = (.needMoreData, []) ∧
    parsed [0x00#8, 0x11#8, 0x22#8] = (.needMoreData, [0x00#8, 0x11#8, 0x22#8]) ∧
    parsed [0x81#8, 0x40#8, 0x00#8] = (.needMoreData, [0x81#8, 0x40#8, 0x00#8]) := by decide

/-- V-P5, V-P6, V-P11, V-P12. -/
theorem test_parse_short :
    parsed [0x81#8, 0x21#8] = (.sizeError [0x81#8, 0x21#8], []) ∧
    parsed (0x21#8 :: frame1) = (.skipped [0x21#8], frame1) ∧
    parsed [0x95#8, 0x83#8] = (.skipped [0x95#8], [0x83#8]) ∧
    parsed (frame1 ++ [0x07#8]) = (.success 1#4 0x00#8 [], [0x07#8]) := by decide

/-- V-P8 and V-P9: a truncated frame takes the next one with it. -/
theorem test_parse_merged :
    parsed [0x81#8, 0x40#8, 0x00#8, 0x82#8, 0x41#8, 0x03#8, 0x50#8, 0x15#8, 0x62#8, 0x2B#8] =
      (.sizeError [0x81#8, 0x40#8, 0x00#8, 0x82#8, 0x41#8, 0x03#8, 0x50#8, 0x15#8, 0x62#8, 0x2B#8], []) ∧
    parsed [0x81#8, 0x40#8, 0x82#8, 0x41#8, 0x03#8, 0x50#8, 0x15#8, 0x62#8, 0x2B#8] =
      (.tagError [0x81#8, 0x40#8, 0x82#8, 0x41#8, 0x03#8, 0x50#8, 0x15#8, 0x62#8, 0x2B#8], []) := by decide

/-- V-P13: a whole drain. -/
theorem test_drain : (drain (rxState .enforce ([0x33#8] ++ frame1 ++ [0x44#8, 0x55#8] ++ frame1))).1 =
    [.skipped [0x33#8], .success 1#4 0x00#8 [], .skipped [0x44#8, 0x55#8], .success 1#4 0x00#8 []] := by decide

/-! ### Control (section 5, programs P6 and P7) -/

/-- V-C12. -/
theorem test_nop : (cwStep 0x0FF bodyState).map (fun t => (t.resp, t.encPhase, t.stOpIll)) =
    some (some ⟨.ok, 0x00#8, none⟩, .body, false) := by decide

/-- V-C5, V-C6, V-C8, V-C9. -/
theorem test_statRead :
    answer 0xE00 State.reset = some ⟨.ok, 0x20#8, none⟩ ∧
    answer 0xE00 (rxState .permissive []) = some ⟨.ok, 0x00#8, none⟩ ∧
    answer 0xE00 needCmdState = some ⟨.ok, 0x28#8, none⟩ ∧
    answer 0xEFF stickyState = some ⟨.ok, 0x27#8, none⟩ := by decide

/-- V-C7, and P6's fourth line. -/
theorem test_statRead_pending : answer 0xE00 { bodyState with rxBuf := [0x00#8] } = some ⟨.ok, 0x70#8, none⟩ ∧
    answer 0xE00 { cappedState [0#8, 1#8, 2#8, 3#8, 4#8] with stRxOvf := true } = some ⟨.ok, 0x61#8, none⟩ := by
  decide

/-- V-C10. -/
theorem test_statClr : (cwStep 0xF02 stickyState).map (fun t => (t.stRxOvf, t.stEncSeq, t.stOpIll)) =
    some (true, false, true) := by decide

/-- V-C11. -/
theorem test_statClr_none : (cwStep 0xFF8 stickyState).map (fun t => (t.stRxOvf, t.stEncSeq, t.stOpIll)) =
    some (true, true, true) := by decide

/-- V-C13. -/
theorem test_reserved6 : (cwStep 0x600 bodyState).map (fun t => (t.resp, t.stOpIll, t.encPhase, t.tx.length)) =
    some (some ⟨.illegal, 0x00#8, none⟩, true, .body, 3) := by decide

/-- V-C13. -/
theorem test_reserved7 : (cwStep 0x7AB bodyState).map (fun t => (t.resp, t.stOpIll, t.encPhase, t.tx.length)) =
    some (some ⟨.illegal, 0x00#8, none⟩, true, .body, 3) := by decide

/-- V-C13. -/
theorem test_reservedB : (cwStep 0xB00 bodyState).map (fun t => (t.resp, t.stOpIll, t.encPhase, t.tx.length)) =
    some (some ⟨.illegal, 0x00#8, none⟩, true, .body, 3) := by decide

/-- V-C13. -/
theorem test_reservedC : (cwStep 0xC00 bodyState).map (fun t => (t.resp, t.stOpIll, t.encPhase, t.tx.length)) =
    some (some ⟨.illegal, 0x00#8, none⟩, true, .body, 3) := by decide

/-- V-C13. -/
theorem test_reservedD : (cwStep 0xD01 bodyState).map (fun t => (t.resp, t.stOpIll, t.encPhase, t.tx.length)) =
    some (some ⟨.illegal, 0x00#8, none⟩, true, .body, 3) := by decide

/-! ### Wire bytes (R61, R260): one RX_PUSH each -/

theorem test_wire_bytes_low :
  after (exec (.wireCmdLo 0x3#4) State.reset) = some (rxPushOp 0x03#8 State.reset) ∧
  after (exec (.wireDataLo 0xA#4) State.reset) = some (rxPushOp 0x1A#8 State.reset) ∧
  after (exec (.wireCkLoEnd 0x1#4) State.reset) = some (rxPushOp 0x21#8 State.reset) ∧
  after (exec (.wireUnassigned3 0x8#4) State.reset) = some (rxPushOp 0x38#8 State.reset) ∧
  after (exec (.wireCmdHi 0xF#4) State.reset) = some (rxPushOp 0x4F#8 State.reset) ∧
  after (exec (.wireDataHi 0x6#4) State.reset) = some (rxPushOp 0x56#8 State.reset) ∧
  after (exec (.wireCkHi 0xD#4) State.reset) = some (rxPushOp 0x6D#8 State.reset) ∧
  after (exec (.wireUnassigned7 0x4#4) State.reset) = some (rxPushOp 0x74#8 State.reset) := by decide

theorem test_wire_bytes_high :
  after (exec (.wireStart 0xB#4) State.reset) = some (rxPushOp 0x8B#8 State.reset) ∧
  after (exec (.wireUnassigned9 0x2#4) State.reset) = some (rxPushOp 0x92#8 State.reset) ∧
  after (exec (.wireUnassignedA 0x9#4) State.reset) = some (rxPushOp 0xA9#8 State.reset) ∧
  after (exec (.wireUnassignedB 0x0#4) State.reset) = some (rxPushOp 0xB0#8 State.reset) ∧
  after (exec (.wireUnassignedC 0x7#4) State.reset) = some (rxPushOp 0xC7#8 State.reset) ∧
  after (exec (.wireUnassignedD 0xE#4) State.reset) = some (rxPushOp 0xDE#8 State.reset) ∧
  after (exec (.wireUnassignedE 0x5#4) State.reset) = some (rxPushOp 0xE5#8 State.reset) ∧
  after (exec (.wireUnassignedF 0xC#4) State.reset) = some (rxPushOp 0xFC#8 State.reset) := by decide

/-- A byte with an unassigned tag arrives and is kept (R64); a full buffer drops it (R151). -/
theorem test_wire_byte_kept :
    (after (step (State.reset.withFetchWord 8 0x95))).map (fun t => t.rxBuf) = some [0x95#8] ∧
    (after (step ((cappedState [0#8, 1#8, 2#8, 3#8, 4#8]).withFetchWord 8 0x95))).map (fun t => (t.rxBuf.length, t.stRxOvf)) =
      some (5, true) := by decide

/-! ### The protocol's replies (section 6) -/

/-- V-H1 and V-H2. -/
theorem test_keys : keys [] = List.replicate 18 false ∧
    keys [0x05#8, 0x80#8, 0x03#8] = (List.range 18).map (fun i => decide (i ∈ [0, 2, 15, 16, 17])) := by decide

/-- V-H3 and V-H7. -/
theorem test_sliders_and_sensors :
    sliders [0x10#8] = [16#8, 0#8, 0#8, 0#8, 0#8, 0#8, 0#8, 0#8] ∧ sensors [0xFF#8] = [255#8, 0#8] := by decide

/-- V-H4, V-H5 and V-H6. -/
theorem test_encoders :
    encoders (List.replicate 8 0x00#8) = [0#16, 0#16, 0#16, 0#16] ∧
    encoders [0x34#8, 0x12#8, 0xFF#8, 0xFF#8, 0x00#8, 0x00#8, 0x01#8, 0x00#8] =
      [0x1234#16, 0xFFFF#16, 0x0000#16, 0x0001#16] ∧
    encoders [0x34#8, 0x12#8, 0xFF#8] = [0x1234#16, 0x00FF#16, 0#16, 0#16] := by decide

/-- V-H8. -/
theorem test_stateEvent : stateEvent ((List.range 24).map (fun i => BitVec.ofNat 8 i)) =
    .state ((List.range 18).map (fun i => decide (i ∈ [8, 17])))
      [3#8, 4#8, 5#8, 6#8, 7#8, 8#8, 9#8, 10#8]
      [0x0C0B#16, 0x0E0D#16, 0x100F#16, 0x1211#16] [0x13#8, 0x14#8]
      ((List.range 18).map (fun i => decide (i ∈ [0, 2, 4, 9, 10, 12, 16, 17]))) := by decide

/-- The events a step adds to those before it. -/
def newEvents (s : State) : Option (List Event) := (after (step s)).map (fun t => t.host.events)

theorem test_protoGetKeys : newEvents (inHand (some (.reply 5#4 0x20#8 [0x05#8]))) =
    some [.keys (keys [0x05#8])] := by decide

theorem test_protoGetSliders : newEvents (inHand (some (.reply 5#4 0x21#8 [0x05#8]))) =
    some [.sliders [5#8, 0#8, 0#8, 0#8, 0#8, 0#8, 0#8, 0#8]] := by decide

theorem test_protoGetEncoders : newEvents (inHand (some (.reply 5#4 0x22#8 [0x05#8]))) =
    some [.encoders [5#16, 0#16, 0#16, 0#16]] := by decide

theorem test_protoGetSensors : newEvents (inHand (some (.reply 5#4 0x23#8 [0x05#8]))) =
    some [.sensors [5#8, 0#8]] := by decide

theorem test_protoGetStikyKeys : newEvents (inHand (some (.reply 5#4 0x24#8 [0x05#8]))) =
    some [.stikyKeys (keys [0x05#8])] := by decide

theorem test_protoGetState : newEvents (inHand (some (.reply 5#4 0x2F#8 [0x05#8]))) =
    some [stateEvent [0x05#8]] := by decide

/-- V-H9: the first event of a ticket reply (which notices follow is free). -/
theorem test_protoSuccessTicket :
    ((after (step (inHand (some (.reply 5#4 0x80#8 []))))).map (fun t => t.host.events.head?)) =
      some (some .ticketSuccess) := rfl

/-- V-H9. -/
theorem test_protoUnknownTicket :
    ((after (step (inHand (some (.reply 5#4 0x81#8 []))))).map (fun t => t.host.events.head?)) =
      some (some .ticketUnknown) := rfl

/-- R213: a reply with a code outside R201. -/
theorem test_rawReply : newEvents (inHand (some (.reply 5#4 0x30#8 [0x07#8]))) =
    some [.rawReply 5#4 0x30#8 [0x07#8]] := by decide

/-! ### The host's requests -/

/-- What a request with an empty payload to device 1 leaves on the line, and its pending command. -/
def sent (c : Byte) : Option (List Byte × Option Byte) :=
  (after (step (inHand (some (.request 1#4 c [] goodLine))))).map
    (fun t => (t.host.lineOut, t.host.pending.map (fun q => q.command)))

/-- The frame by hand from R103. -/
theorem test_protoHello : sent 0x00#8 =
    some ([0x81#8, 0x40#8, 0x00#8, 0x6C#8, 0x21#8], some 0x00#8) := by decide

/-- The frame by hand from R103. -/
theorem test_protoSetBaudrate : sent 0x01#8 =
    some ([0x81#8, 0x40#8, 0x01#8, 0x6C#8, 0x22#8], some 0x01#8) := by decide

/-- The frame by hand from R103. -/
theorem test_protoSetLeds : sent 0x10#8 =
    some ([0x81#8, 0x41#8, 0x00#8, 0x6C#8, 0x22#8], some 0x10#8) := by decide

/-- The frame by hand from R103. -/
theorem test_protoSetSmartLeds : sent 0x11#8 =
    some ([0x81#8, 0x41#8, 0x01#8, 0x6C#8, 0x23#8], some 0x11#8) := by decide

/-- The frame by hand from R103. -/
theorem test_protoSetText : sent 0x12#8 =
    some ([0x81#8, 0x41#8, 0x02#8, 0x6C#8, 0x24#8], some 0x12#8) := by decide

/-- The frame by hand from R103. -/
theorem test_protoSetRelay : sent 0x13#8 =
    some ([0x81#8, 0x41#8, 0x03#8, 0x6C#8, 0x25#8], some 0x13#8) := by decide

/-- The frame by hand from R103. -/
theorem test_protoSetSpecificSmartLeds1 : sent 0x14#8 =
    some ([0x81#8, 0x41#8, 0x04#8, 0x6C#8, 0x26#8], some 0x14#8) := by decide

/-- The frame by hand from R103. -/
theorem test_protoSetSpecificSmartLeds2 : sent 0x15#8 =
    some ([0x81#8, 0x41#8, 0x05#8, 0x6C#8, 0x27#8], some 0x15#8) := by decide

/-- The frame by hand from R103. -/
theorem test_protoSetSpecificSmartLeds3 : sent 0x16#8 =
    some ([0x81#8, 0x41#8, 0x06#8, 0x6C#8, 0x28#8], some 0x16#8) := by decide

/-- R204: index 8 is rejected, index 7 becomes the requested rate. -/
theorem test_setBaudrate_index :
    newEvents (inHand (some (.request 1#4 0x01#8 [0x08#8] goodLine))) = some [.error .invalidParameter] ∧
    (after (step (inHand (some (.request 1#4 0x01#8 [0x07#8] goodLine))))).map (fun t => statedRate t.host.lineRate) =
      some 115200 := by decide

/-- R267 and S8: address 0 is not awaited. -/
theorem test_silent_address :
    (after (step (inHand (some (.request 0#4 0x13#8 [0x05#8] goodLine))))).map
      (fun t => (t.host.events, t.host.pending, t.host.lineOut)) =
    some ([.replySilent 0#4 0x13#8], none, [0x80#8, 0x41#8, 0x03#8, 0x50#8, 0x15#8, 0x62#8, 0x29#8]) := by decide

/-- R264 and S9: busy. -/
theorem test_busy :
    (after (step { pendingState [] [] with
      host := { (pendingState [] []).host with msg := some (.request 1#4 0x20#8 [] goodLine) } })).map
      (fun t => (t.host.events, t.host.pending.map (fun q => q.command), t.tx)) =
    some ([.error .busy], some 0x21#8, []) := by decide

/-- R266: four of five bytes written. -/
theorem test_short_write :
    (after (step (inHand (some (.request 1#4 0x00#8 [] { goodLine with written := some 4 }))))).map
      (fun t => (t.host.events, t.host.pending, t.host.lineOut)) =
    some ([.error .writeShortfall], none, [0x81#8, 0x40#8, 0x00#8, 0x6C#8]) := by decide

/-- R206: clamping and packing of a channel over 0xFFF. -/
theorem test_smartLed : smartLedPayload .highFirst 0x02#8 0x123 0x2000 0 =
    [0x02#8, 0x01#8, 0x23#8, 0x0F#8, 0xFF#8, 0x00#8, 0x00#8] := by decide

/-- R273 and S10: 249 more milliseconds keep the exchange, 250 end it. -/
theorem test_timeout :
    (after (step (pendingState [] [.poll [] 249]))).map (fun t => (t.host.events, t.host.pending.isSome)) =
      some ([], true) ∧
    (after (step (pendingState [] [.poll [] 250]))).map (fun t => (t.host.events, t.host.pending.isSome)) =
      some ([.timeout 5#4 0x21#8 []], false) := by decide

/-- R269 to R271: garbage is reported, and the reply of program P2 is in hand after the same poll. -/
theorem test_poll_reply :
    (after (step (pendingState [] [.poll [0x00#8, 0x81#8, 0x40#8, 0x00#8, 0x6C#8, 0x21#8] 25]))).map
      (fun t => (t.host.events, t.host.pending.isSome, t.host.msg)) =
    some ([.parseError .frameSkipped [0x00#8]], false, some (.reply 1#4 0x00#8 [])) := by decide

/-- R260, R288: five bytes fill a buffer of five with an incomplete candidate and the sixth is dropped; the host flushes. -/
theorem test_poll_reacts_to_full :
    (after (step (cappedPending [] [.poll [0x81#8, 0x40#8, 0x00#8, 0x50#8, 0x10#8, 0x50#8] 25]))).map
      (fun t => (t.rxBuf, t.stRxOvf, t.host.pending.isSome, t.resp)) =
    some ([], true, true, some ⟨.ok, 0x00#8, none⟩) := by decide

/-- R288: a full buffer that PARSE frees is not flushed, and one with room after a dropped byte is not either. -/
theorem test_poll_keeps_what_parses :
    (after (step (cappedPending [] [.poll (frame1 ++ [0x07#8]) 25]))).map (fun t => (t.rxBuf, t.host.msg)) =
      some ([], some (.reply 1#4 0x00#8 [])) ∧
    (after (step (cappedPending [0x01#8] [.poll [0x81#8, 0x40#8, 0x00#8, 0x50#8, 0x10#8] 25]))).map
      (fun t => (t.rxBuf, t.stRxOvf)) = some ([0x81#8, 0x40#8, 0x00#8, 0x50#8], true) := by decide

/-- R200: the host sends request codes only; a ticket code and a code outside R201 are turned away. -/
theorem test_command_check :
    newEvents { State.reset with inputs := [.execute 1 0x30#8 [] goodLine] } = some [.error .invalidParameter] ∧
    newEvents { State.reset with inputs := [.execute 1 0x80#8 [] goodLine] } = some [.error .invalidParameter] ∧
    (after (step { State.reset with inputs := [.execute 15 0x24#8 [] goodLine] })).map (fun t => t.host.msg) =
      some (some (.request 15#4 0x24#8 [] goodLine)) := by decide

/-- R260: the TX bytes of a command word are on an open line, and on no other. -/
theorem test_word_bytes_reach_the_line :
    (cwStep 0x105 (inHand none)).map (fun t => t.host.lineOut) = some [0x85#8] ∧
    (cwStep 0x105 State.reset).map (fun t => (t.tx, t.host.lineOut)) = some ([0x85#8], []) := by decide

/-- R280: reset. -/
theorem test_reset_input :
    (after (step { stickyState with encPhase := .body, rxBuf := [0x81#8], inputs := [.reset] })).map
      (fun t => (t.encPhase, t.rxBuf, t.stRxOvf, t.stEncSeq, t.stOpIll)) = some (.idle, [], false, false, false) := by
  decide

/-! ### Witnesses: the hypotheses of the statements are met -/

theorem witness_EveryCommandWordHasAResult : (after (exec (decodeCmd 0xFFF#12) State.reset)).isSome = true := by decide

theorem witness_IgnoredBitsDoNotMatter :
    opField 0x100#12 = opField 0x1F0#12 ∧
    argField 0x100#12 &&& usedBits (opField 0x100#12) = argField 0x1F0#12 &&& usedBits (opField 0x1F0#12) ∧
    decode .cw12 (0x100#12).toNat = .ok (.encStart 0x00#8) ∧
    decode .cw12 (0x1F0#12).toNat = .ok (.encStart 0xF0#8) := by decide

theorem witness_EncStartOpensAFrame : State.reset.encPhase = .idle ∧ needCmdState.encPhase ≠ .idle ∧
    bodyState.encPhase ≠ .idle := by decide

theorem witness_EncCmdEmitsTheCommandPair : needCmdState.encPhase = .needCmd ∧ State.reset.encPhase ≠ .needCmd := by
  decide

theorem witness_EncDataEmitsADataPair : bodyState.encPhase = .body ∧ needCmdState.encPhase ≠ .body := by decide

theorem witness_EncEndClosesTheFrame : bodyState.encPhase = .body ∧ State.reset.encPhase ≠ .body := by decide

theorem witness_EncoderPhaseTable :
    (encode (.encEnd 0x00#8)).1 = .cw12 ∧ ∃ t, exec (.encEnd 0x00#8) bodyState = .next t := ⟨rfl, _, rfl⟩

theorem witness_EncFrameEmitsTheFrame : State.reset.encPhase = .idle := by decide

/-- At the boundary: `RX_CAP = 5` and the shortest frame. -/
theorem witness_EmittedFrameParsesBack :
    (cappedState []).encPhase = .idle ∧ (cappedState []).rxBuf = [] ∧
    Room (2 * ([] : List Byte).length + 5) (cappedState []) := ⟨rfl, rfl, (by decide : 0 + 5 ≤ 5)⟩

theorem witness_FrameLayout : [0x05#8, 0xFF#8][1]? = some 0xFF#8 := by decide

theorem witness_FrameBoundariesAreUnique :
    (encodeFrame 1#4 0x00#8 [])[0]? = some 0x81#8 ∧ (encodeFrame 1#4 0x00#8 [])[4]? = some 0x21#8 := by decide

theorem witness_SizeErrorExactlyOnBadLength :
    frame1.length - 1 < 5 ∧ (frame1 ++ [0x00#8]).length % 2 = 0 ∧ ¬ (frame1.length < 5 ∨ frame1.length % 2 = 0) := by
  decide

theorem witness_SuccessExactlyOnTaggedFrames : decodeFrame .enforce frame1 = .success 1#4 0x00#8 [] := by decide

theorem witness_ChecksumPolicyDecidesLast :
    decodeFrame .permissive [0x81#8, 0x40#8, 0x00#8, 0x6C#8, 0x22#8] = .success 1#4 0x00#8 [] ∧
    decodeFrame .permissive [0x81#8, 0x40#8, 0x40#8, 0x6C#8, 0x21#8] =
      .tagError [0x81#8, 0x40#8, 0x40#8, 0x6C#8, 0x21#8] := by decide

/-- Four bytes of five leave room, five do not. -/
theorem witness_RxPushAppendsOrDrops :
    (cappedState [0#8, 1#8, 2#8, 3#8, 4#8]).cfg.rxCap =
      .bytes (cappedState [0#8, 1#8, 2#8, 3#8, 4#8]).rxBuf.length ∧
    (cappedState [0#8, 1#8, 2#8, 3#8]).cfg.rxCap ≠ .bytes (cappedState [0#8, 1#8, 2#8, 3#8]).rxBuf.length := by decide

theorem witness_ParseCases_noStart : ∀ b ∈ (rxState .enforce [0x7F#8, 0x90#8]).rxBuf, b &&& 0xF0#8 ≠ 0x80#8 := by
  decide

theorem witness_ParseCases_garbage :
    (rxState .enforce [0x21#8, 0x81#8, 0x40#8]).rxBuf = [0x21#8] ++ 0x81#8 :: [0x40#8] ∧ [0x21#8] ≠ [] ∧
    (∀ x ∈ [0x21#8], x &&& 0xF0#8 ≠ 0x80#8) ∧ 0x81#8 &&& 0xF0#8 = 0x80#8 := by decide

theorem witness_ParseCases_incomplete :
    (rxState .enforce [0x8F#8, 0x40#8]).rxBuf = 0x8F#8 :: [0x40#8] ∧ 0x8F#8 &&& 0xF0#8 = 0x80#8 ∧
    ∀ x ∈ [0x40#8], x &&& 0xF0#8 ≠ 0x20#8 := by decide

theorem witness_ParseCases_candidate :
    (rxState .enforce (frame1 ++ [0x07#8])).rxBuf = 0x81#8 :: ([0x40#8, 0x00#8, 0x6C#8] ++ 0x21#8 :: [0x07#8]) ∧
    0x81#8 &&& 0xF0#8 = 0x80#8 ∧ (∀ x ∈ [0x40#8, 0x00#8, 0x6C#8], x &&& 0xF0#8 ≠ 0x20#8) ∧
    0x21#8 &&& 0xF0#8 = 0x20#8 := by decide

/-- At the boundary: five bytes into an empty buffer of five. -/
theorem witness_IncrementalEquivalence :
    ([[0x81#8, 0x40#8], [0x00#8, 0x6C#8, 0x21#8]] : List (List Byte)) ≠ [] ∧ [frame1] ≠ [] ∧
    ([[0x81#8, 0x40#8], [0x00#8, 0x6C#8, 0x21#8]] : List (List Byte)).flatten = [frame1].flatten ∧
    Room [frame1].flatten.length (cappedState []) :=
  ⟨by decide, by decide, rfl, (by decide : 0 + 5 ≤ 5)⟩

theorem witness_StreamingFormAgrees : (cappedState []).rxBuf = [] ∧ Room frame1.length (cappedState []) :=
  ⟨rfl, (by decide : 0 + 5 ≤ 5)⟩

theorem witness_ReservedCodesAreIllegal : (0xD00, Instr.reservedD 0x01#8) ∈
    [(0x600, Instr.reserved6 0x01#8), (0x700, Instr.reserved7 0x01#8), (0xB00, Instr.reservedB 0x01#8),
      (0xC00, Instr.reservedC 0x01#8), (0xD00, Instr.reservedD 0x01#8)] := by decide

theorem witness_StickyBitsClearedOnlyByName :
    ∃ t, step { stickyState with inputs := [.word 0xF07#12] } = .next t ∧ t.stRxOvf = false ∧ t.stEncSeq = false ∧
      t.stOpIll = false := ⟨_, rfl, by decide, by decide, by decide⟩

theorem witness_StickyBitsSetOnlyByTheirEvents :
    (encode (.encCmd 0x00#8)).1 = .cw12 ∧ ∃ t, exec (.encCmd 0x00#8) State.reset = .next t ∧
      State.reset.stEncSeq = false ∧ t.stEncSeq = true := ⟨rfl, _, rfl, by decide, by decide⟩

theorem witness_StickyBitsSetOnlyByTheirEvents_overflow :
    (encode (.rxPush 0x05#8)).1 = .cw12 ∧
    ∃ t, exec (.rxPush 0x05#8) (cappedState [0#8, 1#8, 2#8, 3#8, 4#8]) = .next t ∧ t.stRxOvf = true :=
  ⟨rfl, _, rfl, by decide⟩

theorem witness_StickyBitsSetOnlyByTheirEvents_reserved :
    (encode (.reservedC 0x00#8)).1 = .cw12 ∧
    ∃ t, exec (.reservedC 0x00#8) State.reset = .next t ∧ State.reset.stOpIll = false ∧ t.stOpIll = true :=
  ⟨rfl, _, rfl, by decide, by decide⟩

/-- Two states that agree on the encoder and differ in the buffer, and two that agree on the synchronizer and differ in
the encoder; an encoder operation and one of the others for the frames. -/
theorem witness_EncoderAndSynchronizerAreSeparate :
    (encode (.parse 0x00#8)).1 = .cw12 ∧
    (∃ t, exec (.parse 0x00#8) State.reset = .next t) ∧
    (∃ t, exec (.parse 0x00#8) (rxState .enforce frame1) = .next t) ∧
    State.reset.encPhase = (rxState .enforce frame1).encPhase ∧ State.reset.tx = (rxState .enforce frame1).tx ∧
    State.reset.cfg = bodyState.cfg ∧ State.reset.rxBuf = bodyState.rxBuf :=
  ⟨rfl, ⟨_, rfl⟩, ⟨_, rfl⟩, rfl, rfl, rfl, rfl⟩

theorem witness_EncoderAndSynchronizerAreSeparate_frames :
    (∃ x, Instr.encAbort 0x00#8 ∈ [Instr.encStart x, .encCmd x, .encData x, .encEnd x, .encAbort x]) ∧
    (∃ t, exec (.encAbort 0x00#8) (rxState .enforce frame1) = .next t ∧ t.rxBuf = frame1) ∧
    (∀ x, Instr.parse 0x00#8 ∉ [Instr.encStart x, .encCmd x, .encData x, .encEnd x, .encAbort x]) ∧
    ∃ t, exec (.parse 0x00#8) bodyState = .next t ∧ t.encPhase = .body ∧ t.encAcc = 0xC1#8 ∧ t.tx.length = 3 :=
  ⟨⟨0x00#8, by decide⟩, ⟨_, rfl, rfl⟩, by simp, _, rfl, rfl, rfl, rfl⟩

theorem witness_WireBytesReachTheBuffer :
    (Instr.wireUnassignedF 0xF#4, 0xFF#8) =
      (Instr.wireUnassignedF 0xF#4, 0xF0#8 ||| (0xF#4 : Nibble).setWidth 8) ∧
    State.reset.cfg.rxCap ≠ .bytes State.reset.rxBuf.length := by decide

theorem witness_UnassignedTagsHaveNoClass :
    hi4 0x3F#8 ∈ [0x3#4, 0x7#4, 0x9#4, 0xA#4, 0xB#4, 0xC#4, 0xD#4, 0xE#4, 0xF#4] ∧
    hi4 0x90#8 ∈ [0x3#4, 0x7#4, 0x9#4, 0xA#4, 0xB#4, 0xC#4, 0xD#4, 0xE#4, 0xF#4] := by decide

/-- The line as it is for a request: open; closed and granted; in Opening and granted. -/
theorem witness_RequestIsWrittenAndPending :
    (Instr.protoGetKeys, 0x20#8) ∈ requestRows ∧ (0x20#8 : Byte) ≠ 0x01#8 ∧
    (inHand (some (.request 14#4 0x20#8 [] goodLine))).host.msg = some (.request 14#4 0x20#8 [] goodLine) ∧
    (inHand (some (.request 14#4 0x20#8 [] goodLine))).host.pending = none ∧
    (inHand (some (.request 14#4 0x20#8 [] goodLine))).host.conn = .opened ∧ goodLine.opens = .granted ∧
    (inHand (some (.request 14#4 0x20#8 [] goodLine))).encPhase = .idle ∧ (14#4 : Nibble) ≠ 0#4 ∧
    (14#4 : Nibble) ≠ 15#4 := by decide

/-- A report of no number, of exactly the frame's length and of more. -/
theorem witness_WritesWhole : WritesWhole [] goodLine ∧ WritesWhole [] { goodLine with written := some 5 } ∧
    WritesWhole [] { goodLine with written := some 6 } ∧ ¬ WritesWhole [] { goodLine with written := some 4 } := by
  simp [WritesWhole, goodLine]

/-- A closed line that opens in the request: the frame is on the line and pending. -/
theorem test_lazy_open :
    (after (exec .protoGetKeys { State.reset with
      host := { HostState.initial with msg := some (.request 14#4 0x20#8 [] { goodLine with written := some 9 }) } })).map
      (fun t => (t.host.conn, t.host.pending.isSome, t.host.lineOut)) =
    some (.opened, true, [0x8E#8, 0x42#8, 0x00#8, 0x6D#8, 0x20#8]) := by decide

/-- Index 8 for the first clause, index 7 and an empty payload for the second. -/
theorem witness_SetBaudrateRequest :
    (inHand (some (.request 1#4 0x01#8 [0x08#8] goodLine))).host.msg = some (.request 1#4 0x01#8 [0x08#8] goodLine) ∧
    8 ≤ (0x08#8).toNat ∧
    (inHand (some (.request 1#4 0x01#8 [0x07#8] goodLine))).host.msg = some (.request 1#4 0x01#8 [0x07#8] goodLine) ∧
    (inHand (some (.request 1#4 0x01#8 [0x07#8] goodLine))).host.pending = none ∧
    (inHand (some (.request 1#4 0x01#8 [0x07#8] goodLine))).host.conn = .opened ∧
    (inHand (some (.request 1#4 0x01#8 [0x07#8] goodLine))).encPhase = .idle ∧ (1#4 : Nibble) ≠ 0#4 ∧
    (1#4 : Nibble) ≠ 15#4 := by decide

theorem witness_IndexInTable : IndexInTable 0x01#8 [0x07#8] ∧ ¬ IndexInTable 0x01#8 [0x08#8] ∧
    IndexInTable 0x01#8 [] ∧ IndexInTable 0x13#8 [0x08#8] := by
  simp [IndexInTable]

theorem witness_SilentAddressIsNotAwaited :
    (Instr.protoSetRelay, 0x13#8) ∈ requestRows ∧ (Instr.protoSetBaudrate, 0x01#8) ∈ requestRows ∧
    ((15#4 : Nibble) = 0#4 ∨ (15#4 : Nibble) = 15#4) ∧
    (inHand (some (.request 15#4 0x13#8 [0x05#8] goodLine))).host.msg = some (.request 15#4 0x13#8 [0x05#8] goodLine) ∧
    (inHand (some (.request 15#4 0x13#8 [0x05#8] goodLine))).host.pending = none ∧
    (inHand (some (.request 15#4 0x13#8 [0x05#8] goodLine))).host.conn = .opened ∧
    (inHand (some (.request 15#4 0x13#8 [0x05#8] goodLine))).encPhase = .idle := by decide

theorem witness_SilentAddressIsNotAwaited_rate :
    (after (exec .protoSetBaudrate (inHand (some (.request 0#4 0x01#8 [0x07#8] goodLine))))).map
      (fun t => (t.host.events, t.host.pending, statedRate t.host.lineRate)) =
    some ([.replySilent 0#4 0x01#8], none, 115200) := by decide

/-- A pending exchange for the first clause; a closed line for the second, a bad answer each. -/
theorem witness_RequestTurnedAwayBeforeTheBlock :
    (Instr.protoGetState, 0x2F#8) ∈ requestRows ∧
    ({ pendingState [] [] with host := { (pendingState [] []).host with msg := some (.request 1#4 0x2F#8 [] goodLine) } }
      : State).host.pending = some { address := 5#4, command := 0x21#8, payload := [], elapsedMs := 100 } ∧
    State.reset.host.pending = none ∧ State.reset.host.conn ≠ .opened ∧
    ((OpenResult.claimed, ErrorKind.lineBusy) ∈
      [(OpenResult.unavailable, ErrorKind.lineUnavailable), (OpenResult.claimed, ErrorKind.lineBusy)]) := by decide

/-- The boundary: one byte short of five. -/
theorem witness_ShortWriteAborts :
    (Instr.protoHello, 0x00#8) ∈ requestRows ∧
    (inHand (some (.request 1#4 0x00#8 [] ⟨.granted, some 4⟩))).host.msg =
      some (.request 1#4 0x00#8 [] ⟨.granted, some 4⟩) ∧
    (inHand (some (.request 1#4 0x00#8 [] ⟨.granted, some 4⟩))).host.pending = none ∧
    (inHand (some (.request 1#4 0x00#8 [] ⟨.granted, some 4⟩))).host.conn = .opened ∧
    (inHand (some (.request 1#4 0x00#8 [] ⟨.granted, some 4⟩))).encPhase = .idle ∧
    4 < 2 * ([] : List Byte).length + 5 := by decide

/-- The boundaries 15 and 16 of the address, and a code that is no request's. -/
theorem witness_HostCallsAreCheckedThenTaken_execute :
    State.reset.host.msg = none ∧
    ({ State.reset with inputs := [.execute 15 0x20#8 [] goodLine] } : State).inputs =
      .execute 15 0x20#8 [] goodLine :: [] ∧ 15 < 16 ∧ (∃ i, (i, 0x20#8) ∈ requestRows) ∧ 16 ≤ 16 ∧
    ∀ i, (i, 0x80#8) ∉ requestRows :=
  ⟨rfl, rfl, by decide, ⟨.protoGetKeys, by decide⟩, by decide, fun i => by simp [requestRows]⟩

/-- The boundaries 7 and 8 of the baud index. -/
theorem witness_HostCallsAreCheckedThenTaken_index :
    ({ State.reset with inputs := [.setBaudrate 7 goodLine] } : State).inputs = .setBaudrate 7 goodLine :: [] ∧
    7 < 8 ∧ 8 ≤ 8 ∧
    (after (step { State.reset with inputs := [.setBaudrate 7 goodLine] })).map (fun t => t.host.msg.isSome) =
      some true ∧
    (after (step { State.reset with inputs := [.setBaudrate 8 goodLine] })).map (fun t => t.host.events) =
      some [.error .invalidParameter] := by decide

theorem witness_HostCallsAreCheckedThenTaken_smartLed :
    ({ State.reset with inputs := [.setSmartLed 15 2 0x00#8 1 2 3 goodLine] } : State).inputs =
      .setSmartLed 15 2 0x00#8 1 2 3 goodLine :: [] ∧
    (after (step { State.reset with inputs := [.setSmartLed 15 2 0x00#8 1 2 3 goodLine] })).map
      (fun t => t.host.msg.map msgCommand) = some (some 0x16#8) ∧
    (after (step { State.reset with inputs := [.setSmartLed 16 2 0x00#8 1 2 3 goodLine] })).map
      (fun t => t.host.events) = some [.error .invalidParameter] := by decide

theorem witness_SmartLedPacking : (0x1000, 5) ∈ [(1, 1), (2, 3), (0x1000, 5)] := by decide

theorem witness_KeysReplyIsUnpacked :
    (inHand (some (.reply 5#4 0x20#8 [0x05#8]))).host.msg = some (.reply 5#4 0x20#8 [0x05#8]) := by decide

theorem witness_LevelsAndCountersArePadded :
    (inHand (some (.reply 5#4 0x22#8 [0x34#8, 0x12#8, 0xFF#8]))).host.msg =
      some (.reply 5#4 0x22#8 [0x34#8, 0x12#8, 0xFF#8]) := by decide

theorem witness_StateReplyIsSliced : (inHand (some (.reply 5#4 0x2F#8 []))).host.msg = some (.reply 5#4 0x2F#8 []) := by
  decide

theorem witness_TicketRepliesSurface :
    (Instr.protoUnknownTicket, Event.ticketUnknown) ∈
      [(Instr.protoSuccessTicket, Event.ticketSuccess), (Instr.protoUnknownTicket, Event.ticketUnknown)] ∧
    (inHand (some (.reply 5#4 0x81#8 []))).host.msg = some (.reply 5#4 0x81#8 []) := by decide

theorem witness_CodesWithoutAReplyDecode :
    Instr.protoSetRelay ∈ [Instr.protoHello, .protoSetBaudrate, .protoSetLeds, .protoSetSmartLeds, .protoSetText,
      .protoSetRelay, .protoSetSpecificSmartLeds1, .protoSetSpecificSmartLeds2, .protoSetSpecificSmartLeds3] ∧
    (inHand (some (.reply 5#4 0x13#8 []))).host.msg = some (.reply 5#4 0x13#8 []) ∧
    (encode .protoSetRelay).1 = .proto8 ∧ State.reset.host.msg = none := by decide

theorem witness_CodesWithoutAReplyDecode_requests :
    Instr.protoUnknownTicket ∈ [Instr.protoSuccessTicket, .protoUnknownTicket] ∧
    (inHand (some (.request 1#4 0x81#8 [] goodLine))).host.msg = some (.request 1#4 0x81#8 [] goodLine) ∧
    (inHand (some (.request 1#4 0x30#8 [] goodLine))).host.msg = some (.request 1#4 0x30#8 [] goodLine) ∧
    (0x30#8).toNat ∉ [0x00, 0x01, 0x10, 0x11, 0x12, 0x13, 0x14, 0x15, 0x16, 0x20, 0x21, 0x22, 0x23, 0x24, 0x2F, 0x80, 0x81] := by
  decide

/-- The codes next to the listed ones. -/
theorem witness_OtherCodesAreRawReplies :
    (inHand (some (.reply 5#4 0x82#8 []))).host.msg = some (.reply 5#4 0x82#8 []) ∧
    (0x82#8).toNat ∉ [0x00, 0x01, 0x10, 0x11, 0x12, 0x13, 0x14, 0x15, 0x16, 0x20, 0x21, 0x22, 0x23, 0x24, 0x2F, 0x80, 0x81] ∧
    (0x02#8).toNat ∉ [0x00, 0x01, 0x10, 0x11, 0x12, 0x13, 0x14, 0x15, 0x16, 0x20, 0x21, 0x22, 0x23, 0x24, 0x2F, 0x80, 0x81] := by
  decide

/-- One byte arrives and nothing is complete; 250 ms reach the timeout, 249 do not. -/
theorem witness_PollWithoutTerminalOutcome :
    (pendingState [] [.poll [0x81#8] 250]).host.msg = none ∧
    (pendingState [] [.poll [0x81#8] 250]).inputs = .poll [0x81#8] 250 :: [] ∧
    (pendingState [] [.poll [0x81#8] 250]).host.pending =
      some { address := 5#4, command := 0x21#8, payload := [], elapsedMs := 100 } ∧
    (∃ u answers, runOps (rxPushN [0x81#8]) { pendingState [] [.poll [0x81#8] 250] with inputs := [] } =
      .next (u, answers) ∧ parseOutcome u = .needMoreData) ∧ 350 ≤ 100 + 250 ∧ ¬ 350 ≤ 100 + 249 :=
  ⟨rfl, rfl, rfl, ⟨_, _, rfl, by decide⟩, by decide, by decide⟩

/-- The buffer is full and the pushed byte is dropped, with an exchange pending and without one. -/
theorem witness_PollWithoutTerminalOutcome_full :
    (∃ u answers, runOps (rxPushN [0x05#8]) (cappedPending [0#8, 1#8, 2#8, 3#8, 4#8] []) = .next (u, answers) ∧
      u.stRxOvf = true ∧ u.cfg.rxCap = .bytes u.rxBuf.length ∧ parseOutcome u = .needMoreData) ∧
    ∃ u answers, runOps (rxPushN [0x05#8]) (cappedState [0#8, 1#8, 2#8, 3#8, 4#8]) = .next (u, answers) ∧
      (cappedState [0#8, 1#8, 2#8, 3#8, 4#8]).host.pending = none ∧
      u.stRxOvf = true ∧ u.cfg.rxCap = .bytes u.rxBuf.length ∧ parseOutcome u = .needMoreData :=
  ⟨⟨_, _, rfl, by decide, by decide, by decide⟩, _, _, rfl, by decide, by decide, by decide, by decide⟩

/-- The last byte of a frame arrives, with one byte more, 1 ms before the timeout. -/
theorem witness_TerminalOutcomeEndsTheExchange :
    (pendingState [0x81#8, 0x40#8, 0x00#8, 0x6C#8] [.poll [0x21#8, 0x07#8] 249]).host.msg = none ∧
    (pendingState [0x81#8, 0x40#8, 0x00#8, 0x6C#8] [.poll [0x21#8, 0x07#8] 249]).inputs =
      .poll [0x21#8, 0x07#8] 249 :: [] ∧
    (pendingState [0x81#8, 0x40#8, 0x00#8, 0x6C#8] [.poll [0x21#8, 0x07#8] 249]).host.pending =
      some { address := 5#4, command := 0x21#8, payload := [], elapsedMs := 100 } ∧ 100 + 249 < 350 ∧
    ∃ u answers, runOps (rxPushN [0x21#8, 0x07#8]) (pendingState [0x81#8, 0x40#8, 0x00#8, 0x6C#8] []) =
      .next (u, answers) ∧ parseOutcome u = .success 1#4 0x00#8 [] ∧
      (parseBuffer u.cfg.cksumPolicy u.rxBuf).2 = [0x07#8] :=
  ⟨rfl, rfl, rfl, by decide, _, _, rfl, by decide, by decide⟩

theorem witness_TerminalOutcomeEndsTheExchange_errors :
    parseOutcome (pendingState [0x81#8, 0x21#8] [.poll [] 25]) = .sizeError [0x81#8, 0x21#8] ∧
    parseOutcome (pendingState [0x81#8, 0x40#8, 0x40#8, 0x6C#8, 0x21#8] [.poll [] 25]) =
      .tagError [0x81#8, 0x40#8, 0x40#8, 0x6C#8, 0x21#8] ∧
    parseOutcome (pendingState [0x81#8, 0x40#8, 0x00#8, 0x6C#8, 0x22#8] [.poll [] 25]) =
      .checksumError [0x81#8, 0x40#8, 0x00#8, 0x6C#8, 0x22#8] := by decide

/-- The boundary: 100 ms and 249 more; the start byte arrives behind the garbage. -/
theorem witness_SkippedKeepsTheExchange :
    (cappedPending [0x11#8] [.poll [0x81#8] 249]).host.msg = none ∧
    (cappedPending [0x11#8] [.poll [0x81#8] 249]).inputs = .poll [0x81#8] 249 :: [] ∧
    (cappedPending [0x11#8] [.poll [0x81#8] 249]).host.pending =
      some { address := 5#4, command := 0x21#8, payload := [], elapsedMs := 100 } ∧ 100 + 249 < 350 ∧
    RxBounded (cappedPending [0x11#8] [.poll [0x81#8] 249]) ∧
    ∃ u answers, runOps (rxPushN [0x81#8]) (cappedPending [0x11#8] []) = .next (u, answers) ∧
      parseOutcome u = .skipped [0x11#8] ∧ parseOutcome (parseOp u) = .needMoreData :=
  ⟨rfl, rfl, rfl, by decide, (by decide : 1 ≤ 5), _, _, rfl, by decide, by decide⟩

theorem witness_ExactlyOneTerminalOutcome :
    ∃ t, step (pendingState [] [.poll [] 250]) = .next t ∧ (pendingState [] [.poll [] 250]).host.pending =
      some { address := 5#4, command := 0x21#8, payload := [], elapsedMs := 100 } ∧ t.host.pending = none :=
  ⟨_, rfl, rfl, by decide⟩

theorem witness_CloseCancelsTheExchange :
    (pendingState [] [.close]).host.msg = none ∧ (pendingState [] [.close]).inputs = .close :: [] ∧
    (pendingState [] [.close]).host.conn = .opened ∧
    (pendingState [] [.close]).host.pending =
      some { address := 5#4, command := 0x21#8, payload := [], elapsedMs := 100 } := by decide

/-- The host waiting for the line's answer. -/
def openingState (inputs : List Input) : State :=
  { State.reset with inputs := inputs, host := { HostState.initial with conn := .opening } }

theorem witness_OpenFollowsTheLinesAnswer :
    State.reset.host.msg = none ∧ ({ State.reset with inputs := [.openCall] } : State).inputs = .openCall :: [] ∧
    State.reset.host.conn = .closed ∧ (openingState [.openAnswer .granted]).host.msg = none ∧
    (openingState [.openAnswer .granted]).inputs = .openAnswer .granted :: [] ∧
    (openingState [.openAnswer .granted]).host.conn = .opening ∧
    (openingState [.openAnswer .claimed]).inputs = .openAnswer .claimed :: [] ∧
    ((OpenResult.claimed, ErrorKind.lineBusy) ∈
      [(OpenResult.unavailable, ErrorKind.lineUnavailable), (OpenResult.claimed, ErrorKind.lineBusy)]) := by decide

theorem witness_StepRunsTheDecodedInstruction :
    ({ State.reset with inputs := [.word 0xFFF#12] } : State).inputs = .word 0xFFF#12 :: [] ∧
    decode .cw12 (0xFFF#12).toNat = .ok (.statClr 0xFF#8) ∧
    ({ State.reset with inputs := [.wire 0x8F#8] } : State).inputs = .wire 0x8F#8 :: [] ∧
    decode .wire8 (0x8F#8).toNat = .ok (.wireStart 0xF#4) ∧
    (inHand (some (.reply 5#4 0x81#8 []))).host.msg = some (.reply 5#4 0x81#8 []) ∧
    decode .proto8 (msgCommand (.reply 5#4 0x81#8 [])).toNat = .ok .protoUnknownTicket ∧
    State.reset.host.msg = none ∧ State.reset.inputs = [] := by decide

theorem witness_StepRunsTheDecodedInstruction_next :
    exec (.statClr 0xFF#8) { State.reset with inputs := [] } =
      .next { State.reset with resp := some ⟨.ok, 0x00#8, none⟩ } := rfl

theorem witness_ResetInputClearsTheBlock :
    ({ stickyState with inputs := [.reset] } : State).host.msg = none ∧
    ({ stickyState with inputs := [.reset] } : State).inputs = .reset :: [] := by decide

/-- A full buffer of five, and a byte that is dropped. -/
theorem witness_StepKeepsTheBufferBounded :
    RxBounded { cappedState [0#8, 1#8, 2#8, 3#8, 4#8] with inputs := [.wire 0x05#8] } ∧
    ∃ t, step { cappedState [0#8, 1#8, 2#8, 3#8, 4#8] with inputs := [.wire 0x05#8] } = .next t :=
  ⟨(by decide : 5 ≤ 5), _, rfl⟩

/-- An open frame with a payload byte to come. -/
theorem witness_StepKeepsTheAccumulator :
    FrameSummed { bodyState with inputs := [.word 0x305#12] } ∧
    ∃ t, step { bodyState with inputs := [.word 0x305#12] } = .next t ∧ t.encPhase = .body :=
  ⟨⟨[], 1#4, 0x00#8, [], by decide, by decide⟩, _, rfl, by decide⟩

/-- A pending exchange that a poll keeps pending. -/
theorem witness_StepKeepsPendingSound :
    PendingSound (pendingState [] [.poll [] 249]) ∧
    ∃ t, step (pendingState [] [.poll [] 249]) = .next t ∧ t.host.pending.isSome = true :=
  ⟨⟨rfl, by decide, (by decide : 100 < 350)⟩, _, rfl, by decide⟩

end Sys2Proof.Tests
end

section
/-! PROOF. O13: the layout of an encoded frame. The frame is read by index through its three parts: the start byte and
the command pair, the data pairs two bytes at a time, and the checksum pair after the body. -/

namespace Sys2Proof.Machine

/-- R69: the high byte of a pair holds the upper four bits of the value; the shift needs no mask of its own. -/
theorem tagPair_getElem?_high (v : Byte) (t : TagType) :
    (tagPair v t)[0]? = some (0x40#8 ||| tagCode t ||| v >>> 4) := by
  have hmask : (v >>> 4) &&& 0x0F#8 = v >>> 4 := by revert v; decide
  simp [tagPair, highHalf, hmask]

/-- R69: the low byte of a pair holds the lower four bits of the value. -/
theorem tagPair_getElem?_low (v : Byte) (t : TagType) :
    (tagPair v t)[1]? = some (tagCode t ||| (v &&& 0x0F#8)) := by
  simp [tagPair]

/-- The pair of payload byte `j` stands at index `2 * j` of the data pairs (R65). -/
theorem dataPairs_getElem? (p : List Byte) (j i : Nat) (d : Byte) (hd : p[j]? = some d) (hi : i < 2) :
    (dataPairs p)[2 * j + i]? = (tagPair d .data)[i]? := by
  induction p generalizing j with
  | nil => simp at hd
  | cons e p ih =>
    cases j with
    | zero =>
      obtain rfl : e = d := by simpa using hd
      rw [dataPairs_cons, List.getElem?_append_left (by simpa using hi)]
      simp
    | succ j =>
      rw [dataPairs_cons, List.getElem?_append_right (by simp; omega)]
      have hsub : 2 * (j + 1) + i - (tagPair e .data).length = 2 * j + i := by simp; omega
      rw [hsub]
      exact ih j (by simpa using hd)

/-- Indices inside the body read the body. -/
theorem encodeFrame_getElem?_body (a : Nibble) (c : Byte) (p : List Byte) (i : Nat) (hi : i < 2 * p.length + 3) :
    (encodeFrame a c p)[i]? = (frameBody a c p)[i]? :=
  List.getElem?_append_left (by simpa using hi)

/-- The two bytes after the body are the checksum pair (R65). -/
theorem encodeFrame_getElem?_checksum (a : Nibble) (c : Byte) (p : List Byte) (i : Nat) :
    (encodeFrame a c p)[2 * p.length + 3 + i]? = (tagPair (sum8 (frameBody a c p)) .ck)[i]? := by
  rw [encodeFrame, List.getElem?_append_right (by simp)]
  simp

/-- The command pair stands at indices 1 and 2 (R65). -/
theorem encodeFrame_getElem?_command (a : Nibble) (c : Byte) (p : List Byte) (i : Nat) (hi : i < 2) :
    (encodeFrame a c p)[1 + i]? = (tagPair c .cmd)[i]? := by
  rw [encodeFrame_getElem?_body a c p _ (by omega), frameBody_eq, Nat.add_comm, List.getElem?_cons_succ,
    List.getElem?_append_left (by simpa using hi)]

/-- The pair of payload byte `j` stands at indices `3 + 2 * j` and `4 + 2 * j` (R65). -/
theorem encodeFrame_getElem?_payload (a : Nibble) (c : Byte) (p : List Byte) (j i : Nat) (d : Byte)
    (hd : p[j]? = some d) (hi : i < 2) :
    (encodeFrame a c p)[3 + i + 2 * j]? = (tagPair d .data)[i]? := by
  obtain ⟨hj, -⟩ := List.getElem?_eq_some_iff.1 hd
  have hidx : 3 + i + 2 * j = 2 * j + i + 2 + 1 := by omega
  rw [encodeFrame_getElem?_body a c p _ (by omega), frameBody_eq, hidx, List.getElem?_cons_succ,
    List.getElem?_append_right (by simp)]
  exact dataPairs_getElem? p j i d hd hi

/-- Settles O13: each index falls into one part of the frame, and the two bytes of a pair hold its two halves. -/
theorem frameLayout : Obligations.FrameLayout := by
  intro a c p f k
  have hk : k = sum8 (frameBody a c p) := congrArg sum8 (encodeFrame_take a c p)
  have hlen : f.length = 2 * p.length + 5 := encodeFrame_length a c p
  refine ⟨hlen, by omega, by omega, rfl, ?command_high, ?command_low, fun j d hd => ⟨?data_high, ?data_low⟩,
    ?checksum_high, ?checksum_low⟩
  case command_high => exact (encodeFrame_getElem?_command a c p 0 (by decide)).trans (tagPair_getElem?_high c .cmd)
  case command_low => exact (encodeFrame_getElem?_command a c p 1 (by decide)).trans (tagPair_getElem?_low c .cmd)
  case data_high =>
    exact (encodeFrame_getElem?_payload a c p j 0 d hd (by decide)).trans (tagPair_getElem?_high d .data)
  case data_low =>
    exact (encodeFrame_getElem?_payload a c p j 1 d hd (by decide)).trans (tagPair_getElem?_low d .data)
  case checksum_high => exact hk ▸ (encodeFrame_getElem?_checksum a c p 0).trans (tagPair_getElem?_high _ .ck)
  case checksum_low => exact hk ▸ (encodeFrame_getElem?_checksum a c p 1).trans (tagPair_getElem?_low _ .ck)

end Sys2Proof.Machine
end

section
/-! PROOF. O5 to O9: the encoder's operations. First what the shared parts come to (the rejection, the address operand,
a tagged pair and its sum), then one equation per operation and phase, then the statements. -/

namespace Sys2Proof.Machine

/-! ### The shared parts -/

/-- R112: the rejection sets `st_enc_seq`, answers SEQ and changes nothing else. -/
theorem rejectSeq_eq (s : State) : rejectSeq s = { s with stEncSeq := true, resp := some ⟨.seq, 0x00#8, none⟩ } := rfl

/-- R68, R105: the start byte of ENC_START's argument masks the ignored bits off. -/
theorem startByte_addressOperand (arg : Byte) : startByte (addressOperand arg) = 0x80#8 ||| (arg &&& 0x0F#8) := by
  revert arg; decide

/-- R44, R111: the silent addresses are 0 and 15, read from the lower four bits of the argument. -/
theorem silentData_addressOperand (arg : Byte) :
    silentData (addressOperand arg) = if arg.toNat % 16 = 0 ∨ arg.toNat % 16 = 15 then 0x01#8 else 0x00#8 := by
  revert arg; decide

/-- R69: a tagged pair, high byte first, with the masks that matter. -/
theorem tagPair_eq_masked (v : Byte) (t : TagType) :
    tagPair v t = [0x40#8 ||| tagCode t ||| v >>> 4, tagCode t ||| (v &&& 0x0F#8)] := by
  have hhigh := Option.some.inj (tagPair_getElem?_high v t)
  have hlow := Option.some.inj (tagPair_getElem?_low v t)
  exact congrArg₂ (fun h l => [h, l]) hhigh hlow

/-- R106, R107: the accumulator takes the high byte of the pair, then the low one. -/
theorem emitSummed_eq (v : Byte) (t : TagType) (s : State) :
    emitSummed v t s = { s with
      tx := s.tx ++ [0x40#8 ||| tagCode t ||| v >>> 4, tagCode t ||| (v &&& 0x0F#8)]
      encAcc := s.encAcc + (0x40#8 ||| tagCode t ||| v >>> 4) + (tagCode t ||| (v &&& 0x0F#8)) } := by
  simp [emitSummed, emit, setAcc, tagPair_eq_masked, BitVec.add_assoc]

/-! ### The operations by phase -/

theorem exec_encStart (arg : Byte) (s : State) : exec (.encStart arg) s = .next (encStartOp arg s) := rfl
theorem exec_encCmd (c : Byte) (s : State) : exec (.encCmd c) s = .next (encCmdOp c s) := rfl
theorem exec_encData (d : Byte) (s : State) : exec (.encData d) s = .next (encDataOp d s) := rfl
theorem exec_encEnd (arg : Byte) (s : State) : exec (.encEnd arg) s = .next (encEndOp s) := rfl
theorem exec_encAbort (arg : Byte) (s : State) : exec (.encAbort arg) s = .next (encAbortOp s) := rfl

theorem encStartOp_of_idle (arg : Byte) (s : State) (h : s.encPhase = .idle) :
    encStartOp arg s = { s with
      tx := s.tx ++ [startByte (addressOperand arg)]
      encAcc := startByte (addressOperand arg)
      encPhase := .needCmd
      resp := some ⟨.ok, silentData (addressOperand arg), none⟩ } := if_pos h

theorem encStartOp_of_ne_idle (arg : Byte) (s : State) (h : s.encPhase ≠ .idle) : encStartOp arg s = rejectSeq s :=
  if_neg h

theorem encCmdOp_of_needCmd (c : Byte) (s : State) (h : s.encPhase = .needCmd) :
    encCmdOp c s = { emitSummed c .cmd s with encPhase := .body, resp := some ⟨.ok, 0x00#8, none⟩ } := if_pos h

theorem encCmdOp_of_ne_needCmd (c : Byte) (s : State) (h : s.encPhase ≠ .needCmd) : encCmdOp c s = rejectSeq s :=
  if_neg h

theorem encDataOp_of_body (d : Byte) (s : State) (h : s.encPhase = .body) :
    encDataOp d s = { emitSummed d .data s with resp := some ⟨.ok, 0x00#8, none⟩ } := if_pos h

theorem encDataOp_of_ne_body (d : Byte) (s : State) (h : s.encPhase ≠ .body) : encDataOp d s = rejectSeq s :=
  if_neg h

theorem encEndOp_of_body (s : State) (h : s.encPhase = .body) :
    encEndOp s = { s with
      tx := s.tx ++ tagPair s.encAcc .ck
      encPhase := .idle
      resp := some ⟨.ok, 0x00#8, none⟩ } := if_pos h

theorem encEndOp_of_ne_body (s : State) (h : s.encPhase ≠ .body) : encEndOp s = rejectSeq s := if_neg h

theorem encAbortOp_eq (s : State) :
    encAbortOp s = { s with encPhase := .idle, resp := some ⟨.ok, 0x00#8, none⟩ } := rfl

/-! ### The statements -/

/-- Settles O5: the start byte and the silent flag are those of the masked argument. -/
theorem encStartOpensAFrame : Obligations.EncStartOpensAFrame := by
  intro s arg
  refine ⟨decode_cw12_fields 0x1#4 arg, fun hidle => ?idle, fun hother => ?rejected⟩
  case idle => rw [exec_encStart, encStartOp_of_idle arg s hidle, startByte_addressOperand, silentData_addressOperand]
  case rejected => rw [exec_encStart, encStartOp_of_ne_idle arg s hother, rejectSeq_eq]

/-- Settles O6: the pair of tag `cmd`, summed byte by byte. -/
theorem encCmdEmitsTheCommandPair : Obligations.EncCmdEmitsTheCommandPair := by
  intro s c
  refine ⟨decode_cw12_fields 0x2#4 c, fun hneed => ?needCmd, fun hother => ?rejected⟩
  case needCmd => rw [exec_encCmd, encCmdOp_of_needCmd c s hneed, emitSummed_eq]; rfl
  case rejected => rw [exec_encCmd, encCmdOp_of_ne_needCmd c s hother, rejectSeq_eq]

/-- Settles O7: the pair of tag `data`, summed byte by byte; the phase is not written. -/
theorem encDataEmitsADataPair : Obligations.EncDataEmitsADataPair := by
  intro s d
  refine ⟨decode_cw12_fields 0x3#4 d, fun hbody => ?body, fun hother => ?rejected⟩
  case body => rw [exec_encData, encDataOp_of_body d s hbody, emitSummed_eq]; rfl
  case rejected => rw [exec_encData, encDataOp_of_ne_body d s hother, rejectSeq_eq]

/-- Settles O8: the pair of tag `ck` is that of the accumulator, which is not written. -/
theorem encEndClosesTheFrame : Obligations.EncEndClosesTheFrame := by
  intro s arg
  refine ⟨decode_cw12_fields 0x4#4 arg, fun hbody => ?body, fun hother => ?rejected⟩
  case body => rw [exec_encEnd, encEndOp_of_body s hbody, tagPair_eq_masked]; rfl
  case rejected => rw [exec_encEnd, encEndOp_of_ne_body s hother, rejectSeq_eq]

/-- Settles O9: the operation asks for no phase. -/
theorem encAbortGoesIdle : Obligations.EncAbortGoesIdle := by
  intro s arg
  exact ⟨decode_cw12_fields 0x5#4 arg, by rw [exec_encAbort, encAbortOp_eq]⟩

end Sys2Proof.Machine
end

section
/-! PROOF. O15 and O18: which checks of the decoder the checksum policy has a part in. The size check comes first; past
it one lemma says what the tag checks leave to the policy, and both statements are read off from the two. -/

namespace Sys2Proof.Machine

/-! ### The decoder's checks in order -/

/-- R131: the size check comes before every other. -/
theorem decodeFrame_of_badLength (policy : CksumPolicy) (f : List Byte) (hlen : f.length < 5 ∨ f.length % 2 = 0) :
    decodeFrame policy f = .sizeError f := if_pos hlen

/-- R133: an accepted pair gives the two value nibbles. -/
theorem eq_byteOf_of_untag_eq_some {h l : Byte} {t : TagType} {v : Byte} (hv : untag h l t = some v) :
    v = byteOf (lo4 h) (lo4 l) := by
  obtain ⟨rfl, rfl⟩ := (untag_eq_some_iff h l t v).1 hv
  simp

/-- R132 to R139: past the size check the tag checks give the same under both policies, and once they have passed only
the comparison of R138 asks for the policy. -/
theorem decodeFrame_of_goodLength (f : List Byte) (hlen : ¬ (f.length < 5 ∨ f.length % 2 = 0)) :
    (∀ policy, decodeFrame policy f = .tagError f) ∨
    ∃ a c p, ∀ policy, decodeFrame policy f =
      if policy = .enforce ∧
        sum8 (f.take (f.length - 2)) ≠ byteOf (lo4 (f.getD (f.length - 2) 0#8)) (lo4 (f.getD (f.length - 1) 0#8))
      then .checksumError f else .success a c p := by
  simp only [decodeFrame, if_neg hlen]
  cases untag (f.getD 1 0#8) (f.getD 2 0#8) .cmd with
  | none => exact .inl fun _ => rfl
  | some c =>
  cases hk : untag (f.getD (f.length - 2) 0#8) (f.getD (f.length - 1) 0#8) .ck with
  | none => exact .inl fun _ => rfl
  | some k =>
  cases untagPayload ((f.drop 3).take (f.length - 5)) with
  | none => exact .inl fun _ => rfl
  | some p => exact .inr ⟨_, c, p, fun _ => by rw [← eq_byteOf_of_untag_eq_some hk]⟩

/-! ### The statements -/

/-- Settles O18: the size check and the tag checks do not ask for the policy; where they pass, the comparison decides. -/
theorem checksumPolicyDecidesLast : Obligations.ChecksumPolicyDecidesLast := by
  intro f
  by_cases hlen : f.length < 5 ∨ f.length % 2 = 0
  · simp [decodeFrame_of_badLength _ f hlen]
  obtain htag | ⟨a, c, p, hpass⟩ := decodeFrame_of_goodLength f hlen
  · simp [htag]
  have hperm : decodeFrame .permissive f = .success a c p := by rw [hpass, if_neg (by simp)]
  refine ⟨fun g => ?no_mismatch, fun a' c' p' hsucc => ?same_success, fun hother => ?same_other⟩
  case no_mismatch => simp [hperm]
  case same_success => rw [← hsucc, hperm, hpass]; simp [ite_not]
  case same_other => exact absurd hperm (hother a c p)

/-- Settles O15: past the size check the outcome is a `TagError`, a `ChecksumError` or a `Success`. -/
theorem sizeErrorExactlyOnBadLength : Obligations.SizeErrorExactlyOnBadLength := by
  intro policy f
  refine ⟨decodeFrame_of_badLength policy f, fun hlen g => ?good_length⟩
  case good_length =>
    obtain htag | ⟨a, c, p, hpass⟩ := decodeFrame_of_goodLength f hlen
    · simp [htag]
    · rw [hpass]
      split <;> simp

end Sys2Proof.Machine
end

section
/-! PROOF. O19, O20 and O22: the synchronizer's operations. PARSE comes first: one equation turns what `parseBuffer`
gives on the buffer into the next state, and the four cases are those of `parseBuffer`, with the masks of R153 and R156
read as the scans' tests. -/

namespace Sys2Proof.Machine

/-! ### PARSE -/

/-- R153: the bytes the mask rejects are those the start scan passes over. -/
theorem forall_isStart_eq_false {l : List Byte} (h : ∀ x ∈ l, x &&& 0xF0#8 ≠ 0x80#8) : ∀ x ∈ l, isStart x = false :=
  fun x hx => Bool.eq_false_iff.2 fun hs => h x hx ((isStart_iff_mask x).1 hs)

/-- R156: the bytes the mask rejects are those the end scan passes over. -/
theorem forall_isEndTag_eq_false {l : List Byte} (h : ∀ x ∈ l, x &&& 0xF0#8 ≠ 0x20#8) : ∀ x ∈ l, isEndTag x = false :=
  fun x hx => Bool.eq_false_iff.2 fun he => h x hx ((isEndTag_iff_mask x).1 he)

/-- R160: PARSE answers OK with the outcome and leaves the buffer that `parseBuffer` leaves; nothing else is written. -/
theorem exec_parse_of_parseBuffer (arg : Byte) {s : State} {buf : List Byte} {o : ParseOutcome}
    (h : parseBuffer s.cfg.cksumPolicy s.rxBuf = (o, buf)) :
    exec (.parse arg) s = .next { s with rxBuf := buf, resp := some ⟨.ok, kindCode o, some o⟩ } := by
  have hexec : exec (.parse arg) s = .next (parseOp s) := rfl
  rw [hexec, parseOp_eq, parseOutcome, h]

/-- R154, R157: where `parseBuffer` asks for more bytes and leaves the buffer, PARSE writes the response only. -/
theorem exec_parse_of_needMoreData (arg : Byte) {s : State}
    (h : parseBuffer s.cfg.cksumPolicy s.rxBuf = (.needMoreData, s.rxBuf)) :
    exec (.parse arg) s = .next { s with resp := some ⟨.ok, 0x00#8, some .needMoreData⟩ } :=
  exec_parse_of_parseBuffer arg h

/-- Settles O20: each case is the one of `parseBuffer` that R154, R155, R157 or R158 names. -/
theorem parseCases : Obligations.ParseCases := by
  intro s arg
  refine ⟨decode_cw12_fields 0x9#4 arg, fun hnone => ?no_start, fun g b rest hbuf hne hg hb => ?garbage,
    fun b rest hbuf hb hrest => ?incomplete, fun b m e rest hbuf hb hm he => ?candidate⟩
  case no_start => exact exec_parse_of_needMoreData arg (parseBuffer_noStart _ _ (forall_isStart_eq_false hnone))
  case garbage =>
    refine exec_parse_of_parseBuffer (o := .skipped g) arg ?_
    rw [hbuf]
    exact parseBuffer_garbage _ g b rest hne (forall_isStart_eq_false hg) ((isStart_iff_mask b).2 hb)
  case incomplete =>
    refine exec_parse_of_needMoreData arg ?_
    rw [hbuf]
    exact parseBuffer_incomplete _ b rest ((isStart_iff_mask b).2 hb) (forall_isEndTag_eq_false hrest)
  case candidate =>
    refine exec_parse_of_parseBuffer arg ?_
    rw [hbuf]
    exact parseBuffer_candidate _ b m e rest ((isStart_iff_mask b).2 hb) (forall_isEndTag_eq_false hm)
      ((isEndTag_iff_mask e).2 he)

/-! ### RX_PUSH and RX_FLUSH -/

theorem exec_rxPush (b : Byte) (s : State) : exec (.rxPush b) s = .next (rxPushOp b s) := rfl
theorem exec_rxFlush (arg : Byte) (s : State) : exec (.rxFlush arg) s = .next (rxFlushOp s) := rfl

theorem rxFlushOp_eq (s : State) : rxFlushOp s = { s with rxBuf := [], resp := some ⟨.ok, 0x00#8, none⟩ } := rfl

/-- Settles O19: the two cases of `rxPushOp_cases` are told apart by the buffer's length at its bound. -/
theorem rxPushAppendsOrDrops : Obligations.RxPushAppendsOrDrops := by
  intro s b
  refine ⟨decode_cw12_fields 0x8#4 b, ?_⟩
  rw [exec_rxPush]
  obtain ⟨hfull, hdrop⟩ | ⟨hroom, happend⟩ := rxPushOp_cases b s
  · exact ⟨fun _ => by rw [hdrop], fun hroom => absurd hfull hroom⟩
  · exact ⟨fun hfull => absurd hfull hroom, fun _ => by rw [happend]⟩

/-- Settles O22: the operation asks for nothing and writes only the buffer and the response. -/
theorem rxFlushEmptiesTheBuffer : Obligations.RxFlushEmptiesTheBuffer := by
  intro s arg
  exact ⟨decode_cw12_fields 0xA#4 arg, by rw [exec_rxFlush, rxFlushOp_eq]⟩

end Sys2Proof.Machine
end

section
/-! PROOF. O26 to O29: the control operations. First STATUS bit by bit (R27), then one equation per operation that
gives its full next state, then the statements. -/

namespace Sys2Proof.Machine

/-! ### The STATUS register (R27) -/

/-- A single bit stands at position 0. -/
@[simp] theorem getElem_bitByte (b : Bool) {i : Nat} (hi : i < 8) : (bitByte b)[i] = (decide (i = 0) && b) := by
  cases b <;> simp [bitByte, BitVec.getElem_one]

/-- Bit `i` of STATUS, part by part: each flag can show at its own position only, the phase from bit 3 on. -/
theorem getElem_statusByte (s : State) {i : Nat} (hi : i < 8) :
    (statusByte s)[i] =
      (decide (i = 0) && s.stRxOvf || decide (i = 1) && s.stEncSeq || decide (i = 2) && s.stOpIll ||
        decide (3 ≤ i) && (phaseCode s.encPhase).getLsbD (i - 3) ||
        decide (i = 5) && cksumEn s || decide (i = 6) && rxPend s) := by
  interval_cases i <;> simp [statusByte]

theorem statusByte_rxOvf (s : State) : (statusByte s).getLsbD 0 = s.stRxOvf := by
  simp [getElem_statusByte]

theorem statusByte_encSeq (s : State) : (statusByte s).getLsbD 1 = s.stEncSeq := by
  simp [getElem_statusByte]

theorem statusByte_opIll (s : State) : (statusByte s).getLsbD 2 = s.stOpIll := by
  simp [getElem_statusByte]

theorem statusByte_phase (s : State) : (statusByte s).extractLsb' 3 2 = phaseCode s.encPhase := by
  apply BitVec.eq_of_getElem_eq
  intro i hi
  interval_cases i <;> simp [getElem_statusByte]

theorem statusByte_cksumEn (s : State) : (statusByte s).getLsbD 5 = decide (s.cfg.cksumPolicy = .enforce) := by
  simp [getElem_statusByte, cksumEn, beq_eq_decide]

theorem statusByte_rxPend (s : State) : (statusByte s).getLsbD 6 = decide (s.rxBuf ≠ []) := by
  simp [getElem_statusByte, rxPend, List.length_pos_iff]

theorem statusByte_bit7 (s : State) : (statusByte s).getLsbD 7 = false := by
  simp [getElem_statusByte]

/-! ### The operations -/

theorem exec_nop (arg : Byte) (s : State) : exec (.nop arg) s = .next { s with resp := some ⟨.ok, 0x00#8, none⟩ } := rfl

theorem exec_statRead (arg : Byte) (s : State) :
    exec (.statRead arg) s = .next { s with resp := some ⟨.ok, statusByte s, none⟩ } := rfl

theorem exec_statClr (arg : Byte) (s : State) :
    exec (.statClr arg) s = .next (respond .ok 0x00#8 (clearSticky (stickyOperand arg) s)) := rfl

theorem illegalOp_eq (s : State) :
    illegalOp s = { s with stOpIll := true, resp := some ⟨.illegal, 0x00#8, none⟩ } := rfl

/-- R183: the mask keeps the argument's lower three bits. -/
@[simp] theorem getElem_stickyOperand (arg : Byte) {i : Nat} (hi : i < 3) : (stickyOperand arg)[i] = arg[i] := by
  simp [stickyOperand, BitVec.getLsbD_eq_getElem (Nat.lt_trans hi (by decide : 3 < 8))]

/-- R183: each sticky bit is cleared by its own bit of the argument. -/
theorem clearSticky_stickyOperand (arg : Byte) (s : State) :
    clearSticky (stickyOperand arg) s = { s with
      stRxOvf := if arg.getLsbD 0 then false else s.stRxOvf
      stEncSeq := if arg.getLsbD 1 then false else s.stEncSeq
      stOpIll := if arg.getLsbD 2 then false else s.stOpIll } := by
  simp [clearSticky, setSticky, Bool.and_comm]

/-! ### The statements -/

/-- Settles O26: the word is the argument alone, since the operation code is 0. -/
theorem nopChangesNothing : Obligations.NopChangesNothing := by
  intro s arg
  have hdecode := decode_cw12_fields 0x0#4 arg
  rw [BitVec.toNat_zero, Nat.zero_mul, Nat.zero_add] at hdecode
  exact ⟨hdecode, exec_nop arg s⟩

/-- Settles O27: the byte is `statusByte`, whose bits are those of R27. -/
theorem statReadGivesStatus : Obligations.StatReadGivesStatus := by
  intro s arg
  exact ⟨statusByte s, decode_cw12_fields 0xE#4 arg, exec_statRead arg s, statusByte_rxOvf s, statusByte_encSeq s,
    statusByte_opIll s, statusByte_phase s, statusByte_cksumEn s, statusByte_rxPend s, statusByte_bit7 s⟩

/-- Settles O28: the bits above the mask are never read. -/
theorem statClrClearsSelectedBits : Obligations.StatClrClearsSelectedBits := by
  intro s arg
  refine ⟨decode_cw12_fields 0xF#4 arg, ?_⟩
  rw [exec_statClr, clearSticky_stickyOperand, respond]

/-- Settles O29: the five codes share one meaning, `illegalOp`. -/
theorem reservedCodesAreIllegal : Obligations.ReservedCodesAreIllegal := by
  intro s arg op i hrow
  rw [← illegalOp_eq]
  simp only [List.mem_cons, List.not_mem_nil, or_false, Prod.mk.injEq] at hrow
  obtain ⟨rfl, rfl⟩ | ⟨rfl, rfl⟩ | ⟨rfl, rfl⟩ | ⟨rfl, rfl⟩ | ⟨rfl, rfl⟩ := hrow
  · exact ⟨decode_cw12_fields 0x6#4 arg, rfl⟩
  · exact ⟨decode_cw12_fields 0x7#4 arg, rfl⟩
  · exact ⟨decode_cw12_fields 0xB#4 arg, rfl⟩
  · exact ⟨decode_cw12_fields 0xC#4 arg, rfl⟩
  · exact ⟨decode_cw12_fields 0xD#4 arg, rfl⟩

end Sys2Proof.Machine
end

section
/-! PROOF. O42 to O45: the payloads of the host protocol. First the padded reply read byte by byte (R214) and the
decodes of R207 to R212 in terms of it, then a code dispatched on a reply in hand, then the packing of a smart LED's
channels (R206). -/

namespace Sys2Proof.Machine

/-! ### The padded reply (R214) -/

/-- R214: inside the padded length a read gives the payload's byte, or 0x00 past its end. -/
theorem padTo_eq_map (n : Nat) (r : List Byte) : padTo n r = (List.range n).map (fun i => r.getD i 0x00#8) := by
  apply List.ext_getElem (by simp [padTo])
  intro i hpad hmap
  have hi : i < n := by simpa using hmap
  by_cases hr : i < r.length
  · simp [padTo, List.getElem_append_left hr, List.getElem?_eq_getElem hr]
  · simp [padTo, List.getElem_append_right (Nat.le_of_not_lt hr), List.getElem?_eq_none (Nat.le_of_not_lt hr)]

theorem getD_padTo {n i : Nat} (hi : i < n) (r : List Byte) : (padTo n r).getD i 0x00#8 = r.getD i 0x00#8 := by
  simp [padTo_eq_map, List.getElem?_range hi]

/-! ### The decodes (R207 to R212) -/

@[simp] theorem length_keys (r : List Byte) : (keys r).length = 18 := by simp [keys]

/-- R207: 18 bits lie in the three padded bytes. -/
theorem getElem?_keys {i : Nat} (hi : i < 18) (r : List Byte) :
    (keys r)[i]? = some ((r.getD (i / 8) 0x00#8).getLsbD (i % 8)) := by
  rw [keys, List.getElem?_map, List.getElem?_range hi, Option.map_some, getD_padTo (by omega)]

/-- R209: counter `k` is made of bytes `2 * k` and `2 * k + 1`, both among the eight padded ones. -/
theorem encoders_eq_map (r : List Byte) : encoders r = (List.range 4).map (fun k =>
    (r.getD (2 * k + 1) 0x00#8).setWidth 16 <<< 8 ||| (r.getD (2 * k) 0x00#8).setWidth 16) := by
  apply List.map_congr_left
  intro k hk
  have hk4 : k < 4 := List.mem_range.1 hk
  rw [getD_padTo (by omega), getD_padTo (by omega)]

/-- R212: a slice inside the 24 bytes reads the padded payload from its lower end on. -/
theorem slice_eq_map {lo hi : Nat} (hhi : hi ≤ 24) (r : List Byte) :
    slice lo hi r = (List.range (hi - lo)).map (fun i => r.getD (lo + i) 0x00#8) := by
  apply List.ext_getElem
  · simp [slice, padTo_eq_map, Nat.sub_le_sub_right hhi lo]
  · simp [slice, padTo_eq_map]

/-! ### A code dispatched on a reply in hand -/

theorem exec_protoGetKeys (s : State) :
    exec .protoGetKeys s = .next (dispatchCode 0x20#8 (fun _ p => emitEvents [.keys (keys p)]) s) := rfl
theorem exec_protoGetSliders (s : State) :
    exec .protoGetSliders s = .next (dispatchCode 0x21#8 (fun _ p => emitEvents [.sliders (sliders p)]) s) := rfl
theorem exec_protoGetEncoders (s : State) :
    exec .protoGetEncoders s = .next (dispatchCode 0x22#8 (fun _ p => emitEvents [.encoders (encoders p)]) s) := rfl
theorem exec_protoGetSensors (s : State) :
    exec .protoGetSensors s = .next (dispatchCode 0x23#8 (fun _ p => emitEvents [.sensors (sensors p)]) s) := rfl
theorem exec_protoGetStikyKeys (s : State) :
    exec .protoGetStikyKeys s = .next (dispatchCode 0x24#8 (fun _ p => emitEvents [.stikyKeys (stikyKeys p)]) s) := rfl
theorem exec_protoGetState (s : State) :
    exec .protoGetState s = .next (dispatchCode 0x2F#8 (fun _ p => emitEvents [stateEvent p]) s) := rfl

/-- R215: the reply leaves the hand and its decode is the one event emitted; nothing else changes. -/
theorem dispatchCode_of_reply {s : State} {a : Nibble} {x : Byte} {r : List Byte}
    (hm : s.host.msg = some (.reply a x r)) (c : Byte) (e : List Byte → Event) :
    dispatchCode c (fun _ p => emitEvents [e p]) s = { s with
      host := { s.host with msg := none, events := s.host.events ++ [e r] } } := by
  rw [dispatchCode, hm]
  rfl

/-! ### The channels of a smart LED (R206) -/

/-- R206: a clamped channel has 12 bits, so its upper part fits a byte. -/
theorem toNat_channelHigh (v : Nat) : (channelHigh v).toNat = min v 0xFFF / 256 := by
  rw [channelHigh, BitVec.toNat_ofNat, Nat.mod_eq_of_lt (by omega)]

theorem toNat_channelLow (v : Nat) : (channelLow v).toNat = min v 0xFFF % 256 := by
  rw [channelLow, BitVec.toNat_ofNat, Nat.mod_mod]

/-- R206: the group first, then three channels of two bytes each. -/
theorem length_smartLedPayload (order : ChannelOrder) (group : Byte) (r g b : Nat) :
    (smartLedPayload order group r g b).length = 7 := by
  cases order <;> rfl

/-- R206: the channels' bytes stand at indices 1, 3 and 5 on. -/
theorem getElem?_smartLedPayload (order : ChannelOrder) (group : Byte) {r g b v j : Nat}
    (hvj : (v, j) ∈ [(r, 1), (g, 3), (b, 5)]) :
    (smartLedPayload order group r g b)[j]? = (channelBytes order v)[0]? ∧
    (smartLedPayload order group r g b)[j + 1]? = (channelBytes order v)[1]? := by
  simp only [List.mem_cons, List.not_mem_nil, or_false, Prod.mk.injEq] at hvj
  obtain ⟨rfl, rfl⟩ | ⟨rfl, rfl⟩ | ⟨rfl, rfl⟩ := hvj <;> cases order <;> exact ⟨rfl, rfl⟩

/-! ### The statements -/

/-- Settles O43: both codes emit `keys` of the payload. -/
theorem keysReplyIsUnpacked : Obligations.KeysReplyIsUnpacked := by
  intro s a x r hm
  refine ⟨keys r, length_keys r, fun i hi => getElem?_keys hi r, ?keys, ?stikyKeys⟩
  case keys => rw [exec_protoGetKeys, dispatchCode_of_reply hm _ fun p => .keys (keys p)]
  case stikyKeys => rw [exec_protoGetStikyKeys, dispatchCode_of_reply hm _ fun p => .stikyKeys (stikyKeys p), stikyKeys]

/-- Settles O44: each decode reads the padded payload at indices inside its length. -/
theorem levelsAndCountersArePadded : Obligations.LevelsAndCountersArePadded := by
  intro s a x r hm
  refine ⟨?sliders, ?encoders, ?sensors⟩
  case sliders =>
    rw [exec_protoGetSliders, dispatchCode_of_reply hm _ fun p => .sliders (sliders p), sliders, padTo_eq_map]
    rfl
  case encoders =>
    rw [exec_protoGetEncoders, dispatchCode_of_reply hm _ fun p => .encoders (encoders p), encoders_eq_map]
    rfl
  case sensors =>
    rw [exec_protoGetSensors, dispatchCode_of_reply hm _ fun p => .sensors (sensors p), sensors, padTo_eq_map]
    rfl

/-- Settles O45: each of the five slices ends inside the 24 bytes. -/
theorem stateReplyIsSliced : Obligations.StateReplyIsSliced := by
  intro s a x r hm
  rw [exec_protoGetState, dispatchCode_of_reply hm _ stateEvent, stateEvent, stikyKeys]
  rw [slice_eq_map (hi := 3) (by decide), slice_eq_map (hi := 11) (by decide), slice_eq_map (hi := 19) (by decide),
    slice_eq_map (hi := 21) (by decide), slice_eq_map (hi := 24) (by decide)]
  rfl

/-- Settles O42: the two bytes are quotient and remainder of the clamped channel by 256. -/
theorem smartLedPacking : Obligations.SmartLedPacking := by
  intro order group r g b
  refine ⟨length_smartLedPayload order group r g b, rfl, fun v j hvj => ?channel⟩
  case channel =>
    obtain ⟨hfirst, hsecond⟩ := getElem?_smartLedPayload order group hvj
    have hhigh := toNat_channelHigh v
    have hlow := toNat_channelLow v
    refine ⟨channelHigh v, channelLow v, by omega, by omega, ?highFirst, ?lowFirst⟩
    case highFirst => rintro rfl; exact ⟨hfirst, hsecond⟩
    case lowFirst => rintro rfl; exact ⟨hfirst, hsecond⟩

end Sys2Proof.Machine
end

section
/-! PROOF. O1, O3 and O34: words and instructions. A word is read back field by field, so every instruction is the one
its own word decodes to; a number that decodes is a word of its format, so an instruction of the wire format is a
decoded byte. -/

namespace Sys2Proof.Machine

/-! ### Decode of encode -/

/-- R70, R71: the word of an operation code and an argument is read back. -/
theorem decode_cmdWord (op : Nibble) (arg : Byte) : decode .cw12 (cmdWord op arg).toNat = .ok (instrOfOp op arg) := by
  rw [decode_cw12, decodeCmd_cmdWord]

/-- R60, R61: the byte of a tag and a value is read back. -/
theorem decode_byteOf (tag value : Nibble) : decode .wire8 (byteOf tag value).toNat = .ok (instrOfTag tag value) := by
  rw [decode_wire8, decodeWire_byteOf]

/-- Settles O1: a command word and a wire byte hold the operand beside their code; a command code has no operand. -/
theorem encodedWordsDecodeBack : Obligations.EncodedWordsDecodeBack := by
  intro i
  cases i with
  | nop arg | encStart arg | encCmd arg | encData arg | encEnd arg | encAbort arg | reserved6 arg | reserved7 arg
  | rxPush arg | parse arg | rxFlush arg | reservedB arg | reservedC arg | reservedD arg | statRead arg
  | statClr arg => exact decode_cmdWord _ arg
  | wireStart v | wireCmdHi v | wireCmdLo v | wireDataHi v | wireDataLo v | wireCkHi v | wireCkLoEnd v
  | wireUnassigned3 v | wireUnassigned7 v | wireUnassigned9 v | wireUnassignedA v | wireUnassignedB v
  | wireUnassignedC v | wireUnassignedD v | wireUnassignedE v | wireUnassignedF v => exact decode_byteOf _ v
  | protoHello | protoSetBaudrate | protoSetLeds | protoSetSmartLeds | protoSetText | protoSetRelay
  | protoSetSpecificSmartLeds1 | protoSetSpecificSmartLeds2 | protoSetSpecificSmartLeds3 | protoGetKeys
  | protoGetSliders | protoGetEncoders | protoGetSensors | protoGetStikyKeys | protoGetState | protoSuccessTicket
  | protoUnknownTicket => rfl

/-- Settles O3: the twelve words are closed numbers. -/
theorem wordsSpelledOut : Obligations.WordsSpelledOut :=
  ⟨rfl, rfl, rfl, rfl, rfl, rfl, rfl, rfl, rfl, rfl, rfl, rfl⟩

/-- R31, R70: the operation of a command word is encoded as that word. -/
theorem encode_decodeCmd (cw : CmdWord) : encode (decodeCmd cw) = (.cw12, cw.toNat) := by
  have hop : ∀ op arg, encode (instrOfOp op arg) = (.cw12, (cmdWord op arg).toNat) := by
    intro op arg
    obtain h | h | h | h | h | h | h | h | h | h | h | h | h | h | h | h := nibble_cases op <;> subst h <;> rfl
  rw [decodeCmd, hop, cmdWord_fields]

/-- An instruction of the wire format is a decoded wire byte. -/
theorem exists_decodeWire {i : Instr} (hi : (encode i).1 = .wire8) : ∃ b, i = decodeWire b := by
  have hdec := encodedWordsDecodeBack i
  rw [hi, decode] at hdec
  split at hdec
  · exact ⟨_, (Except.ok.inj hdec).symm⟩
  · cases hdec

/-! ### Received bytes -/

/-- Settles O34: whatever its class, a received byte is one RX_PUSH of it. -/
theorem wireBytesReachTheBuffer : Obligations.WireBytesReachTheBuffer := by
  intro v s i b hrow
  have hdec : decodeWire b = i := by
    simp only [List.mem_cons, List.not_mem_nil, or_false, Prod.mk.injEq] at hrow
    obtain ⟨rfl, rfl⟩ | ⟨rfl, rfl⟩ | ⟨rfl, rfl⟩ | ⟨rfl, rfl⟩ | ⟨rfl, rfl⟩ | ⟨rfl, rfl⟩ | ⟨rfl, rfl⟩ | ⟨rfl, rfl⟩ |
      ⟨rfl, rfl⟩ | ⟨rfl, rfl⟩ | ⟨rfl, rfl⟩ | ⟨rfl, rfl⟩ | ⟨rfl, rfl⟩ | ⟨rfl, rfl⟩ | ⟨rfl, rfl⟩ | ⟨rfl, rfl⟩ := hrow <;>
      revert v <;> decide
  rw [← hdec, exec_wire]
  refine ⟨decode_wire8 b, ?_⟩
  obtain ⟨hfull, hdrop⟩ | ⟨hroom, happend⟩ := rxPushOp_cases b s
  · exact ⟨fun hroom => absurd hfull hroom, fun _ => by rw [hdrop]⟩
  · exact ⟨fun _ => by rw [happend], fun hfull => absurd hfull hroom⟩

end Sys2Proof.Machine
end

section
/-! PROOF. O2, O4, O10, O31 and O33: the operations of the command port. One relation says what each operation leaves
(R71), and that every operation of the format has such a result; then the phases, the sticky bits and the two frames are
read off from it. -/

namespace Sys2Proof.Machine

/-! ### What an encoder operation leaves alone, part by part -/

theorem EncoderOnly.cfg_eq {s t : State} : EncoderOnly s t → t.cfg = s.cfg := fun ⟨h, _⟩ => h
theorem EncoderOnly.rxBuf_eq {s t : State} : EncoderOnly s t → t.rxBuf = s.rxBuf := fun ⟨_, h, _⟩ => h
theorem EncoderOnly.stRxOvf_eq {s t : State} : EncoderOnly s t → t.stRxOvf = s.stRxOvf := fun ⟨_, _, h, _⟩ => h
theorem EncoderOnly.stOpIll_eq {s t : State} : EncoderOnly s t → t.stOpIll = s.stOpIll := fun ⟨_, _, _, h, _⟩ => h
theorem EncoderOnly.host_eq {s t : State} : EncoderOnly s t → t.host = s.host := fun ⟨_, _, _, _, _, h, _⟩ => h

theorem encAbortOp_only (s : State) : EncoderOnly s (encAbortOp s) :=
  ⟨rfl, rfl, rfl, rfl, rfl, rfl, id, [], (List.append_nil s.tx).symm⟩

/-! ### What an operation leaves -/

/-- The operations with the state each leaves. NOP and STAT_READ only answer; the five reserved codes have one meaning
(R184). -/
inductive CmdStep (s : State) : Instr → State → Prop
  | encStart (x : Byte) : CmdStep s (.encStart x) (encStartOp x s)
  | encCmd (x : Byte) : CmdStep s (.encCmd x) (encCmdOp x s)
  | encData (x : Byte) : CmdStep s (.encData x) (encDataOp x s)
  | encEnd (x : Byte) : CmdStep s (.encEnd x) (encEndOp s)
  | encAbort (x : Byte) : CmdStep s (.encAbort x) (encAbortOp s)
  | rxPush (b : Byte) : CmdStep s (.rxPush b) (rxPushOp b s)
  | parse (x : Byte) : CmdStep s (.parse x) (parseOp s)
  | rxFlush (x : Byte) : CmdStep s (.rxFlush x) (rxFlushOp s)
  | statClr (x : Byte) : CmdStep s (.statClr x) (respond .ok 0x00#8 (clearSticky (stickyOperand x) s))
  | illegal (x : Byte) (i : Instr) (hi : i ∈ [.reserved6 x, .reserved7 x, .reservedB x, .reservedC x, .reservedD x]) :
      CmdStep s i (illegalOp s)
  | answer (x : Byte) (i : Instr) (hi : i ∈ [.nop x, .statRead x]) (data : Byte) : CmdStep s i (respond .ok data s)

/-- R31, R71: every operation of the command port has its result. -/
theorem exec_cmd (i : Instr) (s : State) (hi : (encode i).1 = .cw12) : ∃ t, exec i s = .next t ∧ CmdStep s i t := by
  cases i with
  | nop x => exact ⟨_, rfl, .answer x _ (by simp) _⟩
  | encStart x => exact ⟨_, rfl, .encStart x⟩
  | encCmd x => exact ⟨_, rfl, .encCmd x⟩
  | encData x => exact ⟨_, rfl, .encData x⟩
  | encEnd x => exact ⟨_, rfl, .encEnd x⟩
  | encAbort x => exact ⟨_, rfl, .encAbort x⟩
  | reserved6 x | reserved7 x | reservedB x | reservedC x | reservedD x => exact ⟨_, rfl, .illegal x _ (by simp)⟩
  | rxPush x => exact ⟨_, rfl, .rxPush x⟩
  | parse x => exact ⟨_, rfl, .parse x⟩
  | rxFlush x => exact ⟨_, rfl, .rxFlush x⟩
  | statRead x => exact ⟨_, rfl, .answer x _ (by simp) _⟩
  | statClr x => exact ⟨_, rfl, .statClr x⟩
  | _ => cases hi

theorem cmdStep_of_exec {i : Instr} {s t : State} (hi : (encode i).1 = .cw12) (h : exec i s = .next t) :
    CmdStep s i t := by
  obtain ⟨u, hu, hstep⟩ := exec_cmd i s hi
  obtain rfl : u = t := Host.Outcome.next.inj (hu.symm.trans h)
  exact hstep

/-- R74: every operation answers. -/
theorem CmdStep.resp_isSome {i : Instr} {s t : State} (h : CmdStep s i t) : t.resp.isSome = true := by
  cases h with
  | encStart x => unfold encStartOp; split <;> rfl
  | encCmd x => unfold encCmdOp; split <;> rfl
  | encData x => unfold encDataOp; split <;> rfl
  | encEnd x => unfold encEndOp; split <;> rfl
  | rxPush b => unfold rxPushOp; split <;> rfl
  | encAbort | parse | rxFlush | statClr | illegal | answer => rfl

/-- Settles O2: the word's fields are an operation and its argument, and every operation of the port answers. -/
theorem everyCommandWordHasAResult : Obligations.EveryCommandWordHasAResult := by
  intro cw
  refine ⟨decodeCmd cw, decode_cw12 cw, encode_decodeCmd cw, fun s => ?_⟩
  obtain ⟨t, hexec, hstep⟩ := exec_cmd (decodeCmd cw) s (decodeCmd_format cw)
  exact ⟨t, hexec, hstep.resp_isSome⟩

/-! ### Ignored bits (R73) -/

theorem addressOperand_eq_of_mask {x y : Byte} (h : x &&& 0x0F#8 = y &&& 0x0F#8) :
    addressOperand x = addressOperand y := by
  have hmask : ∀ z : Byte, addressOperand z = lo4 (z &&& 0x0F#8) := by decide
  rw [hmask, hmask, h]

theorem stickyOperand_eq_of_mask {x y : Byte} (h : x &&& 0x07#8 = y &&& 0x07#8) :
    stickyOperand x = stickyOperand y := by
  have hmask : ∀ z : Byte, stickyOperand z = stickyOperand (z &&& 0x07#8) := by decide
  rw [hmask, hmask y, h]

/-- R73: an operation runs the same on two arguments that agree in the bits it uses. -/
theorem exec_instrOfOp_of_usedBits (op : Nibble) (x y : Byte) (s : State)
    (h : x &&& usedBits op = y &&& usedBits op) : exec (instrOfOp op x) s = exec (instrOfOp op y) s := by
  have whole : x &&& BitVec.allOnes 8 = y &&& BitVec.allOnes 8 → x = y := fun h => by
    rwa [BitVec.and_allOnes, BitVec.and_allOnes] at h
  obtain rfl | rfl | rfl | rfl | rfl | rfl | rfl | rfl | rfl | rfl | rfl | rfl | rfl | rfl | rfl | rfl :=
    nibble_cases op
  · rfl
  · show exec (.encStart x) s = exec (.encStart y) s
    rw [exec_encStart, encStartOp, addressOperand_eq_of_mask h, exec_encStart, encStartOp]
  · rw [whole h]
  · rw [whole h]
  · rfl
  · rfl
  · rfl
  · rfl
  · rw [whole h]
  · rfl
  · rfl
  · rfl
  · rfl
  · rfl
  · rfl
  · show exec (.statClr x) s = exec (.statClr y) s
    rw [exec_statClr, stickyOperand_eq_of_mask h, exec_statClr]

/-- Settles O4: the code chooses the operation, and an operation reads the bits it uses only. -/
theorem ignoredBitsDoNotMatter : Obligations.IgnoredBitsDoNotMatter := by
  intro x y i j s hop harg hx hy
  obtain rfl : decodeCmd x = i := Except.ok.inj ((decode_cw12 x).symm.trans hx)
  obtain rfl : decodeCmd y = j := Except.ok.inj ((decode_cw12 y).symm.trans hy)
  rw [← hop] at harg
  rw [decodeCmd, decodeCmd, ← hop]
  exact exec_instrOfOp_of_usedBits _ _ _ s harg

/-! ### The two frames (20_memory.md section 5) -/

/-- The encoder after an operation: a function of the encoder before it and of nothing else. -/
def encoderAfter (i : Instr) (p : EncPhase) (acc : Byte) (tx : List Byte) : EncPhase × Byte × List Byte :=
  (phaseAfter i p,
    match i, p with
    | .encStart x, .idle => (startByte (addressOperand x), tx ++ [startByte (addressOperand x)])
    | .encCmd c, .needCmd => (acc + sum8 (tagPair c .cmd), tx ++ tagPair c .cmd)
    | .encData d, .body => (acc + sum8 (tagPair d .data), tx ++ tagPair d .data)
    | .encEnd _, .body => (acc, tx ++ tagPair acc .ck)
    | _, _ => (acc, tx))

/-- The receive buffer after an operation: a function of the configuration and the buffer before it. -/
def rxAfter (i : Instr) (cfg : Config) (buf : List Byte) : List Byte :=
  match i with
  | .rxPush b => if cfg.rxCap = .bytes buf.length then buf else buf ++ [b]
  | .parse _ => (parseBuffer cfg.cksumPolicy buf).2
  | .rxFlush _ => []
  | _ => buf

theorem CmdStep.encoder_eq {i : Instr} {s t : State} (h : CmdStep s i t) :
    (t.encPhase, t.encAcc, t.tx) = encoderAfter i s.encPhase s.encAcc s.tx := by
  cases h with
  | encStart x => cases hp : s.encPhase <;> simp [encStartOp, hp, encoderAfter, phaseAfter]
  | encCmd x => cases hp : s.encPhase <;> simp [encCmdOp, hp, encoderAfter, phaseAfter, emitSummed, byteOperand]
  | encData x => cases hp : s.encPhase <;> simp [encDataOp, hp, encoderAfter, phaseAfter, emitSummed, byteOperand]
  | encEnd x => cases hp : s.encPhase <;> simp [encEndOp, hp, encoderAfter, phaseAfter]
  | rxPush b => obtain ⟨-, e⟩ | ⟨-, e⟩ := rxPushOp_cases b s <;> rw [e] <;> rfl
  | illegal x _ hi =>
    simp only [List.mem_cons, List.not_mem_nil, or_false] at hi
    obtain rfl | rfl | rfl | rfl | rfl := hi <;> rfl
  | answer x _ hi =>
    simp only [List.mem_cons, List.not_mem_nil, or_false] at hi
    obtain rfl | rfl := hi <;> rfl
  | encAbort | parse | rxFlush | statClr => rfl

theorem CmdStep.rxBuf_eq {i : Instr} {s t : State} (h : CmdStep s i t) : t.rxBuf = rxAfter i s.cfg s.rxBuf := by
  cases h with
  | encStart x => exact (encStartOp_only x s).rxBuf_eq
  | encCmd x => exact (encCmdOp_only x s).rxBuf_eq
  | encData x => exact (encDataOp_only x s).rxBuf_eq
  | encEnd x => exact (encEndOp_only s).rxBuf_eq
  | rxPush b => obtain ⟨hc, e⟩ | ⟨hc, e⟩ := rxPushOp_cases b s <;> simp [e, rxAfter, hc]
  | illegal x _ hi =>
    simp only [List.mem_cons, List.not_mem_nil, or_false] at hi
    obtain rfl | rfl | rfl | rfl | rfl := hi <;> rfl
  | answer x _ hi =>
    simp only [List.mem_cons, List.not_mem_nil, or_false] at hi
    obtain rfl | rfl := hi <;> rfl
  | encAbort | parse | rxFlush | statClr => rfl

/-- Settles O10: the table of R23 is the encoder's part of the result. -/
theorem encoderPhaseTable : Obligations.EncoderPhaseTable := by
  intro i s t hi hexec
  exact congrArg Prod.fst (cmdStep_of_exec hi hexec).encoder_eq

/-- Only the five encoder operations have a part in the encoder. -/
theorem encoderAfter_of_other {i : Instr}
    (hi : ∀ x, i ∉ [Instr.encStart x, .encCmd x, .encData x, .encEnd x, .encAbort x])
    (p : EncPhase) (acc : Byte) (tx : List Byte) : encoderAfter i p acc tx = (p, acc, tx) := by
  cases i with
  | encStart x | encCmd x | encData x | encEnd x | encAbort x => exact absurd (by simp) (hi x)
  | _ => rfl

/-- Settles O33: each part after an operation is a function of the same part before it. -/
theorem encoderAndSynchronizerAreSeparate : Obligations.EncoderAndSynchronizerAreSeparate := by
  intro i s s' t t' hi hexec hexec'
  have hstep := cmdStep_of_exec hi hexec
  have hstep' := cmdStep_of_exec hi hexec'
  have henc := hstep.encoder_eq
  refine ⟨fun hphase hacc htx => ?encoder, fun hcfg hbuf => ⟨?buffer, ?answer⟩, ?keeps_buffer, ?keeps_encoder⟩
  case encoder =>
    have hsame := hstep'.encoder_eq
    rw [← hphase, ← hacc, ← htx, ← henc] at hsame
    simp only [Prod.mk.injEq] at hsame
    obtain ⟨hp, ha, ht⟩ := hsame
    exact ⟨hp.symm, ha.symm, ht.symm⟩
  case buffer => rw [hstep.rxBuf_eq, hstep'.rxBuf_eq, hcfg, hbuf]
  case answer =>
    rintro arg rfl
    obtain rfl : parseOp s = t := Host.Outcome.next.inj hexec
    obtain rfl : parseOp s' = t' := Host.Outcome.next.inj hexec'
    rw [parseOp_eq, parseOp_eq, parseOutcome, parseOutcome, hcfg, hbuf]
  case keeps_buffer =>
    rintro ⟨x, hx⟩
    rw [hstep.rxBuf_eq]
    simp only [List.mem_cons, List.not_mem_nil, or_false] at hx
    obtain rfl | rfl | rfl | rfl | rfl := hx <;> rfl
  case keeps_encoder =>
    intro hother
    rw [encoderAfter_of_other hother] at henc
    simpa only [Prod.mk.injEq] using henc

/-! ### The sticky bits (R26) -/

/-- R26: an operation sets `st_rx_ovf` by RX_PUSH on a full buffer and clears it by STAT_CLR. -/
theorem CmdStep.stRxOvf_cases {i : Instr} {s t : State} (h : CmdStep s i t) :
    t.stRxOvf = s.stRxOvf ∨
    (t.stRxOvf = true ∧ (∃ b, i = .rxPush b) ∧ s.cfg.rxCap = .bytes s.rxBuf.length) ∨
    ∃ x, i = .statClr x ∧ t.stRxOvf = if x.getLsbD 0 then false else s.stRxOvf := by
  cases h with
  | encStart x => exact .inl (encStartOp_only x s).stRxOvf_eq
  | encCmd x => exact .inl (encCmdOp_only x s).stRxOvf_eq
  | encData x => exact .inl (encDataOp_only x s).stRxOvf_eq
  | encEnd x => exact .inl (encEndOp_only s).stRxOvf_eq
  | rxPush b =>
    obtain ⟨hfull, e⟩ | ⟨-, e⟩ := rxPushOp_cases b s <;> rw [e]
    · exact .inr (.inl ⟨rfl, ⟨b, rfl⟩, hfull⟩)
    · exact .inl rfl
  | statClr x => exact .inr (.inr ⟨x, rfl, by rw [clearSticky_stickyOperand]; rfl⟩)
  | encAbort | parse | rxFlush | illegal | answer => exact .inl rfl

/-- R26, R112: an operation sets `st_enc_seq` where the encoder rejects it and clears it by STAT_CLR. -/
theorem CmdStep.stEncSeq_cases {i : Instr} {s t : State} (h : CmdStep s i t) :
    t.stEncSeq = s.stEncSeq ∨
    (t.stEncSeq = true ∧
      (((∃ x, i = .encStart x) ∧ s.encPhase ≠ .idle) ∨ ((∃ x, i = .encCmd x) ∧ s.encPhase ≠ .needCmd) ∨
        ((∃ x, i = .encData x) ∧ s.encPhase ≠ .body) ∨ ((∃ x, i = .encEnd x) ∧ s.encPhase ≠ .body))) ∨
    ∃ x, i = .statClr x ∧ t.stEncSeq = if x.getLsbD 1 then false else s.stEncSeq := by
  cases h with
  | encStart x =>
    by_cases hp : s.encPhase = .idle
    · exact .inl (by rw [encStartOp_of_idle x s hp])
    · exact .inr (.inl ⟨by rw [encStartOp_of_ne_idle x s hp]; rfl, .inl ⟨⟨x, rfl⟩, hp⟩⟩)
  | encCmd x =>
    by_cases hp : s.encPhase = .needCmd
    · exact .inl (by rw [encCmdOp_of_needCmd x s hp]; rfl)
    · exact .inr (.inl ⟨by rw [encCmdOp_of_ne_needCmd x s hp]; rfl, .inr (.inl ⟨⟨x, rfl⟩, hp⟩)⟩)
  | encData x =>
    by_cases hp : s.encPhase = .body
    · exact .inl (by rw [encDataOp_of_body x s hp]; rfl)
    · exact .inr (.inl ⟨by rw [encDataOp_of_ne_body x s hp]; rfl, .inr (.inr (.inl ⟨⟨x, rfl⟩, hp⟩))⟩)
  | encEnd x =>
    by_cases hp : s.encPhase = .body
    · exact .inl (by rw [encEndOp_of_body s hp])
    · exact .inr (.inl ⟨by rw [encEndOp_of_ne_body s hp]; rfl, .inr (.inr (.inr ⟨⟨x, rfl⟩, hp⟩))⟩)
  | rxPush b => obtain ⟨-, e⟩ | ⟨-, e⟩ := rxPushOp_cases b s <;> exact .inl (by rw [e])
  | statClr x => exact .inr (.inr ⟨x, rfl, by rw [clearSticky_stickyOperand]; rfl⟩)
  | encAbort | parse | rxFlush | illegal | answer => exact .inl rfl

/-- R26, R184: an operation sets `st_op_ill` by a reserved code and clears it by STAT_CLR. -/
theorem CmdStep.stOpIll_cases {i : Instr} {s t : State} (h : CmdStep s i t) :
    t.stOpIll = s.stOpIll ∨
    (t.stOpIll = true ∧
      ∃ x, i = .reserved6 x ∨ i = .reserved7 x ∨ i = .reservedB x ∨ i = .reservedC x ∨ i = .reservedD x) ∨
    ∃ x, i = .statClr x ∧ t.stOpIll = if x.getLsbD 2 then false else s.stOpIll := by
  cases h with
  | encStart x => exact .inl (encStartOp_only x s).stOpIll_eq
  | encCmd x => exact .inl (encCmdOp_only x s).stOpIll_eq
  | encData x => exact .inl (encDataOp_only x s).stOpIll_eq
  | encEnd x => exact .inl (encEndOp_only s).stOpIll_eq
  | rxPush b => obtain ⟨-, e⟩ | ⟨-, e⟩ := rxPushOp_cases b s <;> exact .inl (by rw [e])
  | statClr x => exact .inr (.inr ⟨x, rfl, by rw [clearSticky_stickyOperand]; rfl⟩)
  | illegal x i hi => exact .inr (.inl ⟨rfl, x, by simpa using hi⟩)
  | encAbort | parse | rxFlush | answer => exact .inl rfl

/-- A bit that goes from 0 to 1 was set by its event: it is not kept, and clearing leaves it 0. -/
theorem event_of_bit_set {i : Instr} {before after : Bool} {Q : Prop} {mask : Byte → Bool}
    (h : after = before ∨ (after = true ∧ Q) ∨ ∃ x, i = .statClr x ∧ after = if mask x then false else before)
    (hb : before = false) (ha : after = true) : Q := by
  subst hb ha
  obtain hkept | ⟨-, hevent⟩ | ⟨x, -, hclr⟩ := h
  · cases hkept
  · exact hevent
  · simp at hclr

/-- Settles O31: each bit by its own cases. -/
theorem stickyBitsSetOnlyByTheirEvents : Obligations.StickyBitsSetOnlyByTheirEvents := by
  intro i s t hi hexec
  have hstep := cmdStep_of_exec hi hexec
  exact ⟨event_of_bit_set hstep.stRxOvf_cases, event_of_bit_set hstep.stEncSeq_cases,
    event_of_bit_set hstep.stOpIll_cases⟩

end Sys2Proof.Machine
end

section
/-! PROOF. O14, O16, O17 and O35: which bytes a frame holds, and which byte lists decode to `Success`. A frame is its
start byte, a middle of tagged halves and its last byte; the middle holds neither a start byte nor an end tag. -/

namespace Sys2Proof.Machine

/-! ### Success (R130 to R139) -/

/-- Settles O16: the frame has the start tag and the sum of its body. -/
theorem decodeOfEncodeIsSuccess : Obligations.DecodeOfEncodeIsSuccess := by
  intro policy a c p
  refine (decodeFrame_success_iff policy _ a c p).2 ⟨0x8#4, sum8 (frameBody a c p), ?_, fun _ => ?_⟩
  · rw [encodeFrame, frameBody_eq, startByte_eq]
  · rw [frameBody_eq, startByte_eq]

/-- R69: the data pairs, as the bytes the spec writes. -/
theorem dataPairs_eq_flatMap (p : List Byte) :
    dataPairs p = p.flatMap (fun d : Byte => [0x50#8 ||| d >>> 4, 0x10#8 ||| (d &&& 0x0F#8)]) :=
  List.flatMap_congr fun d _ => tagPair_eq_masked d .data

/-- Settles O17: the candidate without its last two bytes is what `decodeFrame_success_iff` sums. -/
theorem successExactlyOnTaggedFrames : Obligations.SuccessExactlyOnTaggedFrames := by
  intro policy f a c p
  rw [decodeFrame_success_iff, ← dataPairs_eq_flatMap]
  refine exists_congr fun tag => exists_congr fun k => ?_
  rw [tagPair_eq_masked c, tagPair_eq_masked k]
  refine and_congr_right fun hf => imp_congr_right fun _ => ?_
  have hbody : f.take (f.length - 2) = byteOf tag a :: ([0x40#8 ||| tagCode .cmd ||| c >>> 4,
      tagCode .cmd ||| (c &&& 0x0F#8)] ++ dataPairs p) := by
    rw [hf, List.length_append]
    exact List.take_left
  rw [hbody]

/-! ### The bytes of a frame -/

/-- The bytes of a frame between its first and its last. -/
def frameMiddle (a : Nibble) (c : Byte) (p : List Byte) : List Byte :=
  tagPair c .cmd ++ dataPairs p ++ [byteOf 0x6#4 (hi4 (sum8 (frameBody a c p)))]

/-- The last byte of a frame (R65). -/
def frameLast (a : Nibble) (c : Byte) (p : List Byte) : Byte := byteOf 0x2#4 (lo4 (sum8 (frameBody a c p)))

theorem encodeFrame_eq (a : Nibble) (c : Byte) (p : List Byte) :
    encodeFrame a c p = startByte a :: (frameMiddle a c p ++ [frameLast a c p]) := by
  simp [encodeFrame, frameBody_eq, frameMiddle, frameLast, tagPair_eq _ .ck, highTag, lowTag]

@[simp] theorem frameMiddle_length (a : Nibble) (c : Byte) (p : List Byte) :
    (frameMiddle a c p).length = 2 * p.length + 3 := by
  simp [frameMiddle]; omega

@[simp] theorem hi4_startByte (a : Nibble) : hi4 (startByte a) = 0x8#4 := by
  rw [startByte_eq, hi4_byteOf]

@[simp] theorem hi4_frameLast (a : Nibble) (c : Byte) (p : List Byte) : hi4 (frameLast a c p) = 0x2#4 :=
  hi4_byteOf _ _

/-- The tag nibbles of a pair are its type's. -/
theorem hi4_of_mem_tagPair {x v : Byte} {t : TagType} (h : x ∈ tagPair v t) : hi4 x = highTag t ∨ hi4 x = lowTag t := by
  simp only [tagPair_eq, List.mem_cons, List.not_mem_nil, or_false] at h
  obtain rfl | rfl := h
  · exact .inl (hi4_byteOf _ _)
  · exact .inr (hi4_byteOf _ _)

/-- R65: the tags between the start byte and the last byte are those of a command pair, of data pairs and of the high
half of the checksum. -/
theorem hi4_of_mem_frameMiddle {x : Byte} {a : Nibble} {c : Byte} {p : List Byte} (h : x ∈ frameMiddle a c p) :
    hi4 x ∈ [0x4#4, 0x0#4, 0x5#4, 0x1#4, 0x6#4] := by
  simp only [frameMiddle, dataPairs, List.mem_append, List.mem_flatMap, List.mem_cons, List.not_mem_nil, or_false] at h
  obtain (hcmd | ⟨d, -, hdata⟩) | rfl := h
  · obtain htag | htag := hi4_of_mem_tagPair hcmd <;> rw [htag] <;> decide
  · obtain htag | htag := hi4_of_mem_tagPair hdata <;> rw [htag] <;> decide
  · rw [hi4_byteOf]; decide

/-- Settles O14: the first byte has the start tag, the last one the end tag, and those between have neither. -/
theorem frameBoundariesAreUnique : Obligations.FrameBoundariesAreUnique := by
  intro a c p j b hj
  rw [encodeFrame_eq] at hj
  cases j with
  | zero =>
    obtain rfl : startByte a = b := Option.some.inj hj
    simp
  | succ j =>
    rw [List.getElem?_cons_succ] at hj
    by_cases hmid : j < 2 * p.length + 3
    · rw [List.getElem?_append_left (by simpa using hmid)] at hj
      have htag := hi4_of_mem_frameMiddle (List.mem_of_getElem? hj)
      have hstart : hi4 b ≠ 0x8#4 := fun he => absurd (he ▸ htag) (by decide)
      have hlast : hi4 b ≠ 0x2#4 := fun he => absurd (he ▸ htag) (by decide)
      exact ⟨by simp [hstart], by simp [hlast]; omega⟩
    · rw [List.getElem?_append_right (by simpa using hmid), List.getElem?_singleton, frameMiddle_length] at hj
      split at hj
      · obtain rfl : frameLast a c p = b := Option.some.inj hj
        simp; omega
      · cases hj

/-- Settles O35: an unassigned tag is none of those that a scan, a tag check or a frame has. -/
theorem unassignedTagsHaveNoClass : Obligations.UnassignedTagsHaveNoClass := by
  intro b hb
  have hother : ∀ tag ∈ [0x8#4, 0x2#4, 0x4#4, 0x0#4, 0x5#4, 0x1#4, 0x6#4], hi4 b ≠ tag := by
    rintro tag htag rfl
    revert hb htag
    generalize hi4 b = n
    revert n
    decide
  have htype : ∀ ty, hi4 b ≠ highTag ty ∧ hi4 b ≠ lowTag ty := by
    intro ty
    cases ty <;> exact ⟨hother _ (by decide), hother _ (by decide)⟩
  refine ⟨?start, ?endTag, fun x ty => ⟨untag_eq_none_of_tags _ _ _ (.inl (htype ty).1),
    untag_eq_none_of_tags _ _ _ (.inr (htype ty).2)⟩, fun a c p hmem => ?frame⟩
  case start =>
    rw [Ne, ← isStart_iff_mask, isStart_iff]
    exact hother _ (by decide)
  case endTag =>
    rw [Ne, ← isEndTag_iff_mask, isEndTag_iff]
    exact hother _ (by decide)
  case frame =>
    rw [encodeFrame_eq, List.mem_cons, List.mem_append, List.mem_singleton] at hmem
    obtain rfl | hmid | rfl := hmem
    · exact hother _ (by decide) (hi4_startByte a)
    · exact hother (hi4 b) (List.mem_of_mem_drop (i := 2) (hi4_of_mem_frameMiddle hmid)) rfl
    · exact hother _ (by decide) (hi4_frameLast a c p)

end Sys2Proof.Machine
end

section
/-! PROOF. O11 and O12: programs of the command port. A run of two lists is the second from where the first ended; the
ENC_FRAME program is the host's `encodeRequest` with its answers. -/

namespace Sys2Proof.Machine

/-! ### Running operations -/

/-- One operation, the response it leaves, and then the rest. -/
theorem runOps_cons {i : Instr} {rest : List Instr} {s t u : State} {r : Option Response}
    {answers : List (Option Response)} (hi : exec i s = .next t) (hr : t.resp = r)
    (hrest : runOps rest t = .next (u, answers)) : runOps (i :: rest) s = .next (u, r :: answers) := by
  rw [runOps, hi]
  simp only [hrest, hr]

theorem runOps_append {xs ys : List Instr} {s t u : State} {as bs : List (Option Response)}
    (hxs : runOps xs s = .next (t, as)) (hys : runOps ys t = .next (u, bs)) :
    runOps (xs ++ ys) s = .next (u, as ++ bs) := by
  induction xs generalizing s as with
  | nil =>
    obtain ⟨rfl, rfl⟩ : s = t ∧ [] = as := by simpa [runOps] using hxs
    exact hys
  | cons i xs ih =>
    unfold runOps at hxs
    split at hxs
    · cases hxs
    · cases hxs
    · next s' hi =>
      split at hxs
      · cases hxs
      · cases hxs
      · next t' as' hrun =>
        obtain ⟨rfl, rfl⟩ : t' = t ∧ s'.resp :: as' = as := by simpa using hxs
        exact runOps_cons hi rfl (ih hrun)

/-! ### ENC_FRAME (R77) -/

theorem addressOperand_setWidth (a : Nibble) : addressOperand (a.setWidth 8) = a := by
  revert a; decide

/-- The answer of an accepted operation (R105 to R108). -/
def okAnswer (data : Byte) : Option Response := some ⟨.ok, data, none⟩

/-- The answers of ENC_FRAME from IDLE: the silent flag, then one OK per operation. -/
def encFrameAnswers (a : Nibble) (p : List Byte) : List (Option Response) :=
  okAnswer (silentData a) :: okAnswer 0x00#8 :: (List.replicate p.length (okAnswer 0x00#8) ++ [okAnswer 0x00#8])

/-- R107: an open frame accepts a payload byte and stays open. -/
theorem encDataOp_accepted {d : Byte} {s : State} (h : s.encPhase = .body) :
    (encDataOp d s).encPhase = .body ∧ (encDataOp d s).resp = okAnswer 0x00#8 := by
  rw [encDataOp_of_body d s h]
  exact ⟨h, rfl⟩

theorem encDataOp_foldl_encPhase {p : List Byte} {s : State} (h : s.encPhase = .body) :
    (p.foldl (fun t d => encDataOp d t) s).encPhase = .body := by
  obtain ⟨r, e⟩ := encDataOp_foldl p s h
  rw [e]
  exact h

/-- R107: each ENC_DATA of an open frame is accepted. -/
theorem runOps_encData (p : List Byte) (s : State) (h : s.encPhase = .body) :
    runOps (p.map Instr.encData) s =
      .next (p.foldl (fun t d => encDataOp d t) s, List.replicate p.length (okAnswer 0x00#8)) := by
  induction p generalizing s with
  | nil => rfl
  | cons d p ih =>
    obtain ⟨hbody, hresp⟩ := encDataOp_accepted (d := d) h
    exact runOps_cons (exec_encData d s) hresp (ih (encDataOp d s) hbody)

/-- From IDLE the program is the host's encoding of a request, and every operation is accepted. -/
theorem runOps_encFrame (a : Nibble) (c : Byte) (p : List Byte) (s : State) (h : s.encPhase = .idle) :
    runOps (encFrame a c p) s = .next (encodeRequest a c p s, encFrameAnswers a p) := by
  have hstart := encStartOp_of_idle (a.setWidth 8) s h
  rw [addressOperand_setWidth] at hstart
  have hcmd := encCmdOp_of_needCmd c (encStartOp (a.setWidth 8) s) (by rw [hstart])
  have hbody : (encCmdOp c (encStartOp (a.setWidth 8) s)).encPhase = .body := by rw [hcmd]
  have hend := encEndOp_of_body _ (encDataOp_foldl_encPhase (p := p) hbody)
  refine runOps_cons (exec_encStart _ s) (by rw [hstart, okAnswer]) ?_
  refine runOps_cons (exec_encCmd c _) (by rw [hcmd, okAnswer]) ?_
  refine runOps_append (runOps_encData p _ hbody) ?_
  exact runOps_cons (exec_encEnd _ _) (by rw [hend, okAnswer]) rfl

/-- Settles O11: the program is the host's encoding, whose result from IDLE is the frame. -/
theorem encFrameEmitsTheFrame : Obligations.EncFrameEmitsTheFrame := by
  intro s a c p hidle
  refine ⟨encFrameAnswers a p, ?run, ?count, fun r hr => ?accepted⟩
  case run =>
    rw [runOps_encFrame a c p s hidle, encodeRequest_idle a c p s hidle, encodeFrame_take, ← hidle]
  case count => simp [encFrameAnswers]
  case accepted =>
    simp only [encFrameAnswers, List.mem_cons, List.mem_append, List.mem_replicate, List.not_mem_nil, or_false] at hr
    obtain rfl | rfl | ⟨-, rfl⟩ | rfl := hr <;> exact ⟨_, rfl⟩

/-! ### The frame through the receive buffer -/

/-- R153, R156, R158: an encoded frame is one whole candidate. -/
theorem parseBuffer_encodeFrame (policy : CksumPolicy) (a : Nibble) (c : Byte) (p : List Byte) :
    parseBuffer policy (encodeFrame a c p) = (.success a c p, []) := by
  have hmid : ∀ x ∈ frameMiddle a c p, isEndTag x = false := by
    intro x hx
    rw [Bool.eq_false_iff, Ne, isEndTag_iff]
    intro he
    have htag := hi4_of_mem_frameMiddle hx
    rw [he] at htag
    exact absurd htag (by decide)
  have hcand := parseBuffer_candidate policy (startByte a) (frameMiddle a c p) (frameLast a c p) []
    ((isStart_iff _).2 (hi4_startByte a)) hmid ((isEndTag_iff _).2 (hi4_frameLast a c p))
  rwa [← encodeFrame_eq, decodeOfEncodeIsSuccess] at hcand

/-- Settles O12: the pushed bytes are the whole buffer, and it is one frame. -/
theorem emittedFrameParsesBack : Obligations.EmittedFrameParsesBack := by
  intro s a c p arg hidle hempty hroom
  have henc := runOps_encFrame a c p s hidle
  rw [encodeRequest_idle a c p s hidle] at henc
  generalize hu : ({ s with
      tx := s.tx ++ encodeFrame a c p
      encAcc := sum8 (frameBody a c p)
      resp := some ⟨.ok, 0x00#8, none⟩ } : State) = u at henc
  obtain ⟨answers, hpush⟩ := runOps_rxPushN (encodeFrame a c p) u
  obtain ⟨hbuf, hcfg⟩ := pushAll_room (encodeFrame a c p) u (by rw [encodeFrame_length, ← hu]; exact hroom)
  have htx : (pushAll (encodeFrame a c p) u).tx = s.tx ++ encodeFrame a c p := by
    obtain ⟨buf, ovf, r, e, -, -⟩ := pushAll_only (encodeFrame a c p) u
    rw [e, ← hu]
  have hparse : exec (.parse arg) (pushAll (encodeFrame a c p) u) = .next { pushAll (encodeFrame a c p) u with
      rxBuf := [], resp := some ⟨.ok, 0x01#8, some (.success a c p)⟩ } := by
    refine exec_parse_of_parseBuffer (o := .success a c p) arg ?_
    rw [hbuf, ← hu]
    simp only [hempty, List.nil_append]
    exact parseBuffer_encodeFrame _ a c p
  exact ⟨_, _, runOps_append (runOps_append henc hpush) (runOps_cons hparse rfl rfl), htx, rfl, rfl⟩

end Sys2Proof.Machine
end

section
/-! PROOF. O21, O23, O24 and O25: what a PARSE and a drain account for. A drain is `drainAll` of the buffer, and feeding
a stream chunk by chunk is `drainAll` of the whole stream, so neither the partition nor the streaming form can be told
from it. -/

namespace Sys2Proof.Machine

/-! ### One PARSE -/

/-- R153: bytes the start scan passes over have another tag. -/
theorem hi4_ne_of_isStart_eq_false {l : List Byte} (h : ∀ x ∈ l, isStart x = false) : ∀ x ∈ l, hi4 x ≠ 0x8#4 :=
  fun x hx htag => Bool.eq_false_iff.1 (h x hx) ((isStart_iff x).2 htag)

/-- R156: bytes the end scan passes over have another tag. -/
theorem hi4_ne_of_isEndTag_eq_false {l : List Byte} (h : ∀ x ∈ l, isEndTag x = false) : ∀ x ∈ l, hi4 x ≠ 0x2#4 :=
  fun x hx htag => Bool.eq_false_iff.1 (h x hx) ((isEndTag_iff x).2 htag)

/-- Settles O21: the four cases of PARSE, and the four outcomes of a candidate. -/
theorem parseLosesNoByte : Obligations.ParseLosesNoByte := by
  intro s arg
  obtain h | ⟨g, b, rest, hbuf, hne, hg, hb⟩ | ⟨b, rest, hbuf, hb, h⟩ | ⟨b, m, e, rest, hbuf, hb, hm, he⟩ :=
    parseBuffer_cases s.rxBuf
  · exact ⟨_, [], .needMoreData, exec_parse_of_parseBuffer arg (parseBuffer_noStart _ _ h), rfl, rfl, rfl⟩
  · have hparse := parseBuffer_garbage s.cfg.cksumPolicy g b rest hne hg hb
    rw [← hbuf] at hparse
    exact ⟨_, g, .skipped g, exec_parse_of_parseBuffer arg hparse, rfl, hbuf, rfl, hne,
      hi4_ne_of_isStart_eq_false hg, b, rest, rfl, (isStart_iff b).1 hb⟩
  · have hparse := parseBuffer_incomplete s.cfg.cksumPolicy b rest hb h
    rw [← hbuf] at hparse
    exact ⟨_, [], .needMoreData, exec_parse_of_parseBuffer arg hparse, rfl, rfl, rfl⟩
  · have hparse := parseBuffer_candidate s.cfg.cksumPolicy b m e rest hb hm he
    rw [← hbuf] at hparse
    have hsplit : s.rxBuf = (b :: (m ++ [e])) ++ rest := by simp [hbuf]
    have hbounds : ∃ b' m' e', b :: (m ++ [e]) = b' :: (m' ++ [e']) ∧ hi4 b' = 0x8#4 ∧ hi4 e' = 0x2#4 ∧
        ∀ x ∈ m', hi4 x ≠ 0x2#4 :=
      ⟨b, m, e, rfl, (isStart_iff b).1 hb, (isEndTag_iff e).1 he, hi4_ne_of_isEndTag_eq_false hm⟩
    refine ⟨_, b :: (m ++ [e]), _, exec_parse_of_parseBuffer arg hparse, rfl, hsplit, ?_⟩
    obtain ⟨a, c, p, ho⟩ | ho | ho | ⟨hpol, ho⟩ := decodeFrame_cases s.cfg.cksumPolicy (b :: (m ++ [e])) <;> rw [ho]
    · exact hbounds
    · exact ⟨rfl, hbounds⟩
    · exact ⟨rfl, hbounds⟩
    · exact ⟨hpol, rfl, hbounds⟩

/-! ### The drain (R165) -/

/-- R162: an outcome removes at least one byte and is not `NeedMoreData`. -/
theorem drainAll_outcomes (policy : CksumPolicy) (buf : List Byte) :
    (drainAll policy buf).1.length + (drainAll policy buf).2.length ≤ buf.length ∧
    ∀ o ∈ (drainAll policy buf).1, o ≠ .needMoreData := by
  induction hn : buf.length using Nat.strong_induction_on generalizing buf with
  | _ n ih =>
    by_cases h : (parseBuffer policy buf).1 = .needMoreData
    · rw [drainAll_stop policy buf h]
      simp [hn]
    · have hshort := (parseBuffer_shorter policy buf).2 h
      obtain ⟨hlen, hne⟩ := ih _ (hn ▸ hshort) _ rfl
      rw [drainAll_go policy buf h]
      simp only [List.length_cons, List.mem_cons, forall_eq_or_imp]
      exact ⟨by omega, h, hne⟩

/-- Settles O23: the bound is the number of removed bytes. -/
theorem drainEndsInTime : Obligations.DrainEndsInTime := by
  intro s
  obtain ⟨houts, hbuf, hcfg⟩ := drain_eq s
  obtain ⟨hlen, hne⟩ := drainAll_outcomes s.cfg.cksumPolicy s.rxBuf
  refine ⟨by rw [houts]; omega, ?_, by rw [houts]; exact hne⟩
  rw [parseOutcome, hbuf, hcfg]
  exact drainAll_dry _ _

/-! ### Feeding a stream (R164) -/

theorem room_iff (n : Nat) (s : State) : Room n s ↔ ∀ cap, s.cfg.rxCap = .bytes cap → s.rxBuf.length + n ≤ cap := by
  unfold Room
  cases s.cfg.rxCap <;> simp

/-- Chunk by chunk with a drain after each is one drain of everything, as long as one drain happens or the buffer is
dry. -/
theorem feed_eq_drainAll (xs : List (List Byte)) (s : State)
    (hdry : xs ≠ [] ∨ (parseBuffer s.cfg.cksumPolicy s.rxBuf).1 = .needMoreData) (hroom : Room xs.flatten.length s) :
    (feed xs s).1 = (drainAll s.cfg.cksumPolicy (s.rxBuf ++ xs.flatten)).1 ∧
    (feed xs s).2.rxBuf = (drainAll s.cfg.cksumPolicy (s.rxBuf ++ xs.flatten)).2 := by
  induction xs generalizing s with
  | nil =>
    have hstop := drainAll_stop s.cfg.cksumPolicy s.rxBuf (hdry.resolve_left fun h => h rfl)
    simp [feed, hstop]
  | cons chunk rest ih =>
    have hlen : (chunk :: rest).flatten.length = chunk.length + rest.flatten.length := by simp
    rw [hlen, room_iff] at hroom
    obtain ⟨hbuf, hcfg⟩ := pushAll_room chunk s ((room_iff _ _).2 fun cap hc => by have := hroom cap hc; omega)
    obtain ⟨houts, hleft, hcfg'⟩ := drain_eq (pushAll chunk s)
    rw [hcfg] at houts hleft hcfg'
    rw [hbuf] at houts hleft
    obtain ⟨hshort, -⟩ := drainAll_outcomes s.cfg.cksumPolicy (s.rxBuf ++ chunk)
    rw [List.length_append] at hshort
    have hrest := ih (drain (pushAll chunk s)).2
      (.inr (by rw [hleft, hcfg']; exact drainAll_dry _ _))
      ((room_iff _ _).2 fun cap hc => by rw [hcfg'] at hc; have := hroom cap hc; rw [hleft]; omega)
    rw [hleft, hcfg'] at hrest
    obtain ⟨hrestOuts, hrestBuf⟩ := hrest
    have hall := drainAll_append s.cfg.cksumPolicy (s.rxBuf ++ chunk) rest.flatten
    rw [List.append_assoc] at hall
    rw [List.flatten_cons, hall]
    exact ⟨by rw [feed, houts, hrestOuts], by rw [feed]; exact hrestBuf⟩

/-- Settles O24: both partitions are the drain of the same stream. -/
theorem incrementalEquivalence : Obligations.IncrementalEquivalence := by
  intro s xs ys hxs hys hsame hroom
  obtain ⟨houts, hbuf⟩ := feed_eq_drainAll xs s (.inl hxs) hroom
  obtain ⟨houts', hbuf'⟩ := feed_eq_drainAll ys s (.inl hys) (hsame ▸ hroom)
  exact ⟨by rw [houts, houts', hsame], by rw [hbuf, hbuf', hsame]⟩

/-! ### The streaming form (R163) -/

/-- What the two streaming states hold: garbage without a start byte, or a candidate without an end tag. -/
def StreamHolds : StreamState → Prop
  | .hunt g => ∀ x ∈ g, isStart x = false
  | .frame c => ∃ b m, c = b :: m ∧ isStart b = true ∧ ∀ x ∈ m, isEndTag x = false

/-- A streaming state waits for more bytes. -/
theorem parseBuffer_heldBytes (policy : CksumPolicy) {st : StreamState} (h : StreamHolds st) :
    parseBuffer policy (heldBytes st) = (.needMoreData, heldBytes st) := by
  cases st with
  | hunt g => exact parseBuffer_noStart policy g h
  | frame c =>
    obtain ⟨b, m, rfl, hb, hm⟩ := h
    exact parseBuffer_incomplete policy b m hb hm

theorem drainAll_heldBytes (policy : CksumPolicy) {st : StreamState} (h : StreamHolds st) :
    drainAll policy (heldBytes st) = ([], heldBytes st) :=
  drainAll_stop policy _ (congrArg Prod.fst (parseBuffer_heldBytes policy h))

/-- A PARSE that gives an outcome and leaves what a streaming state holds is the whole drain. -/
theorem drainAll_of_parseBuffer (policy : CksumPolicy) {buf : List Byte} {o : ParseOutcome} {st : StreamState}
    (hparse : parseBuffer policy buf = (o, heldBytes st)) (ho : o ≠ .needMoreData) (h : StreamHolds st) :
    drainAll policy buf = ([o], heldBytes st) := by
  rw [drainAll_go policy buf (by rw [hparse]; exact ho), hparse]
  simp only [drainAll_heldBytes policy h]

theorem forall_mem_snoc {q : Byte → Bool} {l : List Byte} {b : Byte} (hl : ∀ x ∈ l, q x = false) (hb : ¬ q b = true) :
    ∀ x ∈ l ++ [b], q x = false := by
  simpa [or_imp, forall_and, hb] using hl

/-- One byte of the streaming form is the drain with that byte behind what is held. -/
theorem streamByte_eq_drainAll (policy : CksumPolicy) {st : StreamState} (h : StreamHolds st) (b : Byte) :
    StreamHolds (streamByte policy st b).2 ∧
    drainAll policy (heldBytes st ++ [b]) = ((streamByte policy st b).1, heldBytes (streamByte policy st b).2) := by
  cases st with
  | hunt g =>
    by_cases hb : isStart b = true
    · have hframe : StreamHolds (.frame [b]) := ⟨b, [], rfl, hb, by simp⟩
      by_cases hg : g = []
      · subst hg
        simp only [streamByte, if_pos hb, if_true]
        exact ⟨hframe, drainAll_heldBytes policy hframe⟩
      · have hparse := parseBuffer_garbage policy g b [] hg h hb
        simp only [streamByte, if_pos hb, if_neg hg]
        exact ⟨hframe, drainAll_of_parseBuffer policy hparse (by simp) hframe⟩
    · have hhunt : StreamHolds (.hunt (g ++ [b])) := forall_mem_snoc h hb
      simp only [streamByte, if_neg hb]
      exact ⟨hhunt, drainAll_heldBytes policy hhunt⟩
  | frame c =>
    obtain ⟨b0, m, rfl, hb0, hm⟩ := h
    by_cases hb : isEndTag b = true
    · have hhunt : StreamHolds (.hunt []) := fun x hx => by cases hx
      have hparse := parseBuffer_candidate policy b0 m b [] hb0 hm hb
      simp only [streamByte, if_pos hb]
      exact ⟨hhunt, drainAll_of_parseBuffer policy hparse (decodeFrame_ne_needMoreData policy _) hhunt⟩
    · have hframe : StreamHolds (.frame (b0 :: m ++ [b])) := ⟨b0, m ++ [b], rfl, hb0, forall_mem_snoc hm hb⟩
      simp only [streamByte, if_neg hb]
      exact ⟨hframe, drainAll_heldBytes policy hframe⟩

/-- The streaming form of a stream is the drain of what is held and the stream. -/
theorem streamBytes_eq_drainAll (policy : CksumPolicy) (bytes : List Byte) {st : StreamState} (h : StreamHolds st) :
    drainAll policy (heldBytes st ++ bytes) =
      ((streamBytes policy st bytes).1, heldBytes (streamBytes policy st bytes).2) := by
  induction bytes generalizing st with
  | nil => rw [List.append_nil, drainAll_heldBytes policy h, streamBytes]
  | cons b bytes ih =>
    obtain ⟨hnext, hdrain⟩ := streamByte_eq_drainAll policy h b
    have happend := drainAll_append policy (heldBytes st ++ [b]) bytes
    rw [hdrain, ih hnext, List.append_assoc] at happend
    exact happend

/-- Settles O25: both forms are the drain of the whole stream. -/
theorem streamingFormAgrees : Obligations.StreamingFormAgrees := by
  intro s bytes hempty hroom
  have hflat : (bytes.map fun b => [b]).flatten = bytes := by
    rw [← List.flatMap_def, List.flatMap_singleton']
  have hhunt : StreamHolds (.hunt []) := fun x hx => by cases hx
  have hfeed := feed_eq_drainAll (bytes.map fun b => [b]) s
    (.inr (by rw [hempty]; exact congrArg Prod.fst (parseBuffer_heldBytes _ hhunt))) (by rw [hflat]; exact hroom)
  have hstream := streamBytes_eq_drainAll s.cfg.cksumPolicy bytes hhunt
  rw [hflat, hempty] at hfeed
  rw [show heldBytes (.hunt []) = [] from rfl] at hstream
  rwa [hstream] at hfeed

end Sys2Proof.Machine
end

section
/-! PROOF. O36 to O41: the host's requests. One lemma gives the request that reaches the line (R266), with the rate that
is noted as a function of the code and the payload; the statements are its three endings, and the two ways a request is
turned away before the block. -/

namespace Sys2Proof.Machine

/-! ### The noted rate (R204, log entry 10) -/

/-- The line's rate after a request with code `c` and payload `p` was written whole. -/
def notedRate (c : Byte) (p : List Byte) (rate : LineRate) : LineRate :=
  match p with
  | [k] => if c = 0x01#8 ∧ k.toNat < 8 then .requested (BitVec.ofNat 3 k.toNat) else rate
  | _ => rate

theorem notedRate_of_index {c k : Byte} (hc : c = 0x01#8) (hk : k.toNat < 8) (rate : LineRate) :
    notedRate c [k] rate = .requested (BitVec.ofNat 3 k.toNat) := if_pos ⟨hc, hk⟩

theorem notedRate_of_other {c : Byte} {p : List Byte} (h : c ≠ 0x01#8 ∨ p.length ≠ 1) (rate : LineRate) :
    notedRate c p rate = rate := by
  unfold notedRate
  split
  · exact if_neg fun hck => h.elim (fun hc => hc hck.1) (fun hp => hp rfl)
  · rfl

theorem noteBaudrate_eq (c : Byte) (p : List Byte) (s : State) :
    noteBaudrate c p s = setHost { s.host with lineRate := notedRate c p s.host.lineRate } s := by
  obtain _ | ⟨k, _ | ⟨k', p⟩⟩ := p
  · rfl
  · by_cases h : c = 0x01#8 ∧ k.toNat < 8
    · rw [notedRate_of_index h.1 h.2, BitVec.ofNat_toNat]
      exact if_pos h
    · rw [notedRate, if_neg h]
      exact if_neg h
  · rfl

/-! ### A request that reaches the line (R265 to R267) -/

/-- The state once the frame is encoded and its first `n` bytes are on the line. -/
def sentState (c : Byte) (a : Nibble) (p : List Byte) (n : Nat) (ns : List Notice) (s : State) : State :=
  { s with
    tx := s.tx ++ encodeFrame a c p
    encAcc := sum8 (frameBody a c p)
    resp := some ⟨.ok, 0x00#8, none⟩
    host := { openedHost s.host ns with
      lineOut := s.host.lineOut ++ (encodeFrame a c p).take n
      msg := none } }

/-- How the exchange goes on once the frame is on the line whole: a silent address ends it, any other is awaited. -/
def afterWrite (c : Byte) (a : Nibble) (p : List Byte) (w : State) : State :=
  if isSilent a then emitEvents [.replySilent a c] w
  else setHost { w.host with pending := some { address := a, command := c, payload := p, elapsedMs := 0 } } w

section Sent

variable {c : Byte} {a : Nibble} {p : List Byte} {line : LineReport} {s : State}
  (hpend : s.host.pending = none) (hopen : s.host.conn = .opened ∨ line.opens = .granted) (hidle : s.encPhase = .idle)
include hpend hopen hidle

theorem hostRequest_sent : ∃ ns : List Notice, hostRequest c a p line s =
    if line.written.getD (2 * p.length + 5) < 2 * p.length + 5 then
      emitEvents [.error .writeShortfall] (sentState c a p (line.written.getD (2 * p.length + 5)) ns s)
    else
      afterWrite c a p (noteBaudrate c p (sentState c a p (line.written.getD (2 * p.length + 5)) ns s)) := by
  obtain ⟨ns, hreq⟩ := hostRequest_opens c a p line s hpend hopen
  have hwrite := writeRequest_idle c a p line.written (setHost { openedHost s.host ns with msg := none } s) hidle
  refine ⟨ns, ?_⟩
  rw [hreq, hwrite, sentState, ← openedHost_lineOut s.host ns]
  simp only [encodeFrame_length]
  rfl

/-- R266: a short write. -/
theorem hostRequest_short {n : Nat} (hwritten : line.written = some n) (hn : n < 2 * p.length + 5) :
    ∃ ns : List Notice, hostRequest c a p line s = emitEvents [.error .writeShortfall] (sentState c a p n ns s) := by
  obtain ⟨ns, hreq⟩ := hostRequest_sent (c := c) (a := a) (p := p) hpend hopen hidle
  rw [hwritten] at hreq
  exact ⟨ns, hreq.trans (if_pos hn)⟩

/-- R267: a request that was written whole, its rate noted. -/
theorem hostRequest_whole (hwhole : WritesWhole p line) : ∃ ns : List Notice, hostRequest c a p line s =
    afterWrite c a p { s with
      tx := s.tx ++ encodeFrame a c p
      encAcc := sum8 (frameBody a c p)
      resp := some ⟨.ok, 0x00#8, none⟩
      host := { openedHost s.host ns with
        lineOut := s.host.lineOut ++ encodeFrame a c p
        lineRate := notedRate c p (openedHost s.host ns).lineRate
        msg := none } } := by
  obtain ⟨ns, hreq⟩ := hostRequest_sent (c := c) (a := a) (p := p) hpend hopen hidle
  have hlen : 2 * p.length + 5 ≤ line.written.getD (2 * p.length + 5) := by
    cases hwritten : line.written with
    | none => exact Nat.le_refl _
    | some n => exact hwhole n hwritten
  have htake : (encodeFrame a c p).take (line.written.getD (2 * p.length + 5)) = encodeFrame a c p :=
    List.take_of_length_le (by rwa [encodeFrame_length])
  rw [if_neg (Nat.not_lt.2 hlen), noteBaudrate_eq, sentState, htake] at hreq
  exact ⟨ns, hreq⟩

end Sent

/-- R44: the addresses that answer. -/
theorem isSilent_eq_false {a : Nibble} (h0 : a ≠ 0#4) (h15 : a ≠ 15#4) : isSilent a = false := by
  simp [isSilent, h0, h15]

/-! ### The statements on requests -/

/-- Settles O36: the request is written whole and answers are awaited from its address. -/
theorem requestIsWrittenAndPending : Obligations.RequestIsWrittenAndPending := by
  intro s i c a x p line hrow hc hm hpend hopen hidle h0 h15 hwhole
  obtain ⟨ns, hreq⟩ := hostRequest_whole (c := c) (a := a) hpend hopen hidle hwhole
  refine ⟨ns, ?_⟩
  rw [exec_request s i c a x p line hrow (fun k hk => absurd hk hc) hm, hreq, afterWrite, isSilent_eq_false h0 h15,
    notedRate_of_other (.inl hc)]
  rfl

/-- Settles O40: the frame is on the TX stream whole and on the line in part. -/
theorem shortWriteAborts : Obligations.ShortWriteAborts := by
  intro s i c a x p line n hrow hidx hm hpend hopen hidle hwritten hn
  obtain ⟨ns, hreq⟩ := hostRequest_short (c := c) (a := a) hpend hopen hidle hwritten hn
  exact ⟨ns, by rw [exec_request s i c a x p line hrow hidx hm, hreq]; rfl⟩

/-- Settles O38: a silent address ends the request where another address would wait. -/
theorem silentAddressIsNotAwaited : Obligations.SilentAddressIsNotAwaited := by
  intro s i c a x p line hrow hidx haddr hm hpend hopen hidle hwhole
  obtain ⟨ns, hreq⟩ := hostRequest_whole (c := c) (a := a) hpend hopen hidle hwhole
  have hsilent : isSilent a = true := by simpa [isSilent] using haddr
  refine ⟨ns, notedRate c p (openedHost s.host ns).lineRate, ?state, ?index, fun hother => notedRate_of_other hother _⟩
  case state =>
    rw [exec_request s i c a x p line hrow hidx hm, hreq, afterWrite, hsilent]
    rfl
  case index =>
    rintro k hc rfl
    exact notedRate_of_index hc (hidx k hc rfl) _

/-- Settles O37: the index is checked before the request, and is noted once the request is written. -/
theorem setBaudrateRequest : Obligations.SetBaudrateRequest := by
  intro s a x p line hm
  refine ⟨?rejected, fun hidx hpend hopen hidle h0 h15 hwhole => ?sent⟩
  case rejected =>
    rintro k rfl hk
    show execProtoSetBaudrate s = _
    have hbad : ¬ k.toNat < baudTable.length := Nat.not_lt.2 hk
    simp only [execProtoSetBaudrate, hm, if_neg hbad]
    rfl
  case sent =>
    obtain ⟨ns, hreq⟩ := hostRequest_whole (c := 0x01#8) (a := a) hpend hopen hidle hwhole
    refine ⟨ns, ?_⟩
    rw [exec_request s _ 0x01#8 a x p line (by simp [requestRows]) hidx hm, hreq, afterWrite, isSilent_eq_false h0 h15]
    obtain _ | ⟨k, _ | ⟨k', p⟩⟩ := p
    · rfl
    · rw [notedRate_of_index rfl (hidx k rfl rfl)]
      rfl
    · rfl

/-- R265: an open that fails leaves the line closed and reports the error. -/
theorem lazyOpen_refused {r : OpenResult} {kind : ErrorKind} {s : State} (hconn : s.host.conn ≠ .opened)
    (hr : (r, kind) ∈ [(OpenResult.unavailable, ErrorKind.lineUnavailable), (OpenResult.claimed, ErrorKind.lineBusy)]) :
    lazyOpen r s = lineFailed kind s := by
  have hanswer : answerOpen r s = lineFailed kind s := by
    simp only [List.mem_cons, List.not_mem_nil, or_false, Prod.mk.injEq] at hr
    obtain ⟨rfl, rfl⟩ | ⟨rfl, rfl⟩ := hr <;> rfl
  unfold lazyOpen
  split
  · exact hanswer
  · exact hanswer
  · next hopened => exact absurd hopened hconn

/-- R264: a request while another is pending. -/
theorem hostRequest_busy {s : State} {q : Pending} (hpend : s.host.pending = some q) (c : Byte) (a : Nibble)
    (p : List Byte) (line : LineReport) : hostRequest c a p line s = emitEvents [.error .busy] (dropMsg s) := by
  rw [hostRequest, hpend]

/-- R265: a request on a line that does not open. -/
theorem hostRequest_failed {s : State} {line : LineReport} {kind : ErrorKind} (hpend : s.host.pending = none)
    (hopen : lazyOpen line.opens (dropMsg s) = lineFailed kind (dropMsg s)) (c : Byte) (a : Nibble) (p : List Byte) :
    hostRequest c a p line s = lineFailed kind (dropMsg s) := by
  have hclosed : (lineFailed kind (dropMsg s)).host.conn ≠ .opened := by simp [lineFailed]
  rw [hostRequest, hpend]
  simp only [hopen, if_neg hclosed]

/-- Settles O39: the pending exchange is looked at first, then the line. -/
theorem requestTurnedAwayBeforeTheBlock : Obligations.RequestTurnedAwayBeforeTheBlock := by
  intro s i c a x p line hrow hidx hm
  rw [exec_request s i c a x p line hrow hidx hm]
  exact ⟨fun q hpend => by rw [hostRequest_busy hpend]; rfl,
    fun kind hpend hconn hr => by rw [hostRequest_failed hpend (lazyOpen_refused hconn hr)]; rfl⟩

/-! ### The host's calls (R216) -/

theorem executeCall_taken {address : Nat} {c : Byte} (haddr : address < 16) (hc : isRequestCode c = true)
    (p : List Byte) (line : LineReport) (s : State) :
    executeCall address c p line s = takeRequest (BitVec.ofNat 4 address) c p line s := if_pos ⟨haddr, hc⟩

theorem executeCall_rejected {address : Nat} {c : Byte} (h : ¬ (address < 16 ∧ isRequestCode c = true))
    (p : List Byte) (line : LineReport) (s : State) : executeCall address c p line s = rejectParameter s := if_neg h

/-- The three codes of setSmartLed are request codes (D27). -/
theorem isRequestCode_smartLed (variant : Fin 3) : isRequestCode (BitVec.ofNat 8 (0x14 + variant.val)) = true := by
  revert variant; decide

/-- Settles O41: each call is one input, and its check comes first. -/
theorem hostCallsAreCheckedThenTaken : Obligations.HostCallsAreCheckedThenTaken := by
  intro s rest line hm
  refine ⟨fun address c p hin => ?execute, fun index hin => ?setBaudrate,
    fun address variant group r g b hin => ?setSmartLed⟩
  case execute =>
    rw [step_hostInput s _ rest hm hin rfl]
    refine ⟨fun haddr hrow => ?taken, fun hbad => ?rejected⟩
    case taken =>
      rw [hostInput, executeCall_taken haddr ((isRequestCode_iff c).2 hrow)]
      rfl
    case rejected =>
      rw [hostInput, executeCall_rejected ?_]
      · rfl
      · rintro ⟨haddr, hcode⟩
        obtain ⟨i, hi⟩ := (isRequestCode_iff c).1 hcode
        exact hbad.elim (fun h => by omega) (fun h => h i hi)
  case setBaudrate =>
    rw [step_hostInput s _ rest hm hin rfl, hostInput, setBaudrateCall]
    exact ⟨fun hindex => by rw [if_pos (show index < baudTable.length from hindex)]; rfl,
      fun hindex => by rw [if_neg (show ¬ index < baudTable.length from Nat.not_lt.2 hindex)]; rfl⟩
  case setSmartLed =>
    rw [step_hostInput s _ rest hm hin rfl, hostInput, setSmartLedCall]
    exact ⟨fun haddr => by rw [executeCall_taken haddr (isRequestCode_smartLed variant)]; rfl,
      fun haddr => by rw [executeCall_rejected fun h => Nat.not_lt.2 haddr h.1]; rfl⟩

end Sys2Proof.Machine
end

section
/-! PROOF. O46 to O48 and O53 to O57: the frame in hand, the line, the step and reset. A frame in hand is dispatched by
its code, and a code outside the table has no instruction; everything else is one input. -/

namespace Sys2Proof.Machine

/-! ### The frame in hand -/

theorem dispatchCode_of_none {s : State} (hm : s.host.msg = none) (c : Byte)
    (f : Nibble → List Byte → State → State) : dispatchCode c f s = s := by
  rw [dispatchCode, hm]

/-- R215: a reply is decoded after it has left the hand. -/
theorem dispatchCode_of_inHand {s : State} {a : Nibble} {x : Byte} {r : List Byte}
    (hm : s.host.msg = some (.reply a x r)) (c : Byte) (f : Nibble → List Byte → State → State) :
    dispatchCode c f s = f a r (dropMsg s) := by
  rw [dispatchCode, hm]

theorem dispatchReplyCode_of_none {s : State} (hm : s.host.msg = none) (f : State → State) :
    dispatchReplyCode f s = s := by
  rw [dispatchReplyCode, hm]

theorem dispatchReplyCode_of_request {s : State} {a : Nibble} {x : Byte} {p : List Byte} {line : LineReport}
    (hm : s.host.msg = some (.request a x p line)) (f : State → State) :
    dispatchReplyCode f s = rejectParameter (dropMsg s) := by
  rw [dispatchReplyCode, hm]

theorem dispatchReplyCode_of_reply {s : State} {a : Nibble} {x : Byte} {r : List Byte}
    (hm : s.host.msg = some (.reply a x r)) (f : State → State) : dispatchReplyCode f s = f (dropMsg s) := by
  rw [dispatchReplyCode, hm]

/-- R204: only a request with one index byte has an index to check. -/
theorem execProtoSetBaudrate_of_no_request {s : State} (hm : ∀ a x p line, s.host.msg ≠ some (.request a x p line)) :
    exec .protoSetBaudrate s = .next (dispatchCode 0x01#8 (requestCodeReply 0x01#8) s) := by
  show execProtoSetBaudrate s = _
  unfold execProtoSetBaudrate
  split
  · next hreq => exact absurd hreq (hm _ _ _ _)
  · rfl

/-- The nine codes without a reply decode share one form (log entry 7). -/
theorem exec_requestOnlyCode {s : State} {i : Instr} {a : Nibble} {x : Byte} {r : List Byte}
    (hi : i ∈ [Instr.protoHello, .protoSetBaudrate, .protoSetLeds, .protoSetSmartLeds, .protoSetText, .protoSetRelay,
      .protoSetSpecificSmartLeds1, .protoSetSpecificSmartLeds2, .protoSetSpecificSmartLeds3])
    (hm : s.host.msg = some (.reply a x r)) : ∃ c, exec i s = .next (requestCodeReply c a r (dropMsg s)) := by
  have hcode : ∃ c, exec i s = .next (dispatchCode c (requestCodeReply c) s) := by
    simp only [List.mem_cons, List.not_mem_nil, or_false] at hi
    obtain rfl | rfl | hi := hi
    · exact ⟨_, rfl⟩
    · exact ⟨_, execProtoSetBaudrate_of_no_request (by simp [hm])⟩
    · obtain rfl | rfl | rfl | rfl | rfl | rfl | rfl := hi <;> exact ⟨_, rfl⟩
  obtain ⟨c, hc⟩ := hcode
  exact ⟨c, by rw [hc, dispatchCode_of_inHand hm]⟩

/-- A code with nothing in hand (log entry 6). -/
theorem exec_proto_of_no_frame {s : State} {i : Instr} (hi : (encode i).1 = .proto8) (hm : s.host.msg = none) :
    exec i s = .next s := by
  have key : ∀ c f, exec i s = .next (dispatchCode c f s) → exec i s = .next s := fun c f h => by
    rw [h, dispatchCode_of_none hm]
  have reply : ∀ f, exec i s = .next (dispatchReplyCode f s) → exec i s = .next s := fun f h => by
    rw [h, dispatchReplyCode_of_none hm]
  cases i with
  | protoSuccessTicket | protoUnknownTicket => exact reply _ rfl
  | protoSetBaudrate => exact key _ _ (execProtoSetBaudrate_of_no_request (by simp [hm]))
  | protoHello | protoSetLeds | protoSetSmartLeds | protoSetText | protoSetRelay | protoSetSpecificSmartLeds1
  | protoSetSpecificSmartLeds2 | protoSetSpecificSmartLeds3 | protoGetKeys | protoGetSliders | protoGetEncoders
  | protoGetSensors | protoGetStikyKeys | protoGetState => exact key _ _ rfl
  | _ => cases hi

/-- R213: a code outside the table is no instruction. -/
theorem decodeProto_eq_none {c : Byte}
    (hc : c.toNat ∉
      [0x00, 0x01, 0x10, 0x11, 0x12, 0x13, 0x14, 0x15, 0x16, 0x20, 0x21, 0x22, 0x23, 0x24, 0x2F, 0x80, 0x81]) :
    decodeProto c = none := by
  revert c; decide

/-- A step on a frame in hand whose code is in the table, or is not. -/
theorem step_of_frame_listed {s : State} {m : HostMsg} {i : Instr} (hm : s.host.msg = some m)
    (hi : decodeProto (msgCommand m) = some i) : step s = exec i s := by
  rw [step]
  simp only [fetch, hm, hi, takeNext]
  exact afterInstr_inHand s m hm _

theorem step_of_frame_unlisted {s : State} {m : HostMsg} (hm : s.host.msg = some m)
    (hi : decodeProto (msgCommand m) = none) : step s = .next (dispatchUnlisted s) := by
  rw [step]
  simp only [fetch, hm, hi, noInstr]

theorem dispatchUnlisted_of_request {s : State} {a : Nibble} {x : Byte} {p : List Byte} {line : LineReport}
    (hm : s.host.msg = some (.request a x p line)) : dispatchUnlisted s = rejectParameter (dropMsg s) := by
  rw [dispatchUnlisted, hm]

theorem dispatchUnlisted_of_reply {s : State} {a : Nibble} {c : Byte} {r : List Byte}
    (hm : s.host.msg = some (.reply a c r)) : dispatchUnlisted s = emitEvents [.rawReply a c r] (dropMsg s) := by
  rw [dispatchUnlisted, hm]

/-- Settles O46: the ticket's event comes first, then the notices drawn for its code. -/
theorem ticketRepliesSurface : Obligations.TicketRepliesSurface := by
  intro s a x r i e hrow hm
  have hcode : ∃ c, exec i s = .next (dispatchReplyCode (ticketReply c e) s) := by
    simp only [List.mem_cons, List.not_mem_nil, or_false, Prod.mk.injEq] at hrow
    obtain ⟨rfl, rfl⟩ | ⟨rfl, rfl⟩ := hrow <;> exact ⟨_, rfl⟩
  obtain ⟨c, hc⟩ := hcode
  refine ⟨Config.notices s.host.draws (.ticket c), ?_⟩
  rw [hc, dispatchReplyCode_of_reply hm, List.append_cons]
  rfl

/-- Settles O47: the codes that share a form are one lemma each. -/
theorem codesWithoutAReplyDecode : Obligations.CodesWithoutAReplyDecode := by
  refine ⟨fun s i a x r hi hm => ?reply, fun s i a x p line hi hm => ?ticket, fun s a c p line hm hc => ?unlisted,
    fun s i hi hm => exec_proto_of_no_frame hi hm⟩
  case reply =>
    obtain ⟨c, hc⟩ := exec_requestOnlyCode hi hm
    exact ⟨Config.requestCodeReply s.host.draws c a r, by rw [hc]; rfl⟩
  case ticket =>
    have hcode : ∃ f, exec i s = .next (dispatchReplyCode f s) := by
      simp only [List.mem_cons, List.not_mem_nil, or_false] at hi
      obtain rfl | rfl := hi <;> exact ⟨_, rfl⟩
    obtain ⟨f, hf⟩ := hcode
    rw [hf, dispatchReplyCode_of_request hm]
    rfl
  case unlisted =>
    rw [step_of_frame_unlisted hm (decodeProto_eq_none hc), dispatchUnlisted_of_request hm]
    rfl

/-- Settles O48: a reply with a code outside the table leaves the hand as it came. -/
theorem otherCodesAreRawReplies : Obligations.OtherCodesAreRawReplies := by
  intro s a c r hm hc
  rw [step_of_frame_unlisted hm (decodeProto_eq_none hc), dispatchUnlisted_of_reply hm]
  rfl

/-! ### The line (R261, R275) -/

theorem cancelPending_of_pending {s : State} {q : Pending} (h : s.host.pending = some q) :
    cancelPending s = emitEvents [.cancelled] (setHost { s.host with pending := none } s) := by
  rw [cancelPending, h]

theorem closeOp_of_opened {s : State} (h : s.host.conn = .opened) :
    closeOp s = drawNotices .lineClosed (setHost { (cancelPending s).host with conn := .closed }
      (rxFlushOp (encAbortOp (cancelPending s)))) := by
  rw [closeOp, h]
  rfl

theorem openCallOp_of_closed {s : State} (h : s.host.conn = .closed) :
    openCallOp s = setHost { s.host with conn := .opening } s := by
  rw [openCallOp, h]

theorem openAnswerOp_of_opening {s : State} (h : s.host.conn = .opening) (r : OpenResult) :
    openAnswerOp r s = answerOpen r s := by
  rw [openAnswerOp, h]

/-- Settles O53: the exchange is cancelled first, then the block is cleared and the line closed. -/
theorem closeCancelsTheExchange : Obligations.CloseCancelsTheExchange := by
  intro s rest q hm hin hconn hpend
  refine ⟨Config.notices s.host.draws .lineClosed, ?_⟩
  rw [step_hostInput s _ rest hm hin rfl, hostInput, closeOp_of_opened (s := setInputs rest s) hconn,
    cancelPending_of_pending (s := setInputs rest s) hpend]
  rfl

/-- Settles O54: the call is heard in Closed, the answer in Opening. -/
theorem openFollowsTheLinesAnswer : Obligations.OpenFollowsTheLinesAnswer := by
  intro s rest hm
  refine ⟨fun hin hconn => ?call, fun hin hconn => ?granted, fun answer kind hrow hin hconn => ?refused⟩
  case call =>
    rw [step_hostInput s _ rest hm hin rfl, hostInput, openCallOp_of_closed (s := setInputs rest s) hconn]
    rfl
  case granted =>
    rw [step_hostInput s _ rest hm hin rfl, hostInput, openAnswerOp_of_opening (s := setInputs rest s) hconn]
    exact ⟨_, Config.notices s.host.draws .lineOpened, rfl, rfl, rfl⟩
  case refused =>
    rw [step_hostInput s _ rest hm hin rfl, hostInput, openAnswerOp_of_opening (s := setInputs rest s) hconn]
    simp only [List.mem_cons, List.not_mem_nil, or_false, Prod.mk.injEq] at hrow
    obtain ⟨rfl, rfl⟩ | ⟨rfl, rfl⟩ := hrow <;> rfl

/-! ### The step and reset -/

/-- R22, R50: an instruction first at the inputs runs without it, and then its TX bytes are written. -/
theorem step_of_input {s : State} {inp : Input} {rest : List Input} {i : Instr} {t : State} (hm : s.host.msg = none)
    (hin : s.inputs = inp :: rest) (hi : inputInstr inp = some i) (hexec : exec i (setInputs rest s) = .next t) :
    step s = .next (writeTx s.tx.length t) := by
  rw [step, fetch_input s inp rest hm hin, hi]
  simp only [takeNext, hm, hin, List.tail_cons, hexec]
  exact afterInstr_next s t hm

/-- R249: with nothing in hand and nothing at the inputs the block waits. -/
theorem step_of_nothing {s : State} (hm : s.host.msg = none) (hin : s.inputs = []) : step s = .next s := by
  rw [step]
  simp only [fetch, hm, hin, noInstr]

theorem rxPushOp_tx (b : Byte) (s : State) : (rxPushOp b s).tx = s.tx := by
  obtain ⟨-, e⟩ | ⟨-, e⟩ := rxPushOp_cases b s <;> rw [e]

/-- Settles O55: what the step fetches is what the word, the byte or the code decodes to. -/
theorem stepRunsTheDecodedInstruction : Obligations.StepRunsTheDecodedInstruction := by
  intro s i
  refine ⟨fun cw rest t hm hin hdec hexec => ?word, fun b rest hm hin hdec => ?wire, fun m hm hdec => ?frame,
    fun hm hin => ?nothing⟩
  case word =>
    obtain rfl : decodeCmd cw = i := Except.ok.inj ((decode_cw12 cw).symm.trans hdec)
    rw [step_of_input hm hin rfl hexec, writeTx_eq]
    rfl
  case wire =>
    obtain rfl : decodeWire b = i := Except.ok.inj ((decode_wire8 b).symm.trans hdec)
    have htx : (rxPushOp b (setInputs rest s)).tx = s.tx := rxPushOp_tx b _
    rw [step_of_input hm hin rfl (exec_wire b _), writeTx_none s _ htx]
    exact (exec_wire b _).symm
  case frame => exact step_of_frame_listed hm ((decode_proto8 _ i).1 hdec)
  case nothing => exact step_of_nothing hm hin

/-- Settles O56: the reset input is taken off the queue and clears the block. -/
theorem resetInputClearsTheBlock : Obligations.ResetInputClearsTheBlock := by
  intro s rest hm hin
  rw [step_hostInput s _ rest hm hin rfl]
  rfl

/-- Settles O57: a closed fact about one state. -/
theorem resetState : Obligations.ResetState :=
  ⟨rfl, rfl, rfl, rfl, rfl, rfl, rfl, rfl, trivial, trivial, trivial⟩

end Sys2Proof.Machine
end

section
/-! PROOF. O49 to O51: the poll. Its bytes are pushed first; then the drain is dry, over, or goes on behind garbage, and
each of the three is one lemma on `pollDrain`. -/

namespace Sys2Proof.Machine

/-! ### The poll after its bytes -/

/-- The program of pushes is the first half of the poll's step. -/
theorem step_poll {s u : State} {answers : List (Option Response)} {rest : List Input} {bytes : List Byte} {ms : Nat}
    (hm : s.host.msg = none) (hin : s.inputs = .poll bytes ms :: rest)
    (hrun : runOps (rxPushN bytes) { s with inputs := rest } = .next (u, answers)) :
    u = pushAll bytes (setInputs rest s) ∧ step s = .next (pollOp bytes ms (setInputs rest s)) := by
  obtain ⟨answers', hpush⟩ := runOps_rxPushN bytes (setInputs rest s)
  have hsame : (pushAll bytes (setInputs rest s), answers') = (u, answers) :=
    Host.Outcome.next.inj (hpush.symm.trans hrun)
  exact ⟨(congrArg Prod.fst hsame).symm, step_hostInput s _ rest hm hin rfl⟩

/-- A poll without bytes in front of the inputs. -/
theorem step_poll_nil {s : State} (hm : s.host.msg = none) (ms : Nat) :
    step (setInputs (.poll [] ms :: s.inputs) s) = .next (pollOp [] ms s) :=
  step_hostInput (setInputs (.poll [] ms :: s.inputs) s) _ s.inputs hm rfl rfl

theorem pollOp_of_no_exchange {s : State} (h : s.host.pending = none) (bytes : List Byte) (ms : Nat) :
    pollOp bytes ms s = reactToFull (pushAll bytes s) := by
  rw [pollOp, h]

/-- How a poll with an exchange pending ends, by what the drain gives. -/
def pollEnd (q : Pending) (ms : Nat) (r : State × Bool) : State :=
  if r.2 then r.1 else checkTimeout q ms (reactToFull r.1)

theorem pollOp_of_exchange {s t : State} {q : Pending} (h : s.host.pending = some q) {bytes : List Byte}
    (ht : pushAll bytes s = t) (ms : Nat) :
    pollOp bytes ms s = pollEnd q ms (pollDrain (t.rxBuf.length + 1) t) := by
  subst ht
  rw [pollOp, h, pollEnd]
  dsimp only
  split
  · next e => rw [e]; rfl
  · next e => rw [e]; rfl

/-! ### The ends of the drain (R268) -/

/-- R162: `NeedMoreData` leaves the buffer. -/
theorem parseOp_of_needMoreData {s : State} (h : parseOutcome s = .needMoreData) :
    parseOp s = { s with resp := some ⟨.ok, 0x00#8, some .needMoreData⟩ } := by
  rw [parseOp_eq, h, (parseBuffer_shorter _ _).1 h]
  rfl

theorem pollDrain_dry {s : State} (h : parseOutcome s = .needMoreData) (n : Nat) :
    pollDrain (n + 1) s = ({ s with resp := some ⟨.ok, 0x00#8, some .needMoreData⟩ }, false) := by
  rw [pollDrain, h, onOutcome, parseOp_of_needMoreData h]

/-- R155: garbage is the head of the buffer. -/
theorem parseBuffer_skipped {policy : CksumPolicy} {buf g : List Byte}
    (h : (parseBuffer policy buf).1 = .skipped g) : buf = g ++ (parseBuffer policy buf).2 ∧ g ≠ [] := by
  obtain hs | ⟨g', b, rest, rfl, hne, hg, hb⟩ | ⟨b, rest, rfl, hb, hr⟩ | ⟨b, m, e, rest, rfl, hb, hm, he⟩ :=
    parseBuffer_cases buf
  · rw [parseBuffer_noStart policy buf hs] at h
    cases h
  · rw [parseBuffer_garbage policy g' b rest hne hg hb] at h ⊢
    obtain rfl : g' = g := ParseOutcome.skipped.inj h
    exact ⟨rfl, hne⟩
  · rw [parseBuffer_incomplete policy b rest hb hr] at h
    cases h
  · rw [parseBuffer_candidate policy b m e rest hb hm he] at h
    obtain ⟨a, c, p, ho⟩ | ho | ho | ⟨-, ho⟩ := decodeFrame_cases policy (b :: (m ++ [e])) <;> rw [ho] at h <;> cases h

/-! ### The reaction to `FULL` and the timeout -/

theorem reactToFull_eq (s : State) : reactToFull s =
    if s.stRxOvf = true ∧ s.cfg.rxCap = .bytes s.rxBuf.length ∧ parseOutcome s = .needMoreData
    then { s with rxBuf := [], resp := some ⟨.ok, 0x00#8, none⟩ } else s := by
  unfold reactToFull
  simp only [rxFull_iff]
  rfl

/-- R288: after a PARSE that found nothing the reaction asks for the dropped byte and the bound only. -/
theorem reactToFull_of_dry {s : State} (h : parseOutcome s = .needMoreData) :
    reactToFull { s with resp := some ⟨.ok, 0x00#8, some .needMoreData⟩ } = { s with
      rxBuf := if s.stRxOvf = true ∧ s.cfg.rxCap = .bytes s.rxBuf.length then [] else s.rxBuf
      resp := some ⟨.ok, 0x00#8,
        if s.stRxOvf = true ∧ s.cfg.rxCap = .bytes s.rxBuf.length then none else some .needMoreData⟩ } := by
  have hdry : parseOutcome { s with resp := some ⟨.ok, 0x00#8, some .needMoreData⟩ } = .needMoreData := h
  rw [reactToFull_eq]
  simp only [hdry, and_true]
  split <;> rfl

theorem checkTimeout_eq (q : Pending) (ms : Nat) (s : State) : checkTimeout q ms s = setHost
    (if 350 ≤ q.elapsedMs + ms then
      { s.host with pending := none, events := s.host.events ++ [.timeout q.address q.command q.payload] }
    else { s.host with pending := some { q with elapsedMs := q.elapsedMs + ms } }) s := by
  unfold checkTimeout requestTimeoutMs
  split <;> rfl

/-! ### The statements -/

/-- Settles O49: nothing is parsed without an exchange; with one the drain is dry at once. -/
theorem pollWithoutTerminalOutcome : Obligations.PollWithoutTerminalOutcome := by
  intro s u answers rest bytes ms hm hin hrun
  obtain ⟨hu, hstep⟩ := step_poll hm hin hrun
  have hhost : u.host = s.host := by rw [hu, pushAll_host, setInputs_host]
  rw [hstep]
  refine ⟨fun hpend => ?idle, fun q hpend hdry => ?pending⟩
  case idle => rw [pollOp_of_no_exchange (s := setInputs rest s) hpend, ← hu, reactToFull_eq]
  case pending =>
    rw [pollOp_of_exchange (s := setInputs rest s) hpend hu.symm, pollDrain_dry hdry, pollEnd, if_neg (by simp),
      reactToFull_of_dry hdry, checkTimeout_eq, ← hhost]
    rfl

/-- Settles O50: a terminal outcome is the end of the drain and of the poll. -/
theorem terminalOutcomeEndsTheExchange : Obligations.TerminalOutcomeEndsTheExchange := by
  intro s u answers rest bytes ms q o hm hin hpend _ hrun ho hmore hskip
  obtain ⟨hu, hstep⟩ := step_poll hm hin hrun
  have hhost : u.host = s.host := by rw [hu, pushAll_host, setInputs_host]
  have hterm : pollDrain (u.rxBuf.length + 1) u = ((onOutcome o (parseOp u)).1, true) := by
    rw [pollDrain, ho]
    cases o with
    | needMoreData => exact absurd rfl hmore
    | skipped g => exact absurd rfl (hskip g)
    | success | sizeError | tagError | checksumError => rfl
  refine ⟨(onOutcome o (parseOp u)).1.host, ?_, ?_⟩
  · rw [hstep, pollOp_of_exchange (s := setInputs rest s) hpend hu.symm, hterm, pollEnd, if_pos rfl]
    obtain ⟨h, hh⟩ := onOutcome_host o (parseOp u)
    rw [hh, parseOp_eq, ho]
    rfl
  · rw [← hhost]
    cases o with
    | needMoreData => exact absurd rfl hmore
    | skipped g => exact absurd rfl (hskip g)
    | success | sizeError | tagError | checksumError => rfl

/-- R288: after garbage was taken off a bounded buffer there is room, so nothing is flushed. -/
theorem reactToFull_of_room {s : State} (h : ∀ n, s.cfg.rxCap = .bytes n → s.rxBuf.length < n) : reactToFull s = s := by
  rw [reactToFull_eq, if_neg]
  rintro ⟨-, hfull, -⟩
  exact absurd (h _ hfull) (lt_irrefl _)

theorem rxBounded_iff (s : State) : RxBounded s ↔ ∀ n, s.cfg.rxCap = .bytes n → s.rxBuf.length ≤ n := by
  unfold RxBounded
  cases s.cfg.rxCap <;> simp

theorem pushAll_rxBounded {bytes : List Byte} {s : State} (h : RxBounded s) : RxBounded (pushAll bytes s) := by
  obtain ⟨buf, ovf, r, e, -, hb⟩ := pushAll_only bytes s
  rw [e]
  exact hb h

/-- Settles O51: the drain goes on as the drain of a poll that has no bytes. -/
theorem skippedKeepsTheExchange : Obligations.SkippedKeepsTheExchange := by
  intro s u answers rest bytes ms q g hm hin hpend hrun hskip
  obtain ⟨hu, hstep⟩ := step_poll hm hin hrun
  have hhost : u.host = s.host := by rw [hu, pushAll_host, setInputs_host]
  have hinputs : u.inputs = rest := by rw [hu, pushAll_inputs, setInputs_inputs]
  rw [hstep, pollOp_of_exchange (s := setInputs rest s) hpend hu.symm, pollDrain_skipped u g hskip]
  refine ⟨?again, fun hdry hms => ?pending⟩
  case again =>
    have hmsg : (emitEvents [.parseError .frameSkipped g] (parseOp u)).host.msg = none := by rw [← hm, ← hhost]; rfl
    have hpend' : (emitEvents [.parseError .frameSkipped g] (parseOp u)).host.pending = some q := by
      rw [← hpend, ← hhost]; rfl
    have hnext := step_poll_nil hmsg ms
    rw [pollOp_of_exchange hpend' (bytes := []) rfl] at hnext
    refine hnext.symm.trans (congrArg step ?_)
    rw [parseOp_eq, hskip, ← hhost, ← hinputs]
    rfl
  case pending =>
    have hdry' : parseOutcome (emitEvents [.parseError .frameSkipped g] (parseOp u)) = .needMoreData := hdry
    rw [pollDrain_dry hdry', pollEnd, if_neg (by simp), checkTimeout_eq, if_neg (Nat.not_le.2 hms)]
    refine ⟨_, rfl, rfl, ?_, ?_, fun hbound => ?_⟩
    · rw [setHost_host, reactToFull_host, ← hhost]; rfl
    · rw [setHost_host, reactToFull_host, ← hm, ← hhost]; rfl
    · obtain ⟨hsplit, hne⟩ := parseBuffer_skipped hskip
      have hlen := congrArg List.length hsplit
      rw [List.length_append] at hlen
      have hpos := List.length_pos_iff.2 hne
      have hu' : RxBounded u := hu ▸ pushAll_rxBounded hbound
      rw [rxBounded_iff] at hu'
      rw [reactToFull_of_room ?_]
      · exact hsplit
      · intro n hn
        have := hu' n hn
        show (parseBuffer u.cfg.cksumPolicy u.rxBuf).2.length < n
        omega

end Sys2Proof.Machine
end

section
/-! PROOF. O30, O32, O58 and O59: what every step keeps of the block. The host drives the block through its own
operations, so what every operation and every write of the host's record keep, every step keeps; each statement is
then a fact about single operations. -/

namespace Sys2Proof.Machine

/-! ### What the operations keep, the step keeps -/

/-- Kept by the host's own record, by the queue and by every operation but STAT_CLR. -/
structure BlockKept (P : State → Prop) : Prop where
  host : ∀ h s, P s → P (setHost h s)
  inputs : ∀ q s, P s → P (setInputs q s)
  op : ∀ i s t, (∀ x, i ≠ .statClr x) → CmdStep s i t → P s → P t

namespace BlockKept

variable {P : State → Prop} (hP : BlockKept P)
include hP

theorem rxPush {s : State} (b : Byte) (h : P s) : P (rxPushOp b s) := hP.op _ s _ (by simp) (.rxPush b) h

theorem parse {s : State} (h : P s) : P (parseOp s) := hP.op _ s _ (by simp) (.parse 0x00#8) h

theorem rxFlush {s : State} (h : P s) : P (rxFlushOp s) := hP.op _ s _ (by simp) (.rxFlush 0x00#8) h

theorem encAbort {s : State} (h : P s) : P (encAbortOp s) := hP.op _ s _ (by simp) (.encAbort 0x00#8) h

theorem pushAll {s : State} (bytes : List Byte) (h : P s) : P (pushAll bytes s) := by
  induction bytes generalizing s with
  | nil => exact h
  | cons b bytes ih => exact ih (hP.rxPush b h)

theorem encDataFold {s : State} (p : List Byte) (h : P s) : P (p.foldl (fun t d => encDataOp d t) s) := by
  induction p generalizing s with
  | nil => exact h
  | cons d p ih => exact ih (hP.op _ s _ (by simp) (.encData d) h)

/-- R77: a request is encoded by encoder operations alone. -/
theorem encodeRequest {s : State} (a : Nibble) (c : Byte) (p : List Byte) (h : P s) : P (encodeRequest a c p s) := by
  have hstart := hP.op _ s _ (by simp) (.encStart (a.setWidth 8)) h
  have hcmd := hP.op _ _ _ (by simp) (.encCmd c) hstart
  exact hP.op _ _ _ (by simp) (.encEnd 0x00#8) (hP.encDataFold p hcmd)

theorem hostRequest {s : State} (c : Byte) (a : Nibble) (p : List Byte) (line : LineReport) (h : P s) :
    P (hostRequest c a p line s) := by
  obtain ⟨k, e | ⟨g, e⟩⟩ := hostRequest_cases c a p line s <;> rw [e]
  · exact hP.host k s h
  · exact hP.host k _ (hP.encodeRequest a c p (hP.host g s h))

theorem closeOp {s : State} (h : P s) : P (closeOp s) := by
  obtain ⟨k, e | e⟩ := closeOp_cases s <;> rw [e]
  · exact hP.host k s h
  · exact hP.host k _ (hP.rxFlush (hP.encAbort h))

theorem pollDrain {s : State} (fuel : Nat) (h : P s) : P (pollDrain fuel s).1 := by
  induction fuel generalizing s with
  | zero => exact h
  | succ n ih =>
    obtain ⟨k, hk⟩ := onOutcome_host (parseOutcome s) (parseOp s)
    have hnext : P (onOutcome (parseOutcome s) (parseOp s)).1 := hk ▸ hP.host k _ (hP.parse h)
    unfold Machine.pollDrain
    split
    · next e => rw [e] at hnext; exact ih hnext
    · next e => rw [e] at hnext; exact hnext
    · next e => rw [e] at hnext; exact hnext

theorem reactToFull {s : State} (h : P s) : P (reactToFull s) := by
  obtain ⟨-, -, -, e⟩ | ⟨-, e⟩ := reactToFull_cases s <;> rw [e]
  · exact hP.rxFlush h
  · exact h

theorem pollOp {s : State} (bytes : List Byte) (ms : Nat) (h : P s) : P (pollOp bytes ms s) := by
  have hpush := hP.pushAll bytes h
  cases hpend : s.host.pending with
  | none =>
    rw [pollOp_of_no_exchange hpend]
    exact hP.reactToFull hpush
  | some q =>
    rw [pollOp_of_exchange hpend rfl, pollEnd]
    have hdrain := hP.pollDrain ((Machine.pushAll bytes s).rxBuf.length + 1) hpush
    split
    · exact hdrain
    · rw [checkTimeout_eq]
      exact hP.host _ _ (hP.reactToFull hdrain)

/-- A step keeps what the operations keep, as long as the STAT_CLR or the reset it may run keep it too. -/
theorem step {s t : State} (hstep : step s = .next t) (h : P s)
    (hclr : ∀ x u, fetch s = some (.statClr x) → P u → P (respond .ok 0x00#8 (clearSticky (stickyOperand x) u)))
    (hreset : s.host.msg = none → s.inputs.head? = some .reset → ∀ u, P u → P (blockReset u)) : P t := by
  obtain ⟨cw, rest, u, -, -, hfetch, hexec, rfl⟩ | ⟨b, rest, -, -, rfl⟩ | ⟨k, q, rfl⟩ |
    ⟨c, d, a, p, line, -, rfl⟩ | ⟨rest, hm, hin, rfl⟩ | ⟨rest, -, -, rfl⟩ | ⟨bytes, ms, rest, -, -, rfl⟩ :=
    step_cases s t hstep
  · rw [writeTx_eq]
    apply hP.host
    have hcmd := cmdStep_of_exec (decodeCmd_format cw) hexec
    by_cases hx : ∃ x, decodeCmd cw = .statClr x
    · obtain ⟨x, hx⟩ := hx
      rw [hx, exec_statClr] at hexec
      rw [hx] at hfetch
      exact Host.Outcome.next.inj hexec ▸ hclr x _ hfetch (hP.inputs rest s h)
    · exact hP.op _ _ _ (fun x hi => hx ⟨x, hi⟩) hcmd (hP.inputs rest s h)
  · exact hP.rxPush b (hP.inputs rest s h)
  · exact hP.host k _ (hP.inputs q s h)
  · exact hP.hostRequest c a p line h
  · exact hreset hm (by rw [hin]; rfl) _ (hP.inputs rest s h)
  · exact hP.closeOp (hP.inputs rest s h)
  · exact hP.pollOp bytes ms (hP.inputs rest s h)

end BlockKept

/-! ### The configuration (R29) and totality (R240) -/

theorem CmdStep.cfg_eq {i : Instr} {s t : State} (h : CmdStep s i t) : t.cfg = s.cfg := by
  cases h with
  | encStart x => exact (encStartOp_only x s).cfg_eq
  | encCmd x => exact (encCmdOp_only x s).cfg_eq
  | encData x => exact (encDataOp_only x s).cfg_eq
  | encEnd x => exact (encEndOp_only s).cfg_eq
  | rxPush b => obtain ⟨-, e⟩ | ⟨-, e⟩ := rxPushOp_cases b s <;> rw [e]
  | encAbort | parse | rxFlush | statClr | illegal | answer => rfl

theorem blockKept_cfg (c : Config) : BlockKept (fun s => s.cfg = c) where
  host _ _ h := h
  inputs _ _ h := h
  op _ _ _ _ hcmd h := hcmd.cfg_eq.trans h

/-- R31, R240: every instruction has a next state, whatever its format. -/
theorem exec_next (i : Instr) (s : State) : ∃ t, exec i s = .next t ∧ t.cfg = s.cfg := by
  cases hfmt : (encode i).1 with
  | cw12 =>
    obtain ⟨t, hexec, hcmd⟩ := exec_cmd i s hfmt
    exact ⟨t, hexec, hcmd.cfg_eq⟩
  | wire8 =>
    obtain ⟨b, rfl⟩ := exists_decodeWire hfmt
    exact ⟨_, exec_wire b s, (blockKept_cfg s.cfg).rxPush b rfl⟩
  | proto8 =>
    obtain ⟨h, e⟩ | ⟨c, d, a, p, line, -, e⟩ := exec_proto_cases i s hfmt
    · exact ⟨_, e, rfl⟩
    · exact ⟨_, e, (blockKept_cfg s.cfg).hostRequest c a p line rfl⟩

theorem step_next (s : State) : ∃ t, step s = .next t := by
  cases hfetch : fetch s with
  | none => exact ⟨_, by rw [step, hfetch]⟩
  | some i =>
    obtain ⟨u, hexec, -⟩ := exec_next i (takeNext s)
    rw [step, hfetch]
    simp only [hexec]
    cases hm : s.host.msg with
    | none => exact ⟨_, afterInstr_next s u hm⟩
    | some m => exact ⟨_, afterInstr_inHand s m hm _⟩

/-- Settles O32: every instruction has a next state, and no operation writes the configuration. -/
theorem noStepStopsOrReconfigures : Obligations.NoStepStopsOrReconfigures := by
  intro s
  obtain ⟨t, hstep⟩ := step_next s
  refine ⟨⟨t, hstep, ?_⟩, fun i => exec_next i s⟩
  exact (blockKept_cfg s.cfg).step hstep rfl (fun _ _ _ h => h) (fun _ _ _ h => h)

/-! ### The sticky bits (R26) -/

/-- A set bit that an operation keeps, sets again, or clears by STAT_CLR. -/
theorem bit_kept {i : Instr} {before after : Bool} {Q : Prop} {R : Byte → Prop}
    (h : after = before ∨ (after = true ∧ Q) ∨ ∃ x, i = .statClr x ∧ R x) (hne : ∀ x, i ≠ .statClr x)
    (hb : before = true) : after = true := by
  obtain hkept | ⟨hset, -⟩ | ⟨x, hx, -⟩ := h
  · exact hkept.trans hb
  · exact hset
  · exact absurd hx (hne x)

theorem blockKept_stRxOvf : BlockKept (fun s => s.stRxOvf = true) where
  host _ _ h := h
  inputs _ _ h := h
  op _ _ _ hne hcmd h := bit_kept hcmd.stRxOvf_cases hne h

theorem blockKept_stEncSeq : BlockKept (fun s => s.stEncSeq = true) where
  host _ _ h := h
  inputs _ _ h := h
  op _ _ _ hne hcmd h := bit_kept hcmd.stEncSeq_cases hne h

theorem blockKept_stOpIll : BlockKept (fun s => s.stOpIll = true) where
  host _ _ h := h
  inputs _ _ h := h
  op _ _ _ hne hcmd h := bit_kept hcmd.stOpIll_cases hne h

/-- A step on a STAT_CLR clears the bits of its mask (R183). -/
theorem step_statClr {s t : State} {x : Byte} (hfetch : fetch s = some (.statClr x)) (hstep : step s = .next t) :
    t.stRxOvf = (if x.getLsbD 0 then false else s.stRxOvf) ∧
    t.stEncSeq = (if x.getLsbD 1 then false else s.stEncSeq) ∧
    t.stOpIll = if x.getLsbD 2 then false else s.stOpIll := by
  have hexec := exec_statClr x (takeNext s)
  rw [clearSticky_stickyOperand] at hexec
  obtain ⟨hovf, hseq, hill⟩ : (takeNext s).stRxOvf = s.stRxOvf ∧ (takeNext s).stEncSeq = s.stEncSeq ∧
      (takeNext s).stOpIll = s.stOpIll := by
    unfold takeNext
    split <;> exact ⟨rfl, rfl, rfl⟩
  rw [hovf, hseq, hill] at hexec
  rw [step, hfetch] at hstep
  simp only [hexec] at hstep
  cases hm : s.host.msg with
  | none =>
    rw [afterInstr_next s _ hm, writeTx_eq] at hstep
    rw [← Host.Outcome.next.inj hstep]
    exact ⟨rfl, rfl, rfl⟩
  | some m =>
    rw [afterInstr_inHand s m hm] at hstep
    rw [← Host.Outcome.next.inj hstep]
    exact ⟨rfl, rfl, rfl⟩

/-- A bit that an unset mask bit would have kept. -/
theorem mask_of_cleared {m before after : Bool} (h : after = if m then false else before) (hb : before = true)
    (ha : after = false) : m = true := by
  cases m
  · exact absurd (ha.symm.trans (h.trans hb)) Bool.false_ne_true
  · rfl

/-- Settles O30: the step runs STAT_CLR, or takes the reset, or its operations keep every bit that is set. -/
theorem stickyBitsClearedOnlyByName : Obligations.StickyBitsClearedOnlyByName := by
  intro s t hstep
  by_cases hclr : ∃ x, fetch s = some (.statClr x)
  · obtain ⟨x, hfetch⟩ := hclr
    obtain ⟨hovf, hseq, hill⟩ := step_statClr hfetch hstep
    exact .inl ⟨x, hfetch, mask_of_cleared hovf, mask_of_cleared hseq, mask_of_cleared hill⟩
  by_cases hreset : s.host.msg = none ∧ s.inputs.head? = some .reset
  · exact .inr (.inl hreset)
  have keeps : ∀ {P : State → Prop}, BlockKept P → P s → P t := fun hP h =>
    hP.step hstep h (fun x _ hfetch => absurd ⟨x, hfetch⟩ hclr) (fun hm hin => absurd ⟨hm, hin⟩ hreset)
  exact .inr (.inr ⟨keeps blockKept_stRxOvf, keeps blockKept_stEncSeq, keeps blockKept_stOpIll⟩)

/-! ### The receive buffer (R25) -/

theorem RxBounded.of_le {s t : State} (h : RxBounded s) (hcfg : t.cfg = s.cfg)
    (hlen : t.rxBuf.length ≤ s.rxBuf.length) : RxBounded t := by
  rw [rxBounded_iff] at h ⊢
  intro n hn
  exact hlen.trans (h n (hcfg ▸ hn))

theorem EncoderOnly.rxBounded {s t : State} (ho : EncoderOnly s t) (h : RxBounded s) : RxBounded t :=
  h.of_le ho.cfg_eq (by rw [ho.rxBuf_eq])

/-- An operation adds to the buffer by RX_PUSH only. -/
theorem CmdStep.rxBounded {i : Instr} {s t : State} (hcmd : CmdStep s i t) (h : RxBounded s) : RxBounded t := by
  cases hcmd with
  | encStart x => exact (encStartOp_only x s).rxBounded h
  | encCmd x => exact (encCmdOp_only x s).rxBounded h
  | encData x => exact (encDataOp_only x s).rxBounded h
  | encEnd x => exact (encEndOp_only s).rxBounded h
  | encAbort x => exact (encAbortOp_only s).rxBounded h
  | rxPush b => exact pushAll_rxBounded (bytes := [b]) h
  | parse x =>
    obtain ⟨taken, hsplit⟩ := parseBuffer_suffix s.cfg.cksumPolicy s.rxBuf
    have hlen := congrArg List.length hsplit
    rw [List.length_append] at hlen
    exact h.of_le rfl ((Nat.le_add_left _ _).trans_eq hlen.symm)
  | rxFlush x => exact h.of_le rfl (Nat.zero_le _)
  | statClr | illegal | answer => exact h

theorem blockKept_rxBounded : BlockKept RxBounded where
  host _ _ h := h
  inputs _ _ h := h
  op _ _ _ _ hcmd h := hcmd.rxBounded h

/-- Settles O58: the operations keep the bound, STAT_CLR leaves the buffer and reset empties it. -/
theorem stepKeepsTheBufferBounded : Obligations.StepKeepsTheBufferBounded := by
  intro s t hs hstep
  exact blockKept_rxBounded.step hstep hs (fun x u _ h => h) (fun _ _ u h => h.of_le rfl (Nat.zero_le _))

/-! ### The accumulator (R24) -/

/-- The invariant as a property of the encoder alone. -/
def EncoderSummed (e : EncPhase × Byte × List Byte) : Prop :=
  match e.1 with
  | .idle => True
  | .needCmd => ∃ sent a, e.2.2 = sent ++ [startByte a] ∧ e.2.1 = sum8 [startByte a]
  | .body => ∃ sent a c p, e.2.2 = sent ++ frameBody a c p ∧ e.2.1 = sum8 (frameBody a c p)

theorem frameSummed_iff (s : State) : FrameSummed s ↔ EncoderSummed (s.encPhase, s.encAcc, s.tx) := Iff.rfl

/-- The body of a frame without payload (R65). -/
theorem frameBody_nil (a : Nibble) (c : Byte) : frameBody a c [] = [startByte a] ++ tagPair c .cmd := rfl

/-- Each operation that is accepted adds to the sum what it emits; the others leave the encoder. -/
theorem encoderSummed_encoderAfter (i : Instr) (p : EncPhase) (acc : Byte) (tx : List Byte)
    (h : EncoderSummed (p, acc, tx)) : EncoderSummed (encoderAfter i p acc tx) := by
  cases i with
  | encStart x =>
    cases p with
    | idle => exact ⟨tx, addressOperand x, rfl, (BitVec.add_zero _).symm⟩
    | needCmd | body => exact h
  | encCmd c =>
    cases p with
    | needCmd =>
      obtain ⟨sent, a, htx, hacc⟩ := h
      obtain rfl : tx = sent ++ [startByte a] := htx
      obtain rfl : acc = sum8 [startByte a] := hacc
      refine ⟨sent, a, c, [], ?_, ?_⟩
      · show sent ++ [startByte a] ++ tagPair c .cmd = _
        rw [frameBody_nil, List.append_assoc]
      · show sum8 [startByte a] + sum8 (tagPair c .cmd) = _
        rw [frameBody_nil, sum8_append]
    | idle | body => exact h
  | encData d =>
    cases p with
    | body =>
      obtain ⟨sent, a, c, pay, htx, hacc⟩ := h
      obtain rfl : tx = sent ++ frameBody a c pay := htx
      obtain rfl : acc = sum8 (frameBody a c pay) := hacc
      refine ⟨sent, a, c, pay ++ [d], ?_, ?_⟩
      · rw [frameBody_snoc, ← List.append_assoc]
        rfl
      · rw [frameBody_snoc, sum8_append]
        rfl
    | idle | needCmd => exact h
  | encEnd x =>
    cases p with
    | body => trivial
    | idle | needCmd => exact h
  | encAbort x => trivial
  | _ => exact h

theorem CmdStep.frameSummed {i : Instr} {s t : State} (hcmd : CmdStep s i t) (h : FrameSummed s) : FrameSummed t := by
  rw [frameSummed_iff, hcmd.encoder_eq]
  exact encoderSummed_encoderAfter i _ _ _ h

theorem blockKept_frameSummed : BlockKept FrameSummed where
  host _ _ h := h
  inputs _ _ h := h
  op _ _ _ _ hcmd h := hcmd.frameSummed h

/-- Settles O59: the operations keep the sum, and reset goes to IDLE. -/
theorem stepKeepsTheAccumulator : Obligations.StepKeepsTheAccumulator := by
  intro s t hs hstep
  exact blockKept_frameSummed.step hstep hs (fun x u _ h => h) (fun _ _ u _ => trivial)

end Sys2Proof.Machine
end

section
/-! PROOF. O52 and O60: the pending exchange. A request, close and a poll touch it, and nothing else does; what each of
the three does to the pending request and to the connection is one lemma, and both statements are read off. -/

namespace Sys2Proof.Machine

/-! ### What leaves the exchange alone -/

/-- The pending request stays, and an open line stays open. -/
def KeepsExchange (h g : HostState) : Prop := g.pending = h.pending ∧ (h.conn = .opened → g.conn = .opened)

theorem KeepsExchange.refl (h : HostState) : KeepsExchange h h := ⟨rfl, id⟩

/-- No operation of the command port touches the host's record. -/
theorem CmdStep.host_eq {i : Instr} {s t : State} (h : CmdStep s i t) : t.host = s.host := by
  cases h with
  | encStart x => exact (encStartOp_only x s).host_eq
  | encCmd x => exact (encCmdOp_only x s).host_eq
  | encData x => exact (encDataOp_only x s).host_eq
  | encEnd x => exact (encEndOp_only s).host_eq
  | rxPush b => exact pushAll_host [b] s
  | encAbort | parse | rxFlush | statClr | illegal | answer => rfl

/-- An explicit open is not heard on an open line (log entry 16). -/
theorem openAnswerOp_keepsExchange (r : OpenResult) (s : State) : KeepsExchange s.host (openAnswerOp r s).host := by
  unfold openAnswerOp
  split
  · exact .refl _
  · next hconn =>
    refine ⟨?_, fun hopen => ?_⟩
    · cases r <;> rfl
    · rw [hconn] at hopen; cases hopen
  · exact .refl _

theorem openCallOp_keepsExchange (s : State) : KeepsExchange s.host (openCallOp s).host := by
  unfold openCallOp
  split
  · next hconn => exact ⟨rfl, fun hopen => by rw [hconn] at hopen; cases hopen⟩
  · exact .refl _
  · exact .refl _

theorem executeCall_keepsExchange (address : Nat) (c : Byte) (p : List Byte) (line : LineReport) (s : State) :
    KeepsExchange s.host (executeCall address c p line s).host := by
  unfold executeCall
  split <;> exact ⟨rfl, id⟩

theorem setBaudrateCall_keepsExchange (index : Nat) (line : LineReport) (s : State) :
    KeepsExchange s.host (setBaudrateCall index line s).host := by
  unfold setBaudrateCall
  split <;> exact ⟨rfl, id⟩

theorem dispatchUnlisted_keepsExchange (s : State) : KeepsExchange s.host (dispatchUnlisted s).host := by
  unfold dispatchUnlisted
  split <;> exact ⟨rfl, id⟩

theorem writeTx_keepsExchange (sent : Nat) (s : State) : KeepsExchange s.host (writeTx sent s).host := by
  rw [writeTx_eq]
  exact ⟨rfl, id⟩

/-- A command code leaves the exchange alone, or is one request. -/
theorem exec_proto_exchange {i : Instr} {s t : State} (hi : (encode i).1 = .proto8) (hexec : exec i s = .next t) :
    KeepsExchange s.host t.host ∨ ∃ c a p line, t = hostRequest c a p line s := by
  have key : ∀ c f, exec i s = .next (dispatchCode c f s) → (∀ a p u, KeepsExchange u.host (f a p u).host) →
      KeepsExchange s.host t.host ∨ ∃ c a p line, t = hostRequest c a p line s := by
    intro c f e hf
    obtain rfl := Host.Outcome.next.inj (e.symm.trans hexec)
    unfold dispatchCode
    split
    · exact .inl (.refl _)
    · exact .inr ⟨_, _, _, _, rfl⟩
    · next a x p _ => exact .inl (hf a p (dropMsg s))
  have ticket : ∀ f, exec i s = .next (dispatchReplyCode f s) → (∀ u, KeepsExchange u.host (f u).host) →
      KeepsExchange s.host t.host := by
    intro f e hf
    obtain rfl := Host.Outcome.next.inj (e.symm.trans hexec)
    unfold dispatchReplyCode
    split
    · exact .refl _
    · exact ⟨rfl, id⟩
    · exact hf (dropMsg s)
  cases i with
  | protoSuccessTicket | protoUnknownTicket => exact .inl (ticket _ rfl fun _ => ⟨rfl, id⟩)
  | protoSetBaudrate =>
    have e : exec .protoSetBaudrate s = execProtoSetBaudrate s := rfl
    unfold execProtoSetBaudrate at e
    split at e
    · split at e
      · exact .inr ⟨_, _, _, _, Host.Outcome.next.inj (hexec.symm.trans e)⟩
      · exact .inl (Host.Outcome.next.inj (hexec.symm.trans e) ▸ ⟨rfl, id⟩)
    · exact key _ _ e fun _ _ _ => ⟨rfl, id⟩
  | protoHello | protoSetLeds | protoSetSmartLeds | protoSetText | protoSetRelay | protoSetSpecificSmartLeds1
  | protoSetSpecificSmartLeds2 | protoSetSpecificSmartLeds3 | protoGetKeys | protoGetSliders | protoGetEncoders
  | protoGetSensors | protoGetStikyKeys | protoGetState => exact key _ _ rfl fun _ _ _ => ⟨rfl, id⟩
  | _ => cases hi

/-- An instruction from the inputs leaves the host's record. -/
theorem exec_inputInstr {inp : Input} {i : Instr} (hi : inputInstr inp = some i) (s : State) :
    ∃ u, exec i s = .next u ∧ u.host = s.host := by
  cases inp with
  | word cw =>
    obtain rfl : decodeCmd cw = i := Option.some.inj hi
    obtain ⟨u, hexec, hcmd⟩ := exec_cmd _ s (decodeCmd_format cw)
    exact ⟨u, hexec, hcmd.host_eq⟩
  | wire b =>
    obtain rfl : decodeWire b = i := Option.some.inj hi
    exact ⟨_, exec_wire b s, pushAll_host [b] s⟩
  | _ => cases hi

/-- What a step can do to the exchange. -/
theorem step_exchange_cases {s t : State} (hstep : step s = .next t) :
    KeepsExchange s.host t.host ∨ (∃ c a p line, t = hostRequest c a p line s) ∨
    (∃ rest, s.host.msg = none ∧ t = closeOp (setInputs rest s)) ∨
    ∃ bytes ms rest, s.host.msg = none ∧ t = pollOp bytes ms (setInputs rest s) := by
  cases hm : s.host.msg with
  | some m =>
    cases hd : decodeProto (msgCommand m) with
    | some i =>
      rw [step_of_frame_listed hm hd] at hstep
      exact (exec_proto_exchange (decodeProto_format _ i hd) hstep).imp_right .inl
    | none =>
      rw [step_of_frame_unlisted hm hd] at hstep
      exact .inl (Host.Outcome.next.inj hstep ▸ dispatchUnlisted_keepsExchange s)
  | none =>
    cases hin : s.inputs with
    | nil =>
      rw [step_of_nothing hm hin] at hstep
      exact .inl (Host.Outcome.next.inj hstep ▸ .refl _)
    | cons inp rest =>
      cases hi : inputInstr inp with
      | some i =>
        obtain ⟨u, hexec, hhost⟩ := exec_inputInstr hi (setInputs rest s)
        rw [step_of_input hm hin hi hexec] at hstep
        have hkeeps := writeTx_keepsExchange s.tx.length u
        rw [hhost] at hkeeps
        exact .inl (Host.Outcome.next.inj hstep ▸ hkeeps)
      | none =>
        rw [step_hostInput s inp rest hm hin hi] at hstep
        obtain rfl := Host.Outcome.next.inj hstep
        cases inp with
        | close => exact .inr (.inr (.inl ⟨rest, rfl, rfl⟩))
        | poll bytes ms => exact .inr (.inr (.inr ⟨bytes, ms, rest, rfl, rfl⟩))
        | reset => exact .inl (.refl _)
        | openCall => exact .inl (openCallOp_keepsExchange (setInputs rest s))
        | openAnswer r => exact .inl (openAnswerOp_keepsExchange r (setInputs rest s))
        | execute a c p line => exact .inl (executeCall_keepsExchange a c p line (setInputs rest s))
        | setBaudrate k line => exact .inl (setBaudrateCall_keepsExchange k line (setInputs rest s))
        | setSmartLed a v group r g b line => exact .inl (executeCall_keepsExchange _ _ _ _ (setInputs rest s))
        | word cw | wire b => cases hi

/-! ### A request (R264 to R267) -/

theorem lazyOpen_pending (r : OpenResult) (s : State) : (lazyOpen r s).host.pending = s.host.pending := by
  unfold lazyOpen
  split
  · cases r <;> rfl
  · cases r <;> rfl
  · rfl

/-- R266, R267: once the line is open, a request is left pending only at an address that answers. -/
theorem writeRequest_pendingSound {c : Byte} {a : Nibble} {p : List Byte} {written : Option Nat} {s : State}
    (hpend : s.host.pending = none) (hconn : s.host.conn = .opened) :
    PendingSound (writeRequest c a p written s) := by
  have hhost := (encodeRequest_only a c p s).host_eq
  unfold writeRequest
  dsimp only
  rw [noteBaudrate_eq]
  split
  · simp [PendingSound, hhost, hpend]
  · cases ha : isSilent a with
    | true => simp [PendingSound, hhost, hpend]
    | false => simp [PendingSound, hhost, hconn, ha]

/-- A request leaves a pending exchange as it is, and starts one that is sound. -/
theorem hostRequest_pendingSound {c : Byte} {a : Nibble} {p : List Byte} {line : LineReport} {s : State}
    (h : PendingSound s) : PendingSound (hostRequest c a p line s) := by
  cases hpend : s.host.pending with
  | some q =>
    rw [hostRequest_busy hpend]
    exact h
  | none =>
    have hopen : (lazyOpen line.opens (dropMsg s)).host.pending = none := (lazyOpen_pending _ _).trans hpend
    rw [hostRequest, hpend]
    dsimp only
    split
    · next hconn => exact writeRequest_pendingSound hopen hconn
    · rw [PendingSound, hopen]; trivial

/-! ### Terminal events (R274) -/

theorem isTerminal_cancelled : isTerminal .cancelled = true := rfl

theorem filter_isTerminal_notices (ns : List Notice) : (ns.map Event.notice).filter isTerminal = [] := by
  simp [isTerminal]

theorem replyInHand_of_none {s : State} (h : s.host.msg = none) : replyInHand s = 0 := by
  rw [replyInHand, h]

/-! ### Close (R275) -/

/-- Close ends a pending exchange of an open line with `Cancelled`, and touches the pending request nowhere else. -/
theorem closeOp_exchange (s : State) :
    (s.host.conn ≠ .opened ∧ (closeOp s).host.pending = s.host.pending) ∨
    (s.host.conn = .opened ∧ (closeOp s).host.pending = none ∧ ∀ q, s.host.pending = some q →
      ∃ ns : List Notice, (closeOp s).host.events = s.host.events ++ .cancelled :: ns.map Event.notice ∧
        (closeOp s).host.msg = s.host.msg) := by
  cases hconn : s.host.conn with
  | closed => exact .inl ⟨by simp, by rw [closeOp, hconn]⟩
  | opening => exact .inl ⟨by simp, by rw [closeOp, hconn]; rfl⟩
  | opened =>
    refine .inr ⟨rfl, ?_⟩
    rw [closeOp_of_opened hconn]
    cases hpend : s.host.pending with
    | none =>
      have hcancel : cancelPending s = s := by rw [cancelPending, hpend]
      rw [hcancel]
      exact ⟨hpend, fun q hq => by cases hq⟩
    | some q =>
      rw [cancelPending_of_pending hpend]
      exact ⟨rfl, fun _ _ => ⟨Config.notices s.host.draws .lineClosed, (List.append_cons _ _ _).symm, rfl⟩⟩

/-! ### A poll (R268 to R273) -/

/-- A drain that is not over has reported garbage only, and the exchange is as it was. -/
theorem pollDrain_pending {n : Nat} {s u : State} (h : pollDrain n s = (u, false)) :
    ∃ new, u.host = { s.host with events := s.host.events ++ new } ∧ new.filter isTerminal = [] := by
  induction n generalizing s with
  | zero =>
    obtain rfl := (Prod.mk.inj h).1
    exact ⟨[], by simp, rfl⟩
  | succ n ih =>
    rw [pollDrain] at h
    cases ho : parseOutcome s with
    | needMoreData =>
      rw [ho] at h
      obtain rfl := (Prod.mk.inj h).1
      exact ⟨[], by simp [parseOp_eq], rfl⟩
    | skipped g =>
      rw [ho] at h
      obtain ⟨new, hhost, hnew⟩ := ih h
      refine ⟨.parseError .frameSkipped g :: new, ?_, hnew⟩
      rw [hhost, List.append_cons]
      rfl
    | success | sizeError | tagError | checksumError =>
      rw [ho] at h
      cases (Prod.mk.inj h).2

/-- A drain that is over has ended the exchange once: by a parse error, or by the reply in hand. -/
theorem pollDrain_over {n : Nat} {s u : State} (h : pollDrain n s = (u, true)) (hm : s.host.msg = none) :
    u.host.pending = none ∧
    ∃ new, u.host.events = s.host.events ++ new ∧ (new.filter isTerminal).length + replyInHand u = 1 := by
  induction n generalizing s with
  | zero => cases (Prod.mk.inj h).2
  | succ n ih =>
    rw [pollDrain] at h
    cases ho : parseOutcome s with
    | needMoreData =>
      rw [ho] at h
      cases (Prod.mk.inj h).2
    | skipped g =>
      rw [ho] at h
      obtain ⟨hpend, new, hevents, hcount⟩ := ih h hm
      refine ⟨hpend, .parseError .frameSkipped g :: new, ?_, hcount⟩
      rw [hevents, List.append_cons]
      rfl
    | success a c p =>
      rw [ho] at h
      obtain rfl := (Prod.mk.inj h).1
      exact ⟨rfl, [], (List.append_nil _).symm, rfl⟩
    | sizeError f | tagError f | checksumError f =>
      rw [ho] at h
      obtain rfl := (Prod.mk.inj h).1
      refine ⟨rfl, [_], rfl, ?_⟩
      rw [replyInHand_of_none ?_]
      · rfl
      · exact hm

/-- What a poll leaves of a pending exchange: it goes on before its timeout, or one outcome has ended it. -/
theorem pollOp_exchange {s : State} {q : Pending} {bytes : List Byte} {ms : Nat} (hm : s.host.msg = none)
    (hpend : s.host.pending = some q) :
    ((pollOp bytes ms s).host.pending = some { q with elapsedMs := q.elapsedMs + ms } ∧ q.elapsedMs + ms < 350 ∧
      (pollOp bytes ms s).host.conn = s.host.conn) ∨
    ((pollOp bytes ms s).host.pending = none ∧ ∃ new, (pollOp bytes ms s).host.events = s.host.events ++ new ∧
      (new.filter isTerminal).length + replyInHand (pollOp bytes ms s) = 1) := by
  have hpush : (pushAll bytes s).host = s.host := pushAll_host bytes s
  rw [pollOp_of_exchange hpend rfl, pollEnd]
  generalize hdrain : pollDrain ((pushAll bytes s).rxBuf.length + 1) (pushAll bytes s) = r
  obtain ⟨u, _ | _⟩ := r
  · obtain ⟨new, hhost, hnew⟩ := pollDrain_pending hdrain
    rw [hpush] at hhost
    rw [if_neg (by simp), checkTimeout_eq, setHost_host, reactToFull_host, hhost]
    by_cases htime : 350 ≤ q.elapsedMs + ms
    · rw [if_pos htime]
      refine .inr ⟨rfl, new ++ [.timeout q.address q.command q.payload], List.append_assoc _ _ _, ?_⟩
      rw [List.filter_append, hnew, replyInHand_of_none ?_]
      · rfl
      · exact hm
    · rw [if_neg htime]
      exact .inl ⟨rfl, Nat.not_le.1 htime, rfl⟩
  · rw [if_pos rfl]
    obtain ⟨hnone, hend⟩ := pollDrain_over hdrain (by rw [hpush, hm])
    rw [hpush] at hend
    exact .inr ⟨hnone, hend⟩

/-! ### The statements -/

theorem pendingSound_of_none {s : State} (h : s.host.pending = none) : PendingSound s := by
  rw [PendingSound, h]
  trivial

theorem pendingSound_iff {s : State} {q : Pending} (h : s.host.pending = some q) :
    PendingSound s ↔ s.host.conn = .opened ∧ isSilent q.address = false ∧ q.elapsedMs < requestTimeoutMs := by
  rw [PendingSound, h]

/-- Settles O60: with nothing pending only a request starts an exchange; a pending one stays sound or ends. -/
theorem stepKeepsPendingSound : Obligations.StepKeepsPendingSound := by
  intro s t hs hstep
  obtain ⟨hpend, hconn⟩ | ⟨c, a, p, line, rfl⟩ | ⟨rest, hm, rfl⟩ | ⟨bytes, ms, rest, hm, rfl⟩ :=
    step_exchange_cases hstep
  · cases hq : s.host.pending with
    | none => exact pendingSound_of_none (hpend.trans hq)
    | some q =>
      obtain ⟨hopen, haddr, htime⟩ := (pendingSound_iff hq).1 hs
      exact (pendingSound_iff (hpend.trans hq)).2 ⟨hconn hopen, haddr, htime⟩
  · exact hostRequest_pendingSound hs
  · obtain ⟨hconn, hpend⟩ | ⟨-, hnone, -⟩ := closeOp_exchange (setInputs rest s)
    · cases hq : s.host.pending with
      | none => exact pendingSound_of_none (hpend.trans hq)
      | some q => exact absurd ((pendingSound_iff hq).1 hs).1 hconn
    · exact pendingSound_of_none hnone
  · cases hq : s.host.pending with
    | none =>
      refine pendingSound_of_none ?_
      rw [pollOp_of_no_exchange (s := setInputs rest s) hq, reactToFull_host, pushAll_host]
      exact hq
    | some q =>
      obtain ⟨hopen, haddr, -⟩ := (pendingSound_iff hq).1 hs
      obtain ⟨hpend, htime, hconn⟩ | ⟨hnone, -⟩ := pollOp_exchange (s := setInputs rest s) hm hq
      · exact (pendingSound_iff hpend).2 ⟨hconn.trans hopen, haddr, htime⟩
      · exact pendingSound_of_none hnone

/-- Settles O52: only close and a poll end a pending exchange, and each counts one outcome. -/
theorem exactlyOneTerminalOutcome : Obligations.ExactlyOneTerminalOutcome := by
  intro s t q hstep hpend hend
  obtain ⟨hkept, -⟩ | ⟨c, a, p, line, rfl⟩ | ⟨rest, hm, rfl⟩ | ⟨bytes, ms, rest, hm, rfl⟩ :=
    step_exchange_cases hstep
  · cases hend.symm.trans (hkept.trans hpend)
  · rw [hostRequest_busy hpend] at hend
    cases hend.symm.trans hpend
  · obtain ⟨-, hkept⟩ | ⟨-, -, hcancel⟩ := closeOp_exchange (setInputs rest s)
    · cases hend.symm.trans (hkept.trans hpend)
    · obtain ⟨ns, hevents, hmsg⟩ := hcancel q hpend
      refine ⟨_, hevents, ?_⟩
      rw [replyInHand_of_none (hmsg.trans hm), List.filter_cons, if_pos isTerminal_cancelled,
        filter_isTerminal_notices]
      rfl
  · obtain ⟨hkept, -⟩ | ⟨-, hone⟩ := pollOp_exchange (s := setInputs rest s) hm hpend
    · cases hend.symm.trans hkept
    · exact hone

end Sys2Proof.Machine
end
